-- ==== Sys2Proof/Word.lean ====
section
/-! DEFINITION. The word types of block_encoder_fsm: the 32-bit word of the stream and of memory (spec R12), the byte of a width
field, and the cursor. Every quantity of the block is unsigned (R12). -/

namespace Sys2Proof

/-- A 32-bit unsigned word, "the codec's atomic storage unit" (00_scope.md R12). Also a word address (R13). -/
abbrev Word := BitVec 32

/-- An 8-bit field: one header field (R95) and one entry of the width vector `B` (R36). -/
abbrev Byte := BitVec 8

/-- A cursor: a word address with one bit more than the address has (R37 asks for comparators of `AW + 1` bits), so that a
cursor may stand just past the last word of memory, as precondition P5 of R301 admits. -/
abbrev Cursor := BitVec 33

end Sys2Proof
end

