-- ==== Sys2Proof/Config.lean ====
section
/-! DEFINITION. What is fixed for the machine: the constants of spec R7, the values R8 gives the open parameters, and the
free values, opaque constants about which nothing can be proved beyond their types. -/

namespace Sys2Proof
namespace Config

/-- `AW`: bits in a word address (R8). -/
abbrev addrBits : Nat := 32

/-- `2^AW`, the number of words of `MEM` (R60). -/
abbrev memWords : Nat := 4294967296

/-- `MB`: words in a miniblock (R7). -/
abbrev miniblockWords : Nat := 128

/-- `NMB`: miniblocks in a block (R7). -/
abbrev blockMiniblocks : Nat := 16

/-- `BLK`: words in a block (R7). -/
abbrev blockWords : Nat := 2048

/-- `HDRW`: header words in a block frame (R7). -/
abbrev headerWords : Nat := 4

/-- `ALIGNW`: words in an alignment unit of 16 bytes (R7). -/
abbrev alignWords : Nat := 4

/-- `COOKIE`: the padding sentinel `CookiePadder` (R7, R94). -/
abbrev cookie : Word := 0x0001E240#32

/-- `WMAX`: the largest legal bit width (R7). -/
abbrev maxWidth : Nat := 32

/-- The part of the kernel pair `K` the spec leaves open (R150, D25): for each width, a permutation of the lists of `4·b`
payload words. Composed with one fixed regrouping of bits it gives every pair that meets R153 to R156, and only those
(DESIGN CHOICE, log 11). It has no body: nothing is known of it. -/
opaque payloadPerm (b : Nat) : Equiv.Perm (Vector Word (4 * b))

/-- The `4·b` words `K.pack` gives for a value list some of whose values do not fit in `b` bits: "unspecified output" (R157,
U1). A free value (log 12). -/
opaque packOverflow (b : Nat) (v : List Word) : Vector Word (4 * b)

/-- What the host reads from the 32-bit register of a cursor that stands at or past `2^32`, a number the register cannot
hold (P5 of R301 admits such a final cursor; R13 and R29 give it no value). A free value (log 10). -/
opaque cursorPastTop (c : Cursor) : Word

end Config
end Sys2Proof
end

