-- ==== Sys2Proof/Syntax.lean ====
section
/-! DEFINITION. The operations of the block, one constructor for each row of spec/opcode_table.json (spec R4, R105). -/

namespace Sys2Proof

/-- The 36 operations of rule R4, in the order of the opcode table. Operands that a rule takes from a register of the block
are not operands here. -/
inductive Instr where
  /-- `ENCODE`, host command (R240). -/
  | encode
  /-- `DECODE`, host command (R241). -/
  | decode
  /-- `NEEDS_PAD`, on a word address (R120). -/
  | needsPad (a : Word)
  /-- `MAXBITS`, on the 128 words of a miniblock (R130). -/
  | maxbits (v : Vector Word 128)
  /-- `HDR_PACK`, header word `k` of the width vector (R132). -/
  | hdrPack (k : Fin 4)
  /-- `HDR_UNPACK`, header word `w` read at index `k` (R134). -/
  | hdrUnpack (k : Fin 4) (w : Word)
  /-- `WIDTH_CHECK`, on the width vector and `mb_cnt` (R136). -/
  | widthCheck
  /-- `PAD_EMIT`, body of `E_PAD` (R122). -/
  | padEmit
  /-- `PAD_SKIP`, body of `D_PAD` (R123). -/
  | padSkip
  /-- `PACK`, kernel dispatch (R151, R103). -/
  | pack (bits : BitVec 6) (src dst : Word)
  /-- `UNPACK`, kernel dispatch (R152, R103). -/
  | unpack (bits : BitVec 6) (src dst : Word)
  /-- `SCHED_PACK`, body of `E_PACK` (R161). -/
  | schedPack
  /-- `SCHED_UNPACK`, body of `D_UNPACK` (R162). -/
  | schedUnpack
  /-- `SCHED_END_ENC`, body of `E_BLOCK_END` (R163). -/
  | schedEndEnc
  /-- `SCHED_END_DEC`, body of `D_BLOCK_END` (R164). -/
  | schedEndDec
  /-- `E_START` (R181). -/
  | eStart
  /-- `E_CHECKLEN` (R182). -/
  | eCheckLen
  /-- `E_PREFIX` (R183). -/
  | ePrefix
  /-- `E_PAD` (R184). -/
  | ePad
  /-- `E_PAD_DONE` (R185). -/
  | ePadDone
  /-- `E_WIDTH` (R187). -/
  | eWidth
  /-- `E_HDR` (R188). -/
  | eHdr
  /-- `E_PACK` (R189). -/
  | ePack
  /-- `E_BLOCK_END` (R190). -/
  | eBlockEnd
  /-- `D_START` (R211). -/
  | dStart
  /-- `D_PREFIX` (R212). -/
  | dPrefix
  /-- `D_PAD` (R213). -/
  | dPad
  /-- `D_PAD_DONE` (R214). -/
  | dPadDone
  /-- `D_HDR` (R216). -/
  | dHdr
  /-- `D_HDR_CHECK` (R217). -/
  | dHdrCheck
  /-- `D_UNPACK` (R218). -/
  | dUnpack
  /-- `D_BLOCK_END` (R219). -/
  | dBlockEnd
  /-- `LEN`, the length word of a stream (R93). -/
  | len (l : Word)
  /-- `PAD`, a padding word of a stream (R94). -/
  | pad
  /-- `HDR`, a header word of a stream with its four fields (R95). -/
  | hdr (a b c d : Byte)
  /-- `PAYLOAD`, a payload word of a stream (R96). -/
  | payload (data : Word)
  deriving DecidableEq, Repr

end Sys2Proof
end

