-- ==== Sys2Proof/WellFormed.lean ====
section
/-! DEFINITION. Which operations are well formed: the operand ranges the spec gives that the operand types do not already
express. -/

namespace Sys2Proof

/-- The operand ranges of R103 (a dispatch has `bits` 0 to 32; 33 to 63 are reserved) and R95 (each header field is 0 to 32).
All other operands are ranged by their types. -/
def Instr.wellFormed : Instr → Bool
  | .encode => true
  | .decode => true
  | .needsPad _ => true
  | .maxbits _ => true
  | .hdrPack _ => true
  | .hdrUnpack _ _ => true
  | .widthCheck => true
  | .padEmit => true
  | .padSkip => true
  | .pack bits _ _ => decide (bits.toNat ≤ Config.maxWidth)
  | .unpack bits _ _ => decide (bits.toNat ≤ Config.maxWidth)
  | .schedPack => true
  | .schedUnpack => true
  | .schedEndEnc => true
  | .schedEndDec => true
  | .eStart => true
  | .eCheckLen => true
  | .ePrefix => true
  | .ePad => true
  | .ePadDone => true
  | .eWidth => true
  | .eHdr => true
  | .ePack => true
  | .eBlockEnd => true
  | .dStart => true
  | .dPrefix => true
  | .dPad => true
  | .dPadDone => true
  | .dHdr => true
  | .dHdrCheck => true
  | .dUnpack => true
  | .dBlockEnd => true
  | .len _ => true
  | .pad => true
  | .hdr a b c d => decide (a.toNat ≤ Config.maxWidth ∧ b.toNat ≤ Config.maxWidth ∧ c.toNat ≤ Config.maxWidth ∧ d.toNat ≤ Config.maxWidth)
  | .payload _ => true

end Sys2Proof
end

