-- ==== Sys2Proof/Decode.lean ====
section
/-! DEFINITION. The decoder of the block's encodings, the encoder beside it, and the host's view of the decoder.
The block has four encodings (spec R90): the stream word, whose format is given by its POSITION and not by its bits (R92), the
command word (R102), the kernel dispatch word (R103) and the state code (R104, R105). So the decoder takes, besides the word,
the channel it arrives on. The five FUNC rows have no encoding (R105). -/

namespace Sys2Proof

/-- The position of a stream word, which decides its format (R92). -/
inductive StreamPos where
  | lenWord
  | padWord
  | hdrWord
  | payloadWord
  deriving DecidableEq, Repr

/-- Where a word is decoded (R90, R105). `guardHolds` is the guard that tells the two rows of one state code apart: for
the padding states `needs_pad` of the cursor, for the packing states `mb_idx < mb_cnt`, for `D_ReadingHeader`
`hdr_idx < 4`; true where a state has one row. -/
inductive Channel where
  /-- A value written to register 0, `CMD`, read as the host command (R102). -/
  | command
  /-- The same value, read as the micro-operation the accepted command performs (R105: `E_START` and `D_START` are selected by
  the `CMD` value). -/
  | start
  /-- A state code, read as the enabled micro-operation. -/
  | uop (guardHolds : Bool)
  /-- A state code, read as the step that is the body of that micro-operation. -/
  | body (guardHolds : Bool)
  /-- A dispatch word, with the two addresses handed over beside it (R103). -/
  | dispatch (src dst : Word)
  /-- A stream word at a position (R92). -/
  | stream (pos : StreamPos)
  deriving DecidableEq, Repr

/-- Why a word is rejected. -/
inductive DecodeError where
  /-- A `CMD` value other than 1 and 2 (R102, R243). -/
  | reservedCommand
  /-- A number above 15 where a state code stands (R104). -/
  | notStateCode
  /-- State codes 7, 12, 13 (R30). -/
  | reservedState
  /-- State codes 0, 14, 15: a ready state has no micro-operation of its own (R30). -/
  | readyState
  /-- A state and guard with no step body of that name, or with no row for this guard (R105). -/
  | noSuchRow
  /-- A number above 127 where a dispatch word stands (R103). -/
  | notDispatchWord
  /-- A dispatch word with `bits` 33 to 63 (R103, R160). -/
  | reservedWidth
  /-- A word other than the sentinel at a padding position (R101 item 1). -/
  | notCookie
  deriving DecidableEq, Repr

/-- Field `hi:lo = 8k+7:8k` of a word, counted from the least significant byte (R12). -/
def byteField (w : Word) (k : Nat) : Byte := w.extractLsb' (8 * k) 8

/-- The `HDR` format read field by field (R95): `a` in bits 31:24 down to `d` in bits 7:0. -/
def decodeHdr (w : Word) : Instr := .hdr (byteField w 3) (byteField w 2) (byteField w 1) (byteField w 0)

/-- The `HDR` format written field by field (R95). -/
def encodeHdr (a b c d : Byte) : Word := a ++ b ++ c ++ d

/-- The command word (R102). -/
def decodeCommand (w : Word) : Except DecodeError Instr :=
  if w = 1#32 then .ok .encode
  else if w = 2#32 then .ok .decode
  else .error .reservedCommand

/-- The micro-operation a command value starts (R105). -/
def decodeStart (w : Word) : Except DecodeError Instr :=
  if w = 1#32 then .ok .eStart
  else if w = 2#32 then .ok .dStart
  else .error .reservedCommand

/-- The micro-operation enabled in a state under a guard: the transition tables of R180 and R210. -/
def decodeUop (g : Bool) (w : Word) : Except DecodeError Instr :=
  match w.toNat, g with
  | 1, true => .ok .eCheckLen
  | 2, true => .ok .ePrefix
  | 3, true => .ok .ePad
  | 3, false => .ok .ePadDone
  | 4, true => .ok .eWidth
  | 5, true => .ok .eHdr
  | 6, true => .ok .ePack
  | 6, false => .ok .eBlockEnd
  | 8, true => .ok .dPrefix
  | 9, true => .ok .dPad
  | 9, false => .ok .dPadDone
  | 10, true => .ok .dHdr
  | 10, false => .ok .dHdrCheck
  | 11, true => .ok .dUnpack
  | 11, false => .ok .dBlockEnd
  | n, _ =>
    if n = 7 ∨ n = 12 ∨ n = 13 then .error .reservedState
    else if n = 0 ∨ n = 14 ∨ n = 15 then .error .readyState
    else if n < 16 then .error .noSuchRow
    else .error .notStateCode

/-- The step that is the body of the enabled micro-operation: the STEP rows of the opcode table (R105). -/
def decodeBody (g : Bool) (w : Word) : Except DecodeError Instr :=
  match w.toNat, g with
  | 3, true => .ok .padEmit
  | 6, true => .ok .schedPack
  | 6, false => .ok .schedEndEnc
  | 9, true => .ok .padSkip
  | 11, true => .ok .schedUnpack
  | 11, false => .ok .schedEndDec
  | n, _ =>
    if n = 7 ∨ n = 12 ∨ n = 13 then .error .reservedState
    else if n = 0 ∨ n = 14 ∨ n = 15 then .error .readyState
    else if n < 16 then .error .noSuchRow
    else .error .notStateCode

/-- The 7-bit dispatch word `{kop, bits[5:0]}` (R103). -/
def decodeDispatch (src dst : Word) (w : Word) : Except DecodeError Instr :=
  if 128 ≤ w.toNat then .error .notDispatchWord
  else
    let bits : BitVec 6 := w.extractLsb' 0 6
    if Config.maxWidth < bits.toNat then .error .reservedWidth
    else if w.getLsbD 6 then .ok (.unpack bits src dst)
    else .ok (.pack bits src dst)

/-- A stream word by its position (R92). A header field above 32 is read as it is: the range check is `WIDTH_CHECK`'s (R134). -/
def decodeStream : StreamPos → Word → Except DecodeError Instr
  | .lenWord, w => .ok (.len w)
  | .padWord, w => if w = Config.cookie then .ok .pad else .error .notCookie
  | .hdrWord, w => .ok (decodeHdr w)
  | .payloadWord, w => .ok (.payload w)

/-- The decoder: total on every channel and every word, rejecting by name. -/
def decode : Channel → Word → Except DecodeError Instr
  | .command, w => decodeCommand w
  | .start, w => decodeStart w
  | .uop g, w => decodeUop g w
  | .body g, w => decodeBody g w
  | .dispatch src dst, w => decodeDispatch src dst w
  | .stream pos, w => decodeStream pos w

/-- The encoder: the channel and the word of an operation, none for the five FUNC rows, which have no encoding (R105). -/
def encode : Instr → Option (Channel × Word)
  | .encode => some (.command, 1#32)
  | .decode => some (.command, 2#32)
  | .needsPad _ => none
  | .maxbits _ => none
  | .hdrPack _ => none
  | .hdrUnpack _ _ => none
  | .widthCheck => none
  | .padEmit => some (.body true, 3#32)
  | .padSkip => some (.body true, 9#32)
  | .pack bits src dst => some (.dispatch src dst, bits.setWidth 32)
  | .unpack bits src dst => some (.dispatch src dst, 0x40#32 ||| bits.setWidth 32)
  | .schedPack => some (.body true, 6#32)
  | .schedUnpack => some (.body true, 11#32)
  | .schedEndEnc => some (.body false, 6#32)
  | .schedEndDec => some (.body false, 11#32)
  | .eStart => some (.start, 1#32)
  | .eCheckLen => some (.uop true, 1#32)
  | .ePrefix => some (.uop true, 2#32)
  | .ePad => some (.uop true, 3#32)
  | .ePadDone => some (.uop false, 3#32)
  | .eWidth => some (.uop true, 4#32)
  | .eHdr => some (.uop true, 5#32)
  | .ePack => some (.uop true, 6#32)
  | .eBlockEnd => some (.uop false, 6#32)
  | .dStart => some (.start, 2#32)
  | .dPrefix => some (.uop true, 8#32)
  | .dPad => some (.uop true, 9#32)
  | .dPadDone => some (.uop false, 9#32)
  | .dHdr => some (.uop true, 10#32)
  | .dHdrCheck => some (.uop false, 10#32)
  | .dUnpack => some (.uop true, 11#32)
  | .dBlockEnd => some (.uop false, 11#32)
  | .len l => some (.stream .lenWord, l)
  | .pad => some (.stream .padWord, Config.cookie)
  | .hdr a b c d => some (.stream .hdrWord, encodeHdr a b c d)
  | .payload d => some (.stream .payloadWord, d)

/-- A 32-bit row of the opcode table read without its position: a command value first, then the sentinel, then a word
whose fields leave the `HDR` mask's bits 0, then `LEN`. The table gives several rows the same word (R105: they are told
apart by position, guard or `used_by`), and one answer must be taken (DESIGN CHOICE, log 19). -/
def decodeTable32 (w : Word) : Option Instr :=
  if w = 1#32 then some .encode
  else if w = 2#32 then some .decode
  else if w = Config.cookie then some .pad
  else if w &&& 0xC0C0C0C0#32 = 0#32 then some (decodeHdr w)
  else some (.len w)

/-- An 8-bit row of the opcode table read without its guard: a state code of a running state as the micro-operation whose
guard is the first of that state, any other number as a dispatch word with both addresses 0 (DESIGN CHOICE, log 19). -/
def decodeTable8 (w : Word) : Option Instr :=
  match decode (.uop true) w with
  | .ok i => some i
  | .error _ =>
    match decode (.dispatch 0#32 0#32) w with
    | .ok i => some i
    | .error _ => none

/-- The instruction the decoder reads from the opcode-table row whose bits are `w`, given only the row's width (log 19). -/
def decodeTableWord (nbits w : Nat) : Option Instr :=
  if 4294967296 ≤ w then none
  else if nbits = 32 then decodeTable32 (BitVec.ofNat 32 w)
  else if nbits = 8 ∧ w < 256 then decodeTable8 (BitVec.ofNat 32 w)
  else none

end Sys2Proof
end

