-- ==== Sys2Proof/Machine/State.lean ====
section
/-! DEFINITION. The state of the machine: the engine's registers (spec R20 to R36), memory (R60), the host's allocation (R66), the
host's pending statements (R106) and their interleaving with the engine, and the state after reset (R40). -/

namespace Sys2Proof.Machine

/-- The states of the two FSMs (R30); the reserved codes 7, 12, 13 are never taken and have no name (U13). -/
inductive FsmState where
  | idle
  | eCheckingLength
  | eWritingPrefix
  | eWritingPadding
  | eComputingWidths
  | eWritingHeader
  | ePackingPayload
  | dReadingPrefix
  | dSkippingPadding
  | dReadingHeader
  | dUnpackingPayload
  | done
  | error
  deriving DecidableEq, Repr

/-- The error kinds (R24); the reserved codes 5 to 7 are never produced (U13). -/
inductive ErrKind where
  | none
  | invalidLength
  | badOutputAlignment
  | streamCorrupt
  | bufferTooSmall
  deriving DecidableEq, Repr

/-- A run of word addresses `[base, base + size)`. -/
structure Region where
  base : Nat
  size : Nat
  deriving DecidableEq, Repr

/-- The agents that can move (R10); the kernel unit moves inside an engine step. -/
inductive Agent where
  | engine
  | host
  deriving DecidableEq, Repr

/-- What the host can do: the script statements of R106 and R107, and the reset input of R290. Registers are named by their
number (R21). -/
inductive HostStmt where
  /-- `MEM <addr> = <words>`. -/
  | mem (addr : Word) (words : List Word)
  /-- `FILL <addr> <n> <w>`. -/
  | fill (addr : Word) (n : Nat) (w : Word)
  /-- `WR <reg> <value>`. -/
  | wr (reg : Nat) (value : Word)
  /-- `RD <reg>`. -/
  | rd (reg : Nat)
  /-- `ENCODE in= len= out= cap=`, a pseudo-statement (R107). -/
  | encodeCmd (inp len out cap : Word)
  /-- `DECODE in= out= cap=`, a pseudo-statement (R107). -/
  | decodeCmd (inp out cap : Word)
  /-- `WAIT`. -/
  | wait
  /-- `EXPECT <reg> = <value>`. -/
  | expectReg (reg : Nat) (value : Word)
  /-- `EXPECT MEM[a..b] = <values>`. -/
  | expectMem (addr : Word) (values : List Word)
  /-- The reset input is asserted and released (R290, R291). -/
  | reset
  deriving DecidableEq, Repr

/-- What stands on the output of a combinational function (the FUNC rows; log 15). -/
inductive FuncOut where
  | none
  /-- The result of `NEEDS_PAD` or `WIDTH_CHECK`. -/
  | bit (b : Bool)
  /-- The result of `MAXBITS`. -/
  | width (n : Nat)
  /-- The result of `HDR_PACK`. -/
  | word (w : Word)
  /-- The result of `HDR_UNPACK`. -/
  | fields (a b c d : Byte)
  deriving DecidableEq, Repr

/-- Why the machine stops with a fault. The block's own errors (R261) are not faults: they are next states. -/
inductive Fault where
  /-- Answered by `exec` for every operation that would read `MEM` at a word outside the readable set: the operation does not happen
  (R66, R273). It does not end a run: `step` leaves the engine as it is, busy, and the host goes on. Safe. -/
  | stuckRead
  /-- Answered by `exec` for every operation that would write `MEM` at a word outside the writable set, as `stuckRead`. Safe. -/
  | stuckWrite
  /-- Raised by a host `MEM`, `FILL` or `EXPECT` that names a word at or past `2^32`: no such word exists (R60). Safe. -/
  | noSuchAddress
  /-- Raised by `step` in a running state whose guard selects no micro-operation, which R180 and R210 say never happens and no
  run from reset reaches. Safe. -/
  | noMicroOperation
  deriving DecidableEq, Repr

/-- Why the machine gives a step no meaning. -/
inductive Refusal where
  /-- Answered by `exec` for a row of the table that has no meaning yet. Safe. -/
  | notModelled (mnemonic : String)
  /-- Precondition P1 of R301 is broken: `IN_BASE` is not a multiple of 4. Raised at the start of a command. Safe. -/
  | inputMisaligned
  /-- Precondition P2 of R301 is broken: `OUT_BASE` is not a multiple of 4 at an `ENCODE`. Safe. -/
  | outputMisaligned
  /-- Precondition P3 of R301 is broken: the prefix read is not a multiple of 128. Raised by the prefix step. Safe. -/
  | prefixNotMultiple
  /-- Precondition P4 of R301 is broken: the input and the output region overlap (also: the two operands of a dispatch). Safe. -/
  | regionsOverlap
  /-- Precondition P5 of R301 is broken: an address would reach `2^32`. Safe. -/
  | addressWrap
  /-- Precondition P6 of R301 is broken: the host writes a buffer of the running command (R303, R66; U4: "Treatment: refuse").
  Safe. -/
  | bufferWritten
  /-- A dispatch with a misaligned address (R64: "no rule gives a misaligned access a meaning"). Safe. -/
  | misalignedDispatch
  /-- A dispatch with `bits` 33 to 63 (R160: what the kernel unit would do "is not defined and not needed"). Safe. -/
  | dispatchWidth
  /-- An operation executed outside the state and guard that enable it (R180, R210, R122 `require`): it has no firing there, and
  `step` never asks for one. Safe. -/
  | notEnabled
  /-- A stream word executed at a position that is not its format's (R92). Safe. -/
  | notAtPosition
  deriving DecidableEq, Repr

/-- The complete state. -/
structure State where
  /-- `IN_BASE`, register 1 (R28). -/
  inBase : Word
  /-- `IN_LEN`, register 2 (R28). -/
  inLen : Word
  /-- `OUT_BASE`, register 3 (R28). -/
  outBase : Word
  /-- `OUT_CAP`, register 4 (R28). -/
  outCap : Word
  /-- `ERR`, register 6 (R24). -/
  err : ErrKind
  /-- `NVALUE`, register 7 (R25). -/
  nvalue : Word
  /-- `IN_CUR`, register 8 (R26; log 10). -/
  inCur : Cursor
  /-- `OUT_CUR`, register 9 (R27; log 10). -/
  outCur : Cursor
  /-- `fsm_state` (R30). -/
  fsm : FsmState
  /-- `last_op` (R31). -/
  lastOp : BitVec 1
  /-- `len` (R32). -/
  len : Word
  /-- `hdr_idx` (R33). -/
  hdrIdx : BitVec 3
  /-- `mb_idx` (R34). -/
  mbIdx : BitVec 5
  /-- `mb_cnt` (R35). -/
  mbCnt : BitVec 5
  /-- The width vector `B[0..15]` (R36). -/
  widths : Vector Byte 16
  /-- `MEM` (R60), byte by byte at four times the word address (R65; log 1). -/
  mem : List Host.Cell
  /-- The words the host's allocation lets the engine read (R66; log 4). -/
  readable : List Region
  /-- The words the host's allocation lets the engine write (R66; log 4). -/
  writable : List Region
  /-- The host's statements still to run (R106; log 17). -/
  host : List HostStmt
  /-- Who moves first in the coming steps while both host and engine can move (U15; log 17). -/
  turns : List Agent
  /-- What the host's last register read returned (R244; log 17). -/
  rdata : Word
  /-- How many `EXPECT` checks have failed (R106; log 17). -/
  mismatches : Nat
  /-- The output of the last combinational function executed as an instruction (log 15). -/
  funcOut : FuncOut
  deriving DecidableEq, Repr

/-- The outcome of a step. -/
abbrev Out := Host.Outcome State Fault Refusal

/-- The state after reset (R40): every register 0, `Idle`, no error. `B` and memory have no reset value of the spec (logs 2, 3), nor
have the allocation and the host's own fields (logs 4, 17). -/
def State.reset : State where
  inBase := 0#32
  inLen := 0#32
  outBase := 0#32
  outCap := 0#32
  err := .none
  nvalue := 0#32
  inCur := 0#33
  outCur := 0#33
  fsm := .idle
  lastOp := 0#1
  len := 0#32
  hdrIdx := 0#3
  mbIdx := 0#5
  mbCnt := 0#5
  widths := Vector.replicate 16 0#8
  mem := []
  readable := [⟨0, Config.memWords⟩]
  writable := [⟨0, Config.memWords⟩]
  host := []
  turns := []
  rdata := 0#32
  mismatches := 0
  funcOut := .none

end Sys2Proof.Machine
end

