-- ==== Sys2Proof/Machine/Flags.lean ====
section
/-! DEFINITION. The codes and the flag bits the host reads: the state code (spec R30), the error code (R24), and the `STATUS` word
(R23), whose bits `busy`, `done` and `error` are the only flags the block has. -/

namespace Sys2Proof.Machine

/-- The 4-bit code of a state (R30). -/
def fsmCode : FsmState → BitVec 4
  | .idle => 0#4
  | .eCheckingLength => 1#4
  | .eWritingPrefix => 2#4
  | .eWritingPadding => 3#4
  | .eComputingWidths => 4#4
  | .eWritingHeader => 5#4
  | .ePackingPayload => 6#4
  | .dReadingPrefix => 8#4
  | .dSkippingPadding => 9#4
  | .dReadingHeader => 10#4
  | .dUnpackingPayload => 11#4
  | .done => 14#4
  | .error => 15#4

/-- The code of an error kind (R24). -/
def errCode : ErrKind → BitVec 3
  | .none => 0#3
  | .invalidLength => 1#3
  | .badOutputAlignment => 2#3
  | .streamCorrupt => 3#3
  | .bufferTooSmall => 4#3

/-- The three ready states, in which the engine accepts a command and has no step of its own (R30). -/
def fsmReady : FsmState → Bool
  | .idle => true
  | .done => true
  | .error => true
  | .eCheckingLength => false
  | .eWritingPrefix => false
  | .eWritingPadding => false
  | .eComputingWidths => false
  | .eWritingHeader => false
  | .ePackingPayload => false
  | .dReadingPrefix => false
  | .dSkippingPadding => false
  | .dReadingHeader => false
  | .dUnpackingPayload => false

/-- `STATUS.busy`: 1 iff the state is one of the ten running states (R23). -/
def busy (s : State) : Bool := !fsmReady s.fsm

/-- `STATUS.done` (R23). -/
def doneBit (s : State) : Bool := s.fsm == .done

/-- `STATUS.error` (R23). -/
def errorBit (s : State) : Bool := s.fsm == .error

/-- The `STATUS` word (R23): bits 31:8 zero, `state` in 7:4, `op` in 3, `error` in 2, `done` in 1, `busy` in 0. -/
def statusWord (s : State) : Word :=
  0#24 ++ fsmCode s.fsm ++ s.lastOp ++ BitVec.ofBool (errorBit s) ++ BitVec.ofBool (doneBit s) ++ BitVec.ofBool (busy s)

/-- The `ERR` word (R24). -/
def errWord (s : State) : Word := (errCode s.err).setWidth 32

end Sys2Proof.Machine
end

