-- ==== Sys2Proof/Machine/Operands.lean ====
section
/-! DEFINITION. The pure functions on operands: alignment (spec R120), byte order of memory words (R62, log 1), the width of a
miniblock (R130), header words (R132, R134, R136), the size bound of a stream (R194), overlap of regions (R301 P4), and
the kernel pair (R150 to R157). -/

namespace Sys2Proof.Machine

/-- `needs_pad(a)`: the word address is not a multiple of four words (R120). -/
def needsPadAt (a : Nat) : Bool := a % Config.alignWords != 0

/-- The four bytes of a word as memory holds them, least significant first (log 1). -/
def wordBytes (w : Word) : List Byte :=
  [w.extractLsb' 0 8, w.extractLsb' 8 8, w.extractLsb' 16 8, w.extractLsb' 24 8]

/-- The word whose bytes in memory order are these (log 1). -/
def bytesWord (b0 b1 b2 b3 : Byte) : Word := b3 ++ b2 ++ b1 ++ b0

/-- The largest value of a list of words, 0 for the empty list. -/
def maxWord (v : List Word) : Nat := v.foldl (fun m w => max m w.toNat) 0

/-- `maxbits(v)` (R130): 0 if every value is 0, else the position of the highest 1 bit of the maximum, plus one. -/
def maxbitsOf (v : List Word) : Nat := if maxWord v = 0 then 0 else Nat.log2 (maxWord v) + 1

/-- Entry `i` of the width vector; the vector has the entries 0 to 15 (R36), and no rule reads another. -/
def widthAt (b : Vector Byte 16) (i : Nat) : Byte := if h : i < 16 then b[i] else 0#8

/-- `hdr_word(B, k)` (R132). -/
def hdrWordOf (b : Vector Byte 16) (k : Nat) : Word :=
  (widthAt b (4 * k)).setWidth 32 <<< 24 ||| (widthAt b (4 * k + 1)).setWidth 32 <<< 16
    ||| (widthAt b (4 * k + 2)).setWidth 32 <<< 8 ||| (widthAt b (4 * k + 3)).setWidth 32

/-- One component of `hdr_fields(w)` (R134): `(w >> n) & 0xFF` as 8 bits. -/
def hdrField (w : Word) (n : Nat) : Byte := ((w >>> n) &&& 0xFF#32).setWidth 8

/-- `B[4k], B[4k+1], B[4k+2], B[4k+3] <- (a, b, c, d)` (R134). -/
def setFields (v : Vector Byte 16) (k : Nat) (a b c d : Byte) : Vector Byte 16 :=
  (((v.setIfInBounds (4 * k) a).setIfInBounds (4 * k + 1) b).setIfInBounds (4 * k + 2) c).setIfInBounds (4 * k + 3) d

/-- `width_ok(B, cnt)` (R136): every present width is at most 32; entries at and past `cnt` are not examined. -/
def widthOk (b : Vector Byte 16) (cnt : Nat) : Bool :=
  (List.range 16).all fun i => decide (i < cnt → (widthAt b i).toNat ≤ Config.maxWidth)

/-- `L` is not a positive multiple of 128 (R182). -/
def badLength (l : Nat) : Bool := l == 0 || l % Config.miniblockWords != 0

/-- `⌈L/2048⌉`, the number of block frames (R92). -/
def frames (l : Nat) : Nat := (l + (Config.blockWords - 1)) / Config.blockWords

/-- `minsize(L)` (R194). -/
def minsize (l : Nat) : Nat := 4 + 4 * frames l

/-- `maxsize(L)` (R194). -/
def maxsize (l : Nat) : Nat := 4 + 4 * frames l + l

/-- The regions `[a, a + n)` and `[b, b + m)` have a word in common (R301 P4). -/
def overlaps (a n b m : Nat) : Bool := decide (n ≠ 0 ∧ m ≠ 0 ∧ a < b + m ∧ b < a + n)

/-- Every word of `[a, a + n)` lies in one of the regions (R66). -/
def covered (rs : List Region) (a n : Nat) : Bool :=
  (List.range n).all fun j => rs.any fun r => decide (r.base ≤ a + j ∧ a + j < r.base + r.size)

/-- Bit `p` of the values `v` written one after the other, `b` bits each. -/
def bitOf (b : Nat) (v : List Word) (p : Nat) : Bool := (v.getD (p / b) 0#32).getLsbD (p % b)

/-- The `128·b` bits of 128 values of `b` bits, cut into `4·b` words. -/
def regroup (b : Nat) (v : List Word) : Vector Word (4 * b) :=
  Vector.ofFn fun j : Fin (4 * b) => BitVec.ofFnLE fun t : Fin 32 => bitOf b v (32 * j.val + t.val)

/-- The `128·b` bits of `4·b` words, cut into 128 values of `b` bits, each widened with zero bits (R152). -/
def ungroup (b : Nat) (ws : Vector Word (4 * b)) : List Word :=
  (List.range 128).map fun k =>
    BitVec.ofFnLE fun t : Fin 32 => decide (t.val < b) && bitOf 32 ws.toList (b * k + t.val)

/-- Every value is below `2^b` (R156, R157). -/
def fitsWidth (b : Nat) (v : List Word) : Bool := v.all fun w => decide (w.toNat < 2 ^ b)

/-- `K.pack(v, b)` for 128 values `v` and a width `b` of 0 to 32 (R150, R151): no words at width 0 (R154), the values
themselves at width 32 (R155), any contract-keeping arrangement of the bits between (R153, R156; log 11), and a free value where a
value does not fit (R157; log 12). -/
def kernelPack (b : Nat) (v : List Word) : List Word :=
  if b = 0 then []
  else if b = 32 then v
  else if fitsWidth b v then (Config.payloadPerm b (regroup b v)).toList
  else (Config.packOverflow b v).toList

/-- `K.unpack(ws, b)` for `4·b` words `ws` and a width `b` of 0 to 32 (R150, R152): 128 zeros at width 0 (R154), the words
themselves at width 32 (R155), the inverse of `K.pack` between (R156; log 11). -/
def kernelUnpack (b : Nat) (ws : List Word) : List Word :=
  if b = 0 then List.replicate 128 0#32
  else if b = 32 then ws
  else ungroup b ((Config.payloadPerm b).symm (Vector.ofFn fun j : Fin (4 * b) => ws.getD j.val 0#32))

end Sys2Proof.Machine
end

