-- ==== Sys2Proof/Machine/Ops.lean ====
section
/-! DEFINITION. The named operations over memory and registers that the meanings share: memory reads and writes, the advance of a
cursor, the raise of an error and the start of a command that leaves it (spec R266, R268), the guards, the capacity
test, the regions of a command, block selection, the start of a command with its preconditions, and the bodies of the padding,
header and scheduler steps. -/

namespace Sys2Proof.Machine

/-- Run `k` on the next state, if there is one. -/
def andThen (o : Out) (k : State → Out) : Out :=
  match o with
  | .next s => k s
  | .fault f => .fault f
  | .refused r => .refused r

/-! ### Memory -/

/-- The canonical form of memory: byte addresses strictly rising and inside the space, and no listed byte is 0, which is what an
unlisted byte reads as (log 2). -/
abbrev Memory.wf (m : List Host.Cell) : Prop :=
  m.Pairwise (fun c d => c.1 < d.1) ∧ ∀ c ∈ m, c.2 ≠ 0#8 ∧ c.1 < 4 * Config.memWords

/-- The byte at a byte address; an unlisted one is 0 (log 2). -/
def Memory.readByte : List Host.Cell → Nat → Byte
  | [], _ => 0#8
  | (k, b) :: m, a => if k = a then b else Memory.readByte m a

/-- The cells that hold the bytes from `a` upward, zero bytes left out. -/
def Memory.cellsFrom : Nat → List Byte → List Host.Cell
  | _, [] => []
  | a, b :: bs => if b = 0#8 then Memory.cellsFrom (a + 1) bs else (a, b) :: Memory.cellsFrom (a + 1) bs

/-- Memory with the bytes from `a` upward replaced. -/
def Memory.storeBytes (m : List Host.Cell) (a : Nat) (bs : List Byte) : List Host.Cell :=
  m.filter (fun c => decide (c.1 < a)) ++ (Memory.cellsFrom a bs ++ m.filter (fun c => decide (a + bs.length ≤ c.1)))

/-- The word at a word address: the bytes at four times the address (R65, log 1). -/
def Memory.readWord (m : List Host.Cell) (a : Nat) : Word :=
  bytesWord (Memory.readByte m (4 * a)) (Memory.readByte m (4 * a + 1)) (Memory.readByte m (4 * a + 2)) (Memory.readByte m (4 * a + 3))

/-- The `n` words from `a` upward (R14 `MemRead`). -/
def Memory.readWords (m : List Host.Cell) (a n : Nat) : List Word := (List.range n).map fun j => Memory.readWord m (a + j)

/-- The words written from `a` upward, lowest address first (R14 `MemWrite`). -/
def Memory.storeWords (m : List Host.Cell) (a : Nat) (ws : List Word) : List Host.Cell :=
  Memory.storeBytes m (4 * a) (ws.flatMap wordBytes)

/-- `MemRead(a, n)` by the engine: refused past the top of the space (P5), stuck outside the allocation (R66). -/
def readMem (s : State) (a n : Nat) (k : List Word → Out) : Out :=
  if Config.memWords < a + n then .refused .addressWrap
  else if covered s.readable a n then k (Memory.readWords s.mem a n)
  else .fault .stuckRead

/-- `MemWrite(a, n, vs)` by the engine: refused past the top of the space (P5), stuck outside the allocation (R66). -/
def writeMem (s : State) (a : Nat) (ws : List Word) : Out :=
  if Config.memWords < a + ws.length then .refused .addressWrap
  else if covered s.writable a ws.length then .next { s with mem := Memory.storeWords s.mem a ws }
  else .fault .stuckWrite

/-! ### The stream a `DECODE` follows -/

/-- Width `i` of the block frame whose header begins at word `a`: byte `i mod 4` of header word `i / 4`, the first one on top
(R95, R97). -/
def frameWidth (m : List Host.Cell) (a i : Nat) : Nat :=
  (hdrField (Memory.readWord m (a + i / 4)) (24 - 8 * (i % 4))).toNat

/-- The widths of a frame with `n` miniblocks left to come, of which it takes at most sixteen (R97, R98). -/
def frameWidths (m : List Host.Cell) (a n : Nat) : List Nat :=
  (List.range (min Config.blockMiniblocks n)).map (frameWidth m a)

/-- The first word after `f` block frames from word `a` on, with `n` miniblocks left (R92, R223). A frame with a present width above
32 is followed no further than its header (R217). -/
def framesEnd (m : List Host.Cell) : Nat → Nat → Nat → Nat
  | 0, _, a => a
  | f + 1, n, a =>
    if (frameWidths m a n).all (fun b => decide (b ≤ Config.maxWidth)) then
      framesEnd m f (n - Config.blockMiniblocks) (a + Config.headerWords + 4 * (frameWidths m a n).sum)
    else a + Config.headerWords

/-- `S`, the words of the stream at the aligned address `a` whose prefix is `l` (R66, R92, R193): the prefix, three padding words and
the frames. A corrupt stream ends with the last word the decoder reads of it; a prefix that is no multiple of 128 begins no stream,
and only that word is read (R212; log 8). -/
def streamWords (m : List Host.Cell) (a l : Nat) : Nat :=
  if l % Config.miniblockWords ≠ 0 then 1
  else if Memory.readWord m (a + 1) ≠ Config.cookie then 2
  else if Memory.readWord m (a + 2) ≠ Config.cookie then 3
  else if Memory.readWord m (a + 3) ≠ Config.cookie then 4
  else framesEnd m (frames l) (l / Config.miniblockWords) (a + 4) - a

/-! ### Cursors -/

/-- `IN_CUR <- IN_CUR + n` on naturals (R13); refused past the top of the space (P5). -/
def advanceIn (s : State) (n : Nat) : Out :=
  if Config.memWords < s.inCur.toNat + n then .refused .addressWrap
  else .next { s with inCur := BitVec.ofNat 33 (s.inCur.toNat + n) }

/-- `OUT_CUR <- OUT_CUR + n` on naturals (R13); refused past the top of the space (P5). -/
def advanceOut (s : State) (n : Nat) : Out :=
  if Config.memWords < s.outCur.toNat + n then .refused .addressWrap
  else .next { s with outCur := BitVec.ofNat 33 (s.outCur.toNat + n) }

/-- `used` and `written` of R37: the output words so far, on naturals (log 21). -/
def outUsed (s : State) : Nat := s.outCur.toNat - s.outBase.toNat

/-- `rem` of R37: the input words remaining, on naturals (log 21). -/
def inRemaining (s : State) : Nat := s.inBase.toNat + s.len.toNat - s.inCur.toNat

/-- `cap_ok(n)` (R191). -/
def capOk (s : State) (n : Nat) : Bool := decide (outUsed s + n ≤ s.outCap.toNat)

/-! ### Taking an error, and leaving it -/

/-- `raise <Kind>` (R266): `ERR` and `fsm_state` are written and nothing else. -/
def raise (k : ErrKind) (s : State) : State := { s with err := k, fsm := .error }

/-- What the start of every command writes (R181, R211): the cursors at the bases, `ERR` cleared, `last_op`, the first state. It is
also the only return from an error besides reset (R268). -/
def startCommand (op : BitVec 1) (first : FsmState) (s : State) : State :=
  { s with
    inCur := s.inBase.setWidth 33
    outCur := s.outBase.setWidth 33
    err := .none
    lastOp := op
    fsm := first }

/-- The transition into `Done` with the result count, stored in a 32-bit word (R25, R12). -/
def finish (n : Nat) (s : State) : State := { s with nvalue := BitVec.ofNat 32 n, fsm := .done }

/-! ### Which micro-operation is enabled -/

/-- The guard of the loop over the miniblocks of a block: true while one is left, false when all are done, none outside the
ranges of R34 and R35. -/
def loopGuard (s : State) : Option Bool :=
  if 16 < s.mbCnt.toNat then none
  else if s.mbIdx.toNat < s.mbCnt.toNat then some true
  else if s.mbIdx = s.mbCnt then some false
  else none

/-- The guard that, with the state, selects the enabled micro-operation (R180, R210, R105); none in a ready state. -/
def uopGuard (s : State) : Option Bool :=
  match s.fsm with
  | .idle => none
  | .done => none
  | .error => none
  | .eCheckingLength => some true
  | .eWritingPrefix => some true
  | .eWritingPadding => some (needsPadAt s.outCur.toNat)
  | .eComputingWidths => if loopGuard s = some true then some true else none
  | .eWritingHeader => if s.hdrIdx.toNat < 4 then some true else none
  | .ePackingPayload => loopGuard s
  | .dReadingPrefix => some true
  | .dSkippingPadding => some (needsPadAt s.inCur.toNat)
  | .dReadingHeader => if s.hdrIdx.toNat < 4 then some true else if s.hdrIdx.toNat = 4 then some false else none
  | .dUnpackingPayload => loopGuard s

/-- The micro-operation of this state and guard is enabled. -/
def enabledAt (st : FsmState) (g : Bool) (s : State) : Bool := decide (s.fsm = st ∧ uopGuard s = some g)

/-- A micro-operation fires only where it is enabled (R180, R210). -/
def fire (st : FsmState) (g : Bool) (s : State) (body : Out) : Out := if enabledAt st g s then body else .refused .notEnabled

/-! ### The start of a command -/

/-- The preconditions of `ENCODE` the hardware does not check, P1, P2, P5 and P4 of R301. A command whose length is bad forms no
address and has no regions (R69, R182; log 7). -/
def encodePrecondition (s : State) : Option Refusal :=
  if needsPadAt s.inBase.toNat then some .inputMisaligned
  else if needsPadAt s.outBase.toNat then some .outputMisaligned
  else if badLength s.inLen.toNat then none
  else if Config.memWords < s.inBase.toNat + s.inLen.toNat
      ∨ Config.memWords < s.outBase.toNat + min s.outCap.toNat (maxsize s.inLen.toNat) then some .addressWrap
  else if overlaps s.inBase.toNat s.inLen.toNat s.outBase.toNat (min s.outCap.toNat (maxsize s.inLen.toNat)) then
    some .regionsOverlap
  else none

/-- The precondition of `DECODE` that is known when it is issued, P1 of R301; P3, P4 and P5 depend on the stream and are judged from
`D_PREFIX` on (log 8). -/
def decodePrecondition (s : State) : Option Refusal := if needsPadAt s.inBase.toNat then some .inputMisaligned else none

/-- An accepted `ENCODE`: refused on a broken precondition, else `E_START` (R240, R181). -/
def startEncode (s : State) : Out :=
  match encodePrecondition s with
  | some r => .refused r
  | none => .next { startCommand 0#1 .eCheckingLength s with len := s.inLen }

/-- An accepted `DECODE`: refused on a broken precondition, else `D_START` (R241, R211). -/
def startDecode (s : State) : Out :=
  match decodePrecondition s with
  | some r => .refused r
  | none => .next (startCommand 1#1 .dReadingPrefix s)

/-! ### Block selection -/

/-- `enc_select` (R186). -/
def encSelect (s : State) : State :=
  if Config.blockWords ≤ inRemaining s then { s with mbCnt := 16#5, mbIdx := 0#5, fsm := .eComputingWidths }
  else if 0 < inRemaining s then
    { s with
      mbCnt := BitVec.ofNat 5 (inRemaining s / Config.miniblockWords)
      widths := Vector.replicate 16 0#8
      mbIdx := 0#5
      fsm := .eComputingWidths }
  else finish (outUsed s) s

/-- `dec_select` (R215). -/
def decSelect (s : State) : State :=
  if outUsed s + Config.blockWords ≤ s.len.toNat then { s with mbCnt := 16#5, hdrIdx := 0#3, fsm := .dReadingHeader }
  else if outUsed s < s.len.toNat then
    { s with
      mbCnt := BitVec.ofNat 5 ((s.len.toNat - outUsed s) / Config.miniblockWords)
      hdrIdx := 0#3
      fsm := .dReadingHeader }
  else finish s.len.toNat s

/-! ### Words of the stream: emitted by the encoder, consumed by the decoder -/

/-- The encoder writes one stream word at `OUT_CUR` and advances (R183, R122, R188). -/
def emitWord (s : State) (w : Word) : Out := andThen (writeMem s s.outCur.toNat [w]) fun s => advanceOut s 1

/-- The capacity test in front of a write (R191): `BufferTooSmall` is raised with nothing written. -/
def withCapacity (s : State) (n : Nat) (body : Out) : Out := if capOk s n then body else .next (raise .bufferTooSmall s)

/-- The encoder writes the length word and goes on to the padding (R183). -/
def emitLen (s : State) (l : Word) : Out :=
  withCapacity s 1 (andThen (emitWord s l) fun s => .next { s with fsm := .eWritingPadding })

/-- The encoder writes one padding word under the capacity test (R184). -/
def emitPad (s : State) : Out := withCapacity s 1 (emitWord s Config.cookie)

/-- The end of a header word of the encoder: the next index, and after the fourth word the packing state (R188). -/
def nextHeader (s : State) : State :=
  if s.hdrIdx.toNat + 1 = Config.headerWords then { s with hdrIdx := s.hdrIdx + 1#3, mbIdx := 0#5, fsm := .ePackingPayload }
  else { s with hdrIdx := s.hdrIdx + 1#3 }

/-- The encoder writes one header word under the capacity test (R188). -/
def emitHdr (s : State) (w : Word) : Out :=
  withCapacity s 1 (andThen (emitWord s w) fun s => .next (nextHeader s))

/-- The regions of the running `DECODE` meet: `[IN_BASE, IN_BASE + S)` and `[OUT_BASE, OUT_BASE + len)` (P4 of R301, R66). The
output region counts whatever the capacity, as R292 has it (log 8). -/
def decodeRegionsMeet (s : State) : Bool :=
  overlaps s.inBase.toNat (streamWords s.mem s.inBase.toNat s.len.toNat) s.outBase.toNat s.len.toNat

/-- What the decoder does with the length word once `len` and `IN_CUR` are written: P4, whose regions are known now, before the
errors (R292), the checks of R212 in their order, P3 and P5 after both errors (R212; log 8). -/
def checkLen (s : State) : Out :=
  if decodeRegionsMeet s then .refused .regionsOverlap
  else if needsPadAt s.outCur.toNat then .next (raise .badOutputAlignment s)
  else if s.outCap.toNat < s.len.toNat then .next (raise .bufferTooSmall s)
  else if s.len.toNat % Config.miniblockWords ≠ 0 then .refused .prefixNotMultiple
  else if Config.memWords < s.outBase.toNat + s.len.toNat then .refused .addressWrap
  else .next { s with fsm := .dSkippingPadding }

/-- The decoder consumes the length word `l` (R212). -/
def consumeLen (s : State) (l : Word) : Out := andThen (advanceIn { s with len := l } 1) checkLen

/-- The decoder consumes the word `w` at a padding position (R123): the cursor moves first. -/
def consumePad (s : State) (w : Word) : Out :=
  andThen (advanceIn s 1) fun s => .next (if w = Config.cookie then s else raise .streamCorrupt s)

/-- The decoder consumes a header word with the fields `a b c d` (R216). -/
def consumeHdr (s : State) (a b c d : Byte) : Out :=
  andThen (advanceIn s 1) fun s =>
    .next { s with widths := setFields s.widths s.hdrIdx.toNat a b c d, hdrIdx := s.hdrIdx + 1#3 }

/-- `PAD_EMIT` without its guard (R122). -/
def padEmitBody (s : State) : Out := emitWord s Config.cookie

/-- `PAD_SKIP` without its guard (R123). -/
def padSkipBody (s : State) : Out := readMem s s.inCur.toNat 1 fun ws => consumePad s (ws.getD 0 0#32)

/-! ### Kernel dispatches and the scheduler's steps -/

/-- `PACK` (R151). At width 0 nothing is read and nothing written (log 23). A width above 32, a misaligned address and
overlapping operands have no meaning in the spec (R160, R64, U4; log 13). -/
def dispatchPack (s : State) (src dst b : Nat) : Out :=
  if Config.maxWidth < b then .refused .dispatchWidth
  else if b = 0 then .next s
  else if needsPadAt src || needsPadAt dst then .refused .misalignedDispatch
  else if overlaps src 128 dst (4 * b) then .refused .regionsOverlap
  else readMem s src 128 fun v => writeMem s dst (kernelPack b v)

/-- `UNPACK` (R152). At width 0 nothing is read and 128 zeros are written. The same widths, addresses and overlaps are refused as
by `PACK`. -/
def dispatchUnpack (s : State) (src dst b : Nat) : Out :=
  if Config.maxWidth < b then .refused .dispatchWidth
  else if (b != 0 && needsPadAt src) || needsPadAt dst then .refused .misalignedDispatch
  else if overlaps src (4 * b) dst 128 then .refused .regionsOverlap
  else readMem s src (4 * b) fun ws => writeMem s dst (kernelUnpack b ws)

/-- The width of the next miniblock, `B[mb_idx]`. -/
def nextWidth (s : State) : Nat := (widthAt s.widths s.mbIdx.toNat).toNat

/-- `blk_in(mb_idx)` of R37. -/
def blkIn (s : State) : Nat := s.inCur.toNat + 128 * s.mbIdx.toNat

/-- `blk_out(mb_idx)` of R37. -/
def blkOut (s : State) : Nat := s.outCur.toNat + 128 * s.mbIdx.toNat

/-- `mb_idx <- mb_idx + 1`. -/
def nextMiniblock (s : State) : State := { s with mbIdx := s.mbIdx + 1#5 }

/-- `SCHED_PACK` without its guard (R161). -/
def schedPackBody (s : State) : Out :=
  andThen (dispatchPack s (blkIn s) s.outCur.toNat (nextWidth s)) fun t =>
    andThen (advanceOut t (4 * nextWidth s)) fun t => .next (nextMiniblock t)

/-- `SCHED_UNPACK` without its guard (R162). -/
def schedUnpackBody (s : State) : Out :=
  andThen (dispatchUnpack s s.inCur.toNat (blkOut s) (nextWidth s)) fun t =>
    andThen (advanceIn t (4 * nextWidth s)) fun t => .next (nextMiniblock t)

/-- `SCHED_END_ENC` without its guard (R163). -/
def schedEndEncBody (s : State) : Out := advanceIn s (128 * s.mbCnt.toNat)

/-- `SCHED_END_DEC` without its guard (R164). -/
def schedEndDecBody (s : State) : Out := advanceOut s (128 * s.mbCnt.toNat)

/-- After `D_HDR_CHECK`'s test (R217) the block is unpacked, or the stream is corrupt. -/
def checkWidths (s : State) : State :=
  if widthOk s.widths s.mbCnt.toNat then { s with mbIdx := 0#5, fsm := .dUnpackingPayload }
  else raise .streamCorrupt s

end Sys2Proof.Machine
end

