-- ==== Sys2Proof/Machine/Align.lean ====
section
/-! DEFINITION. The alignment_checker family (spec file 40): `NEEDS_PAD`, `PAD_EMIT`, `PAD_SKIP`. -/

namespace Sys2Proof.Machine

/-- `NEEDS_PAD` (R120): the answer stands on the function's output, no register changes (log 15). -/
def execNeedsPad (a : Word) (s : State) : Out := .next { s with funcOut := .bit (needsPadAt a.toNat) }

/-- `PAD_EMIT` (R122): one padding word at `OUT_CUR`, in `E_WritingPadding` while the cursor needs padding. No capacity test
of its own. -/
def execPadEmit (s : State) : Out := fire .eWritingPadding true s (padEmitBody s)

/-- `PAD_SKIP` (R123): one word at `IN_CUR` read and compared with the sentinel, in `D_SkippingPadding` while the cursor needs
padding. -/
def execPadSkip (s : State) : Out := fire .dSkippingPadding true s (padSkipBody s)

end Sys2Proof.Machine
end

