-- ==== Sys2Proof/Machine/Commands.lean ====
section
/-! DEFINITION. The host commands (spec file 45): `ENCODE`, `DECODE`. -/

namespace Sys2Proof.Machine

/-- `ENCODE` (R240): in a ready state `E_START`, on the conditions of R301; while busy the write is ignored (R242). -/
def execEncode (s : State) : Out := if fsmReady s.fsm then startEncode s else .next s

/-- `DECODE` (R241): in a ready state `D_START`, on the conditions of R301; while busy the write is ignored (R242). -/
def execDecode (s : State) : Out := if fsmReady s.fsm then startDecode s else .next s

end Sys2Proof.Machine
end

