-- ==== Sys2Proof/Machine/Decoder.lean ====
section
/-! DEFINITION. The micro-operations of the decoder FSM (spec file 44). -/

namespace Sys2Proof.Machine

/-- `D_START` (R211): fires when a written `CMD = 2` is accepted, so in a ready state only (R241), and not on a broken
precondition (R301; logs 6, 8). -/
def execDStart (s : State) : Out := if fsmReady s.fsm then startDecode s else .refused .notEnabled

/-- `D_PREFIX` (R212): the word at `IN_CUR` is the length word; the checks follow the read. -/
def execDPrefix (s : State) : Out :=
  fire .dReadingPrefix true s (readMem s s.inCur.toNat 1 fun ws => consumeLen s (ws.getD 0 0#32))

/-- `D_PAD` (R213): `PAD_SKIP`. -/
def execDPad (s : State) : Out := fire .dSkippingPadding true s (padSkipBody s)

/-- `D_PAD_DONE` (R214): `dec_select`. -/
def execDPadDone (s : State) : Out := fire .dSkippingPadding false s (.next (decSelect s))

/-- `D_HDR` (R216). -/
def execDHdr (s : State) : Out :=
  fire .dReadingHeader true s
    (readMem s s.inCur.toNat 1 fun ws =>
      consumeHdr s (hdrField (ws.getD 0 0#32) 24) (hdrField (ws.getD 0 0#32) 16) (hdrField (ws.getD 0 0#32) 8)
        (hdrField (ws.getD 0 0#32) 0))

/-- `D_HDR_CHECK` (R217). -/
def execDHdrCheck (s : State) : Out := fire .dReadingHeader false s (.next (checkWidths s))

/-- `D_UNPACK` (R218): `SCHED_UNPACK`. -/
def execDUnpack (s : State) : Out := fire .dUnpackingPayload true s (schedUnpackBody s)

/-- `D_BLOCK_END` (R219): `SCHED_END_DEC`, then `dec_select` after a full block and `Done` after a partial one. -/
def execDBlockEnd (s : State) : Out :=
  fire .dUnpackingPayload false s
    (andThen (schedEndDecBody s) fun t => .next (if t.mbCnt = 16#5 then decSelect t else finish t.len.toNat t))

end Sys2Proof.Machine
end

