-- ==== Sys2Proof/Machine/Encoder.lean ====
section
/-! DEFINITION. The micro-operations of the encoder FSM (spec file 43). -/

namespace Sys2Proof.Machine

/-- `E_START` (R181): fires when a written `CMD = 1` is accepted, so in a ready state only (R240), and not on a broken
precondition (R301; logs 6, 7). -/
def execEStart (s : State) : Out := if fsmReady s.fsm then startEncode s else .refused .notEnabled

/-- `E_CHECKLEN` (R182). -/
def execECheckLen (s : State) : Out :=
  fire .eCheckingLength true s
    (.next (if badLength s.len.toNat then raise .invalidLength s else { s with fsm := .eWritingPrefix }))

/-- `E_PREFIX` (R183). -/
def execEPrefix (s : State) : Out := fire .eWritingPrefix true s (emitLen s s.len)

/-- `E_PAD` (R184): the capacity test, then `PAD_EMIT`. -/
def execEPad (s : State) : Out := fire .eWritingPadding true s (withCapacity s 1 (padEmitBody s))

/-- `E_PAD_DONE` (R185): `enc_select`. -/
def execEPadDone (s : State) : Out := fire .eWritingPadding false s (.next (encSelect s))

/-- The end of one width computation: the next miniblock, and after the last one the header (R187). -/
def nextWidthState (s : State) : State :=
  if s.mbIdx.toNat + 1 = s.mbCnt.toNat then { s with mbIdx := s.mbIdx + 1#5, hdrIdx := 0#3, fsm := .eWritingHeader }
  else { s with mbIdx := s.mbIdx + 1#5 }

/-- `E_WIDTH` (R187). -/
def execEWidth (s : State) : Out :=
  fire .eComputingWidths true s
    (readMem s (blkIn s) 128 fun v =>
      .next (nextWidthState { s with widths := s.widths.setIfInBounds s.mbIdx.toNat (BitVec.ofNat 8 (maxbitsOf v)) }))

/-- `E_HDR` (R188). -/
def execEHdr (s : State) : Out := fire .eWritingHeader true s (emitHdr s (hdrWordOf s.widths s.hdrIdx.toNat))

/-- `E_PACK` (R189): the capacity test for the whole payload of the miniblock, then `SCHED_PACK`. -/
def execEPack (s : State) : Out :=
  fire .ePackingPayload true s (withCapacity s (4 * nextWidth s) (schedPackBody s))

/-- `E_BLOCK_END` (R190): `SCHED_END_ENC`, then `enc_select` after a full block and `Done` after a partial one. -/
def execEBlockEnd (s : State) : Out :=
  fire .ePackingPayload false s
    (andThen (schedEndEncBody s) fun t => .next (if t.mbCnt = 16#5 then encSelect t else finish (outUsed t) t))

end Sys2Proof.Machine
end

