-- ==== Sys2Proof/Machine/Header.lean ====
section
/-! DEFINITION. The width_header family (spec file 41): `MAXBITS`, `HDR_PACK`, `HDR_UNPACK`, `WIDTH_CHECK`. These are wiring
used by the micro-operations; executed as instructions their results stand in `funcOut` (log 15). -/

namespace Sys2Proof.Machine

/-- `MAXBITS` (R130). -/
def execMaxbits (v : Vector Word 128) (s : State) : Out := .next { s with funcOut := .width (maxbitsOf v.toList) }

/-- `HDR_PACK` (R132), on the width vector the state holds. -/
def execHdrPack (k : Fin 4) (s : State) : Out := .next { s with funcOut := .word (hdrWordOf s.widths k.val) }

/-- `HDR_UNPACK` (R134): the four fields of `w`, and `B[4k..4k+3] <- hdr_fields(w)`. -/
def execHdrUnpack (k : Fin 4) (w : Word) (s : State) : Out :=
  .next { s with
    widths := setFields s.widths k.val (hdrField w 24) (hdrField w 16) (hdrField w 8) (hdrField w 0)
    funcOut := .fields (hdrField w 24) (hdrField w 16) (hdrField w 8) (hdrField w 0) }

/-- `WIDTH_CHECK` (R136): `width_ok(B, mb_cnt)`, and `StreamCorrupt` is raised if it is false. -/
def execWidthCheck (s : State) : Out :=
  if widthOk s.widths s.mbCnt.toNat then .next { s with funcOut := .bit true }
  else .next (raise .streamCorrupt { s with funcOut := .bit false })

end Sys2Proof.Machine
end

