-- ==== Sys2Proof/Machine/Scheduler.lean ====
section
/-! DEFINITION. The miniblock_scheduler family and the kernel dispatches (spec file 42): `PACK`, `UNPACK`, `SCHED_PACK`,
`SCHED_UNPACK`, `SCHED_END_ENC`, `SCHED_END_DEC`. -/

namespace Sys2Proof.Machine

/-- `PACK` with its three operands (R151, R103). -/
def execPack (bits : BitVec 6) (src dst : Word) (s : State) : Out := dispatchPack s src.toNat dst.toNat bits.toNat

/-- `UNPACK` with its three operands (R152, R103). -/
def execUnpack (bits : BitVec 6) (src dst : Word) (s : State) : Out := dispatchUnpack s src.toNat dst.toNat bits.toNat

/-- `SCHED_PACK` (R161): in `E_PackingPayload` while `mb_idx < mb_cnt`. No capacity test of its own. -/
def execSchedPack (s : State) : Out := fire .ePackingPayload true s (schedPackBody s)

/-- `SCHED_UNPACK` (R162): in `D_UnpackingPayload` while `mb_idx < mb_cnt`. -/
def execSchedUnpack (s : State) : Out := fire .dUnpackingPayload true s (schedUnpackBody s)

/-- `SCHED_END_ENC` (R163): in `E_PackingPayload` when `mb_idx = mb_cnt`; `IN_CUR <- IN_CUR + 128·mb_cnt` and nothing else. -/
def execSchedEndEnc (s : State) : Out := fire .ePackingPayload false s (schedEndEncBody s)

/-- `SCHED_END_DEC` (R164): in `D_UnpackingPayload` when `mb_idx = mb_cnt`; `OUT_CUR <- OUT_CUR + 128·mb_cnt` and nothing else. -/
def execSchedEndDec (s : State) : Out := fire .dUnpackingPayload false s (schedEndDecBody s)

end Sys2Proof.Machine
end

