-- ==== Sys2Proof/Machine/Stream.lean ====
section
/-! DEFINITION. The four stream word formats (spec file 30): what the engine does with a word of that format at its position. The
position is the state of the FSM (R92): in the encoder the word is emitted at `OUT_CUR`, in the decoder it is the word taken
from `IN_CUR` (log 16). -/

namespace Sys2Proof.Machine

/-- `LEN` (R93): the encoder emits the length of the running command (R183), the decoder takes the length (R212). -/
def execLen (l : Word) (s : State) : Out :=
  if enabledAt .dReadingPrefix true s then consumeLen s l
  else if enabledAt .eWritingPrefix true s ∧ l = s.len then emitLen s l
  else .refused .notAtPosition

/-- `PAD` (R94): the encoder emits the sentinel (R184), the decoder accepts it (R213). -/
def execPad (s : State) : Out :=
  if enabledAt .dSkippingPadding true s then consumePad s Config.cookie
  else if enabledAt .eWritingPadding true s then emitPad s
  else .refused .notAtPosition

/-- `HDR` (R95): the encoder emits header word `hdr_idx` (R188), the decoder stores its four fields as they are (R216). -/
def execHdr (a b c d : Byte) (s : State) : Out :=
  if enabledAt .dReadingHeader true s then consumeHdr s a b c d
  else if enabledAt .eWritingHeader true s ∧ a ++ b ++ c ++ d = hdrWordOf s.widths s.hdrIdx.toNat then
    emitHdr s (a ++ b ++ c ++ d)
  else .refused .notAtPosition

/-- `PAYLOAD` (R96): "the engine never reads or writes a payload word itself, only the kernel unit does", and it is never illegal
(R101 item 5), so the word by itself changes nothing; it is moved inside the `PACK` or `UNPACK` dispatch of its miniblock. -/
def execPayload (_data : Word) (s : State) : Out := .next s

end Sys2Proof.Machine
end

