-- ==== Sys2Proof/Machine/Dispatch.lean ====
section
/-! DEFINITION. The dispatch: one arm per operation, each one direct call of its meaning. -/

namespace Sys2Proof.Machine

-- The meaning of every operation of the opcode table (spec R4).
def exec (i : Instr) (s : State) : Host.Outcome State Fault Refusal :=
  match i with
  | .encode => Sys2Proof.Machine.execEncode s
  | .decode => Sys2Proof.Machine.execDecode s
  | .needsPad a => Sys2Proof.Machine.execNeedsPad a s
  | .maxbits v => Sys2Proof.Machine.execMaxbits v s
  | .hdrPack k => Sys2Proof.Machine.execHdrPack k s
  | .hdrUnpack k w => Sys2Proof.Machine.execHdrUnpack k w s
  | .widthCheck => Sys2Proof.Machine.execWidthCheck s
  | .padEmit => Sys2Proof.Machine.execPadEmit s
  | .padSkip => Sys2Proof.Machine.execPadSkip s
  | .pack bits src dst => Sys2Proof.Machine.execPack bits src dst s
  | .unpack bits src dst => Sys2Proof.Machine.execUnpack bits src dst s
  | .schedPack => Sys2Proof.Machine.execSchedPack s
  | .schedUnpack => Sys2Proof.Machine.execSchedUnpack s
  | .schedEndEnc => Sys2Proof.Machine.execSchedEndEnc s
  | .schedEndDec => Sys2Proof.Machine.execSchedEndDec s
  | .eStart => Sys2Proof.Machine.execEStart s
  | .eCheckLen => Sys2Proof.Machine.execECheckLen s
  | .ePrefix => Sys2Proof.Machine.execEPrefix s
  | .ePad => Sys2Proof.Machine.execEPad s
  | .ePadDone => Sys2Proof.Machine.execEPadDone s
  | .eWidth => Sys2Proof.Machine.execEWidth s
  | .eHdr => Sys2Proof.Machine.execEHdr s
  | .ePack => Sys2Proof.Machine.execEPack s
  | .eBlockEnd => Sys2Proof.Machine.execEBlockEnd s
  | .dStart => Sys2Proof.Machine.execDStart s
  | .dPrefix => Sys2Proof.Machine.execDPrefix s
  | .dPad => Sys2Proof.Machine.execDPad s
  | .dPadDone => Sys2Proof.Machine.execDPadDone s
  | .dHdr => Sys2Proof.Machine.execDHdr s
  | .dHdrCheck => Sys2Proof.Machine.execDHdrCheck s
  | .dUnpack => Sys2Proof.Machine.execDUnpack s
  | .dBlockEnd => Sys2Proof.Machine.execDBlockEnd s
  | .len l => Sys2Proof.Machine.execLen l s
  | .pad => Sys2Proof.Machine.execPad s
  | .hdr a b c d => Sys2Proof.Machine.execHdr a b c d s
  | .payload data => Sys2Proof.Machine.execPayload data s

end Sys2Proof.Machine
end

