-- ==== Sys2Proof/Machine/HostScript.lean ====
section
/-! DEFINITION. The host agent: reads and writes of the register window (spec R21, R242 to R244), the statements of a host
script (R106, R107), and reset (R290, R291). -/

namespace Sys2Proof.Machine

/-- The value of a cursor register as the host reads it: a free value if the 32-bit register cannot hold the cursor (log 10). -/
def cursorWord (c : Cursor) : Word := if c.toNat < Config.memWords then c.setWidth 32 else Config.cursorPastTop c

/-- A host read of register `r`, without side effect (R21, R244); `CMD` and the reserved numbers read 0. -/
def readReg (s : State) (r : Nat) : Word :=
  match r with
  | 1 => s.inBase
  | 2 => s.inLen
  | 3 => s.outBase
  | 4 => s.outCap
  | 5 => statusWord s
  | 6 => errWord s
  | 7 => s.nvalue
  | 8 => cursorWord s.inCur
  | 9 => cursorWord s.outCur
  | _ => 0#32

/-- A host write of an argument register, ignored while busy (R242); writes of the read-only registers and of the reserved numbers
are ignored (R21). -/
def writeArg (s : State) (r : Nat) (v : Word) : State :=
  if busy s then s
  else
    match r with
    | 1 => { s with inBase := v }
    | 2 => { s with inLen := v }
    | 3 => { s with outBase := v }
    | 4 => { s with outCap := v }
    | _ => s

/-- A host write to `CMD` (R22): the command it decodes to is executed, a reserved value is ignored (R243). -/
def writeCmd (s : State) (v : Word) : Out :=
  match decode .command v with
  | .ok i => exec i s
  | .error _ => .next s

/-- A host write of register `r` (R21). -/
def writeReg (s : State) (r : Nat) (v : Word) : Out :=
  match r with
  | 0 => writeCmd s v
  | r + 1 => .next (writeArg s (r + 1) v)

/-- The command running is an `ENCODE` (the encoder's states of R30). -/
def encoding (s : State) : Bool :=
  decide (s.fsm = .eCheckingLength ∨ s.fsm = .eWritingPrefix ∨ s.fsm = .eWritingPadding ∨ s.fsm = .eComputingWidths
    ∨ s.fsm = .eWritingHeader ∨ s.fsm = .ePackingPayload)

/-- The prefix of the running `DECODE`: `len`, or the word it is about to read (log 9). -/
def decodeLength (s : State) : Nat :=
  if s.fsm = .dReadingPrefix then (Memory.readWord s.mem s.inBase.toNat).toNat else s.len.toNat

/-- The words of the running `DECODE`'s output buffer: `L` if `L ≤ OUT_CAP`, and none if the command will end in `BufferTooSmall`
(R66). -/
def decodeOutputWords (s : State) : Nat := if decodeLength s ≤ s.outCap.toNat then decodeLength s else 0

/-- `[a, a + n)` has a word in a buffer of the running command, the regions of R66 (P6 of R301; log 9). -/
def touchesRunning (s : State) (a n : Nat) : Bool :=
  if encoding s then
    !badLength s.len.toNat &&
      (overlaps a n s.inBase.toNat s.len.toNat
        || overlaps a n s.outBase.toNat (min s.outCap.toNat (maxsize s.len.toNat)))
  else
    overlaps a n s.inBase.toNat (streamWords s.mem s.inBase.toNat (decodeLength s))
      || overlaps a n s.outBase.toNat (decodeOutputWords s)

/-- The host writes words to memory: a word past the top does not exist, and a write into a buffer of the running command is what U4
has the model refuse (R303, P6). -/
def hostWriteMem (s : State) (a : Nat) (ws : List Word) : Out :=
  if Config.memWords < a + ws.length then .fault .noSuchAddress
  else if busy s && touchesRunning s a ws.length then .refused .bufferWritten
  else .next { s with mem := Memory.storeWords s.mem a ws }

/-- Reset (R290, R291): the engine's registers at their reset values; memory, the allocation and the host keep theirs. -/
def resetEngine (s : State) : State :=
  { State.reset with
    mem := s.mem
    readable := s.readable
    writable := s.writable
    host := s.host
    turns := s.turns
    rdata := s.rdata
    mismatches := s.mismatches }

/-- A check of the host script (R106): no action; a failed one is counted (log 17). -/
def expect (s : State) (holds : Bool) : State := { s with mismatches := s.mismatches + (if holds then 0 else 1) }

/-- One host statement (R106, R107), on a state from which the statement has been taken. -/
def hostExec (h : HostStmt) (s : State) : Out :=
  match h with
  | .mem a ws => hostWriteMem s a.toNat ws
  | .fill a n w => hostWriteMem s a.toNat (List.replicate n w)
  | .wr r v => writeReg s r v
  | .rd r => .next { s with rdata := readReg s r }
  | .encodeCmd i l o c => .next { s with host := [.wr 1 i, .wr 2 l, .wr 3 o, .wr 4 c, .wr 0 1#32, .wait] ++ s.host }
  | .decodeCmd i o c => .next { s with host := [.wr 1 i, .wr 3 o, .wr 4 c, .wr 0 2#32, .wait] ++ s.host }
  | .wait => .next { s with rdata := statusWord s, host := if busy s then .wait :: s.host else s.host }
  | .expectReg r v => .next (expect s (readReg s r == v))
  | .expectMem a vs =>
    if Config.memWords < a.toNat + vs.length then .fault .noSuchAddress
    else .next (expect s (Memory.readWords s.mem a.toNat vs.length == vs))
  | .reset => .next (resetEngine s)

/-- The host's step: its first pending statement is taken and executed. -/
def hostStep (s : State) : Out :=
  match s.host with
  | [] => .next s
  | h :: rest => hostExec h { s with host := rest }

end Sys2Proof.Machine
end

