-- ==== Sys2Proof/Machine/Fetch.lean ====
section
/-! DEFINITION. What the machine does next: the enabled micro-operation, read by the decoder from the state code and the guard (spec
R29, R105), the stuck engine (R66), the choice between engine and host (U15, log 17), and the placing of an operation where the next step
runs it (logs 18, 19). -/

namespace Sys2Proof.Machine

/-- The micro-operation the engine fires next, none in a ready state (R180, R210). -/
def fetch (s : State) : Option Instr :=
  match uopGuard s with
  | none => none
  | some g =>
    match decode (.uop g) ((fsmCode s.fsm).setWidth 32) with
    | .ok i => some i
    | .error _ => none

/-- The engine's step: the enabled micro-operation fires. -/
def engineStep (s : State) : Out :=
  match fetch s with
  | some i => exec i s
  | none => .fault .noMicroOperation

/-- The access the operation would make lies outside the allocation (R66). -/
def isStuck : Out → Bool
  | .fault .stuckRead => true
  | .fault .stuckWrite => true
  | _ => false

/-- The engine is stuck: the enabled micro-operation would touch a word outside the allocation, so it "does not happen" (R66, R273). -/
def stuck (s : State) : Bool :=
  match fetch s with
  | some i => isStuck (exec i s)
  | none => false

/-- The turn just used is spent. -/
def popTurn (s : State) : State := { s with turns := s.turns.tail }

/-- Who moves: the host if it is its turn and it has a statement, else the engine if a command runs and is not stuck, else the host
if it has a statement; none if it has none. A stuck engine stays busy and takes no step (R66; log 5). -/
def mover (s : State) : Option Agent :=
  if s.turns.head? == some .host && !s.host.isEmpty then some .host
  else if busy s && !stuck (popTurn s) then some .engine
  else if s.host.isEmpty then none
  else some .host

/-- The state whose code this is, `idle` for a number that codes none. -/
def stateOfCode (w : Word) : FsmState :=
  match w.toNat with
  | 1 => .eCheckingLength
  | 2 => .eWritingPrefix
  | 3 => .eWritingPadding
  | 4 => .eComputingWidths
  | 5 => .eWritingHeader
  | 6 => .ePackingPayload
  | 8 => .dReadingPrefix
  | 9 => .dSkippingPadding
  | 10 => .dReadingHeader
  | 11 => .dUnpackingPayload
  | 14 => .done
  | 15 => .error
  | _ => .idle

/-- A cursor for which `needs_pad` is `g`, the cursor itself where it already is. -/
def padCursor (g : Bool) (c : Cursor) : Cursor :=
  if needsPadAt c.toNat = g then c else if g then c ||| 1#33 else c &&& ~~~3#33

/-- Loop indices for which the guard is `g`, the state's own where it already is. -/
def placeLoop (g : Bool) (s : State) : State :=
  if loopGuard s = some g then s
  else if g then { s with mbIdx := 0#5, mbCnt := 1#5 }
  else { s with mbIdx := 1#5, mbCnt := 1#5 }

/-- The engine in the state `st` with the guard `g` true of it: the registers the guard reads are changed only where it
does not hold. -/
def placeUop (st : FsmState) (g : Bool) (s : State) : State :=
  let s := { s with fsm := st }
  match st with
  | .eWritingPadding => { s with outCur := padCursor g s.outCur }
  | .dSkippingPadding => { s with inCur := padCursor g s.inCur }
  | .eComputingWidths => placeLoop g s
  | .ePackingPayload => placeLoop g s
  | .dUnpackingPayload => placeLoop g s
  | .eWritingHeader => if s.hdrIdx.toNat < 4 then s else { s with hdrIdx := 0#3 }
  | .dReadingHeader =>
    if g then (if s.hdrIdx.toNat < 4 then s else { s with hdrIdx := 0#3 }) else { s with hdrIdx := 4#3 }
  | _ => s

/-- A stream word at `IN_CUR`, the engine in the state that reads it. -/
def placeStream (st : FsmState) (w : Word) (s : State) : State :=
  let s := placeUop st true s
  { s with mem := Memory.storeWords s.mem s.inCur.toNat [w] }

/-- The next turn made the engine's, where it is the host's. -/
def engineTurn (s : State) : State := if s.turns.head? == some .host then { s with turns := .engine :: s.turns } else s

/-- The next turn made the host's, where a running command would move first. -/
def hostTurn (s : State) : State := if busy s then { s with turns := .host :: s.turns } else s

/-- `s` with the operation on this channel placed where the next step runs it: a command as the host's next statement; a
micro-operation, or a step that is its body, as the engine's state and guard; a dispatch as the next miniblock of
the packing or unpacking state; a stream word in memory at `IN_CUR` with the state that reads it (logs 18, 19). -/
def placeChannel (c : Channel) (w : Word) (s : State) : State :=
  match c with
  | .command => hostTurn { s with host := .wr 0 w :: s.host }
  | .start => hostTurn { s with host := .wr 0 w :: s.host }
  | .uop g => placeUop (stateOfCode w) g (engineTurn s)
  | .body g => placeUop (stateOfCode w) g (engineTurn s)
  | .dispatch _ _ =>
    let t := placeUop (if w.getLsbD 6 then .dUnpackingPayload else .ePackingPayload) true (engineTurn s)
    { t with widths := t.widths.setIfInBounds t.mbIdx.toNat ((w.extractLsb' 0 6).setWidth 8) }
  | .stream .lenWord => placeStream .dReadingPrefix w (engineTurn s)
  | .stream .padWord => placeStream .dSkippingPadding w (engineTurn s)
  | .stream .hdrWord => placeStream .dReadingHeader w (engineTurn s)
  | .stream .payloadWord => s

/-- `s` with an operation placed; an operation without an encoding (R105) is not placed anywhere. -/
def placeInstr (i : Instr) (s : State) : State :=
  match encode i with
  | some (c, w) => placeChannel c w s
  | none => s

end Sys2Proof.Machine
end

