-- ==== Sys2Proof/Machine/Step.lean ====
section
/-! DEFINITION. One step of the machine, and the host's placing of an instruction. -/

namespace Sys2Proof.Machine

/-- One step: the agent that moves takes its step and spends its turn. With no host statement pending nothing happens in a ready state,
where the engine has no step of its own (spec R30; log 18), and where the engine is stuck, which stays busy for ever (R66; log 5). -/
def step (s : State) : Host.Outcome State Fault Refusal :=
  match mover s with
  | some .engine => engineStep (popTurn s)
  | some .host => hostStep (popTurn s)
  | none => .next s

/-- `s` with the instruction of an opcode-table word placed where the next step runs it (logs 18, 19); `s` itself where the
decoder reads no instruction. -/
def State.withFetchWord (s : State) (nbits w : Nat) : State :=
  match decodeTableWord nbits w with
  | some i => placeInstr i s
  | none => s

end Sys2Proof.Machine
end

