-- ==== Sys2Proof/Safety.lean ====
section
/-! DEFINITION. The terms the claims are stated in: the invariants of a run (spec R39, R24), the registers an operation may
write, and the region of memory it may store to. -/

namespace Sys2Proof.Safety

open Sys2Proof.Machine

/-! ### Invariants -/

/-- Memory is in its canonical form. -/
def CanonicalMemory (s : State) : Prop := Memory.wf s.mem

/-- `ERR ≠ None` iff `fsm_state = Error` (R24). -/
def ErrorRecorded (s : State) : Prop := s.err ≠ .none ↔ s.fsm = .error

/-- The widths of the first `n` miniblocks are legal (R39 item 6). -/
def WidthsLegal (s : State) (n : Nat) : Prop := ∀ i, i < n → (widthAt s.widths i).toNat ≤ Config.maxWidth

/-- What holds of the bases and cursors in every state of the encoder (R39 items 1 and 2, P1, P2). -/
def EncoderBases (s : State) : Prop :=
  s.inBase.toNat % 4 = 0 ∧ s.outBase.toNat % 4 = 0 ∧ s.inBase.toNat ≤ s.inCur.toNat ∧ s.outBase.toNat ≤ s.outCur.toNat
    ∧ (s.inCur.toNat - s.inBase.toNat) % 128 = 0

/-- What holds of `len` in the encoder after the length check (R39 item 4). -/
def EncoderLength (s : State) : Prop := 0 < s.len.toNat ∧ s.len.toNat % 128 = 0

/-- What holds of the bases and cursors in every state of the decoder (R39 items 1 and 3, P1). -/
def DecoderBases (s : State) : Prop :=
  s.inBase.toNat % 4 = 0 ∧ s.inBase.toNat ≤ s.inCur.toNat ∧ s.outBase.toNat ≤ s.outCur.toNat

/-- What holds of `len` and the output cursor in the decoder after the length word (R39 items 3 and 4). -/
def DecoderLength (s : State) : Prop :=
  s.outBase.toNat % 4 = 0 ∧ s.len.toNat % 128 = 0 ∧ (s.outCur.toNat - s.outBase.toNat) % 128 = 0

/-- The ranges of the three indices, in every state (R33 to R35, R39 item 5). -/
def IndexRanges (s : State) : Prop := s.hdrIdx.toNat ≤ 4 ∧ s.mbIdx.toNat ≤ 16 ∧ s.mbCnt.toNat ≤ 16

/-- The invariant of a running command, state by state (R39). `mb_idx ≤ mb_cnt` of R39 item 5 is stated wherever the pseudocode keeps
it: in the states before a block selection and in `D_ReadingHeader` an index may be left over from an earlier block or command, which
R215, R34 and R44 do not reset (log 24). -/
def RunningInv (s : State) : Prop :=
  match s.fsm with
  | .idle => True
  | .done => True
  | .error => True
  | .eCheckingLength => EncoderBases s
  | .eWritingPrefix => EncoderBases s ∧ EncoderLength s
  | .eWritingPadding => EncoderBases s ∧ EncoderLength s
  | .eComputingWidths =>
    EncoderBases s ∧ EncoderLength s ∧ s.outCur.toNat % 4 = 0 ∧ s.mbIdx.toNat < s.mbCnt.toNat
      ∧ WidthsLegal s s.mbIdx.toNat
  | .eWritingHeader =>
    EncoderBases s ∧ EncoderLength s ∧ s.outCur.toNat % 4 = s.hdrIdx.toNat % 4 ∧ s.hdrIdx.toNat < 4
      ∧ s.mbIdx.toNat ≤ s.mbCnt.toNat ∧ WidthsLegal s s.mbCnt.toNat
  | .ePackingPayload =>
    EncoderBases s ∧ EncoderLength s ∧ s.outCur.toNat % 4 = 0 ∧ s.mbIdx.toNat ≤ s.mbCnt.toNat
      ∧ WidthsLegal s s.mbCnt.toNat
  | .dReadingPrefix => DecoderBases s ∧ s.outCur.toNat = s.outBase.toNat
  | .dSkippingPadding => DecoderBases s ∧ DecoderLength s
  | .dReadingHeader =>
    DecoderBases s ∧ DecoderLength s ∧ s.inCur.toNat % 4 = s.hdrIdx.toNat % 4
  | .dUnpackingPayload =>
    DecoderBases s ∧ DecoderLength s ∧ s.inCur.toNat % 4 = 0 ∧ s.mbIdx.toNat ≤ s.mbCnt.toNat
      ∧ WidthsLegal s s.mbCnt.toNat

/-- The invariant of the engine: the cursors stay in the address space (R13, P5), the indices in their ranges, and the running command
is as R39 says. -/
def EngineInv (s : State) : Prop :=
  s.inCur.toNat ≤ Config.memWords ∧ s.outCur.toNat ≤ Config.memWords ∧ IndexRanges s ∧ RunningInv s

/-! ### Frames -/

/-- The registers of the engine that some operation writes, and the model's `funcOut`. The four argument registers are not here:
the engine never writes them (R28). -/
inductive Reg where
  | inCur
  | outCur
  | fsm
  | err
  | nvalue
  | lastOp
  | len
  | hdrIdx
  | mbIdx
  | mbCnt
  | widths
  | funcOut
  deriving DecidableEq, Repr

/-- The register holds the same value in both states. -/
def sameReg (r : Reg) (s t : State) : Prop :=
  match r with
  | .inCur => t.inCur = s.inCur
  | .outCur => t.outCur = s.outCur
  | .fsm => t.fsm = s.fsm
  | .err => t.err = s.err
  | .nvalue => t.nvalue = s.nvalue
  | .lastOp => t.lastOp = s.lastOp
  | .len => t.len = s.len
  | .hdrIdx => t.hdrIdx = s.hdrIdx
  | .mbIdx => t.mbIdx = s.mbIdx
  | .mbCnt => t.mbCnt = s.mbCnt
  | .widths => t.widths = s.widths
  | .funcOut => t.funcOut = s.funcOut

/-- The registers the rule of each operation lets it write, `ERR` and `fsm_state` where it can raise (R261). -/
def writes : Instr → List Reg
  | .encode => [.inCur, .outCur, .err, .lastOp, .fsm, .len]
  | .decode => [.inCur, .outCur, .err, .lastOp, .fsm]
  | .needsPad _ => [.funcOut]
  | .maxbits _ => [.funcOut]
  | .hdrPack _ => [.funcOut]
  | .hdrUnpack _ _ => [.funcOut, .widths]
  | .widthCheck => [.funcOut, .err, .fsm]
  | .padEmit => [.outCur]
  | .padSkip => [.inCur, .err, .fsm]
  | .pack _ _ _ => []
  | .unpack _ _ _ => []
  | .schedPack => [.outCur, .mbIdx]
  | .schedUnpack => [.inCur, .mbIdx]
  | .schedEndEnc => [.inCur]
  | .schedEndDec => [.outCur]
  | .eStart => [.inCur, .outCur, .err, .lastOp, .fsm, .len]
  | .eCheckLen => [.err, .fsm]
  | .ePrefix => [.outCur, .err, .fsm]
  | .ePad => [.outCur, .err, .fsm]
  | .ePadDone => [.mbCnt, .mbIdx, .widths, .nvalue, .fsm]
  | .eWidth => [.widths, .mbIdx, .hdrIdx, .fsm]
  | .eHdr => [.outCur, .hdrIdx, .mbIdx, .err, .fsm]
  | .ePack => [.outCur, .mbIdx, .err, .fsm]
  | .eBlockEnd => [.inCur, .mbCnt, .mbIdx, .widths, .nvalue, .fsm]
  | .dStart => [.inCur, .outCur, .err, .lastOp, .fsm]
  | .dPrefix => [.len, .inCur, .err, .fsm]
  | .dPad => [.inCur, .err, .fsm]
  | .dPadDone => [.mbCnt, .hdrIdx, .nvalue, .fsm]
  | .dHdr => [.inCur, .widths, .hdrIdx]
  | .dHdrCheck => [.mbIdx, .err, .fsm]
  | .dUnpack => [.inCur, .mbIdx]
  | .dBlockEnd => [.outCur, .mbCnt, .hdrIdx, .nvalue, .fsm]
  | .len _ => [.len, .inCur, .outCur, .err, .fsm]
  | .pad => [.inCur, .outCur, .err, .fsm]
  | .hdr _ _ _ _ => [.inCur, .outCur, .widths, .hdrIdx, .mbIdx, .err, .fsm]
  | .payload _ => []

/-- Where each operation stores, as the first word address and the number of words (R61); no words for an operation that stores
nothing. -/
def storeRegion : Instr → State → Nat × Nat
  | .padEmit, s => (s.outCur.toNat, 1)
  | .pack bits _ dst, _ => (dst.toNat, 4 * bits.toNat)
  | .unpack _ _ dst, _ => (dst.toNat, 128)
  | .schedPack, s => (s.outCur.toNat, 4 * nextWidth s)
  | .schedUnpack, s => (blkOut s, 128)
  | .ePrefix, s => (s.outCur.toNat, 1)
  | .ePad, s => (s.outCur.toNat, 1)
  | .eHdr, s => (s.outCur.toNat, 1)
  | .ePack, s => (s.outCur.toNat, 4 * nextWidth s)
  | .dUnpack, s => (blkOut s, 128)
  | .len _, s => (s.outCur.toNat, if s.fsm = .eWritingPrefix then 1 else 0)
  | .pad, s => (s.outCur.toNat, if s.fsm = .eWritingPadding then 1 else 0)
  | .hdr _ _ _ _, s => (s.outCur.toNat, if s.fsm = .eWritingHeader then 1 else 0)
  | .encode, _ => (0, 0)
  | .decode, _ => (0, 0)
  | .needsPad _, _ => (0, 0)
  | .maxbits _, _ => (0, 0)
  | .hdrPack _, _ => (0, 0)
  | .hdrUnpack _ _, _ => (0, 0)
  | .widthCheck, _ => (0, 0)
  | .padSkip, _ => (0, 0)
  | .schedEndEnc, _ => (0, 0)
  | .schedEndDec, _ => (0, 0)
  | .eStart, _ => (0, 0)
  | .eCheckLen, _ => (0, 0)
  | .ePadDone, _ => (0, 0)
  | .eWidth, _ => (0, 0)
  | .eBlockEnd, _ => (0, 0)
  | .dStart, _ => (0, 0)
  | .dPrefix, _ => (0, 0)
  | .dPad, _ => (0, 0)
  | .dPadDone, _ => (0, 0)
  | .dHdr, _ => (0, 0)
  | .dHdrCheck, _ => (0, 0)
  | .dBlockEnd, _ => (0, 0)
  | .payload _, _ => (0, 0)

/-- The byte address lies outside the words `[r.1, r.1 + r.2)`; the bytes of word `a` are `4a` to `4a + 3` (R65). -/
def outside (r : Nat × Nat) (x : Nat) : Prop := x < 4 * r.1 ∨ 4 * (r.1 + r.2) ≤ x

/-! ### Conditions under which an operation has its effect -/

/-- The words `[a, a + n)` exist and the allocation lets the engine read them (R66, P5). -/
abbrev MayRead (s : State) (a n : Nat) : Prop := a + n ≤ Config.memWords ∧ covered s.readable a n = true

/-- The words `[a, a + n)` exist and the allocation lets the engine write them (R66, P5). -/
abbrev MayWrite (s : State) (a n : Nat) : Prop := a + n ≤ Config.memWords ∧ covered s.writable a n = true

/-- `[a, a + n)` and `[b, b + m)` have no word in common (P4). -/
abbrev Apart (a n b m : Nat) : Prop := n = 0 ∨ m = 0 ∨ a + n ≤ b ∨ b + m ≤ a

/-- The stream with the prefix `l` at `IN_BASE` lies apart from the output region (P4 of R301, with the regions of R66). -/
abbrev StreamApart (s : State) (l : Nat) : Prop :=
  Apart s.inBase.toNat (streamWords s.mem s.inBase.toNat l) s.outBase.toNat l

/-- A `PACK` of width `b` can be dispatched: a legal width and, unless nothing is to be moved, aligned addresses, operands apart,
and both accesses admitted (R151, R64, R66). -/
abbrev PackReady (s : State) (src dst b : Nat) : Prop :=
  b ≤ 32 ∧ (b ≠ 0 → src % 4 = 0 ∧ dst % 4 = 0 ∧ Apart src 128 dst (4 * b) ∧ MayRead s src 128 ∧ MayWrite s dst (4 * b))

/-- An `UNPACK` of width `b` can be dispatched (R152, R64, R66). -/
abbrev UnpackReady (s : State) (src dst b : Nat) : Prop :=
  b ≤ 32 ∧ (b ≠ 0 → src % 4 = 0) ∧ dst % 4 = 0 ∧ Apart src (4 * b) dst 128 ∧ MayRead s src (4 * b) ∧ MayWrite s dst 128

/-- Memory after a `PACK`: the packed words at the destination, nothing at width 0 (R151). -/
def packedMem (s : State) (src dst b : Nat) : List Host.Cell :=
  if b = 0 then s.mem else Memory.storeWords s.mem dst (kernelPack b (Memory.readWords s.mem src 128))

/-- Memory after an `UNPACK`: the 128 unpacked words at the destination (R152). -/
def unpackedMem (s : State) (src dst b : Nat) : List Host.Cell :=
  Memory.storeWords s.mem dst (kernelUnpack b (Memory.readWords s.mem src (4 * b)))

/-- The two regions of an `ENCODE` end inside the address space (P5 of R301, with the regions of R66). -/
abbrev EncodeInSpace (s : State) : Prop :=
  s.inBase.toNat + s.inLen.toNat ≤ Config.memWords
    ∧ s.outBase.toNat + min s.outCap.toNat (maxsize s.inLen.toNat) ≤ Config.memWords

/-- The two regions of an `ENCODE` have no word in common (P4 of R301, with the regions of R66). -/
abbrev EncodeApart (s : State) : Prop :=
  Apart s.inBase.toNat s.inLen.toNat s.outBase.toNat (min s.outCap.toNat (maxsize s.inLen.toNat))

/-- An `ENCODE` keeps its preconditions P1, P2, P4 and P5 (R301); one of a bad length has no regions to judge (log 7). -/
abbrev EncodeAdmitted (s : State) : Prop :=
  s.inBase.toNat % 4 = 0 ∧ s.outBase.toNat % 4 = 0
    ∧ ((s.inLen.toNat = 0 ∨ s.inLen.toNat % 128 ≠ 0) ∨ (EncodeInSpace s ∧ EncodeApart s))

/-- The words `[a, a + n)` lie outside the buffers of a running `ENCODE`, which has none if its length is bad (P6 of R301, with the
regions of R66; logs 7, 9). -/
abbrev OutsideEncode (s : State) (a n : Nat) : Prop :=
  (s.len.toNat = 0 ∨ s.len.toNat % 128 ≠ 0)
    ∨ (Apart a n s.inBase.toNat s.len.toNat ∧ Apart a n s.outBase.toNat (min s.outCap.toNat (maxsize s.len.toNat)))

/-- The words `[a, a + n)` lie outside the buffers of a running `DECODE` with the prefix `l`, which has no output buffer if the prefix
is above the capacity (P6 of R301, with the regions of R66; log 9). -/
abbrev OutsideDecode (s : State) (l a n : Nat) : Prop :=
  Apart a n s.inBase.toNat (streamWords s.mem s.inBase.toNat l) ∧ (l ≤ s.outCap.toNat → Apart a n s.outBase.toNat l)

end Sys2Proof.Safety
end

