-- ==== Sys2Proof/Certificates/Slice0/Obligations.lean ====
section
/-! DEFINITION. The statements for the provers. A cursor after an advance is written `BitVec.ofNat 33 n`, `n` being its value on
naturals (spec R13). Conditions on the allocation, the regions and the operands are the named ones of Sys2Proof/Safety.lean. -/

open Sys2Proof Sys2Proof.Machine Sys2Proof.Safety

/-! ### Encodings -/

/-- Decoding what the encoder gives a well-formed operation gives that operation back, for every operand (R102 to R105). -/
def Obligations.DecodeOfEncodeIsInstruction : Prop :=
  ∀ (i : Instr) (c : Channel) (w : Word), i.wellFormed = true → encode i = some (c, w) → decode c w = .ok i

/-- Every accepted word is the encoding of the operation it decodes to: on one channel no two words mean the same. -/
def Obligations.EncodeOfDecodeIsWord : Prop :=
  ∀ (c : Channel) (w : Word) (i : Instr), decode c w = .ok i → encode i = some (c, w)

/-- Words written out from the spec: commands (R102), state codes (R30, R180, R210), dispatch words (R103), stream words (R93 to
R95), and words the spec calls reserved or illegal. -/
def Obligations.SpecWordsDecode : Prop :=
  decode .command 0x00000001#32 = .ok .encode ∧ decode .command 0x00000002#32 = .ok .decode
    ∧ decode .command 0x00000101#32 = .error .reservedCommand
    ∧ decode (.uop true) 0x3#32 = .ok .ePad ∧ decode (.uop false) 0x3#32 = .ok .ePadDone
    ∧ decode (.uop false) 0xB#32 = .ok .dBlockEnd ∧ decode (.body true) 0x9#32 = .ok .padSkip
    ∧ decode (.dispatch 0x1000#32 0x4008#32) 0x20#32 = .ok (.pack 32#6 0x1000#32 0x4008#32)
    ∧ decode (.dispatch 0x4088#32 0x5100#32) 0x45#32 = .ok (.unpack 5#6 0x4088#32 0x5100#32)
    ∧ decode (.stream .hdrWord) 0x04042104#32 = .ok (.hdr 4#8 4#8 33#8 4#8)
    ∧ decode (.stream .padWord) 0x0001E240#32 = .ok .pad ∧ decode (.stream .padWord) 0x0001E241#32 = .error .notCookie

/-- Header words and four-tuples of bytes are in one-to-one correspondence (R135, R132, R134). -/
def Obligations.HeaderFieldsRoundTrip : Prop :=
  (∀ (b : Vector Byte 16) (k : Nat), k < 4 →
    hdrField (hdrWordOf b k) 24 = widthAt b (4 * k) ∧ hdrField (hdrWordOf b k) 16 = widthAt b (4 * k + 1)
      ∧ hdrField (hdrWordOf b k) 8 = widthAt b (4 * k + 2) ∧ hdrField (hdrWordOf b k) 0 = widthAt b (4 * k + 3))
  ∧ ∀ (b : Vector Byte 16) (w : Word) (k : Nat), k < 4 →
    hdrWordOf (setFields b k (hdrField w 24) (hdrField w 16) (hdrField w 8) (hdrField w 0)) k = w

/-! ### Reset, status, the register window -/

/-- Reset leaves every register as R40 says, `STATUS` reads 0, and `MEM` is not touched; of `B`, which R40 leaves unspecified,
nothing is said. -/
def Obligations.ResetLeavesRegisters : Prop :=
  ∀ s : State, hostExec .reset s = .next (resetEngine s) ∧ (resetEngine s).mem = s.mem
    ∧ ∀ t : State, t = State.reset ∨ t = resetEngine s →
      t.fsm = .idle ∧ t.lastOp = 0#1 ∧ t.inBase = 0#32 ∧ t.inLen = 0#32 ∧ t.outBase = 0#32 ∧ t.outCap = 0#32
        ∧ t.err = .none ∧ t.nvalue = 0#32 ∧ t.inCur.toNat = 0 ∧ t.outCur.toNat = 0 ∧ t.len = 0#32
        ∧ t.hdrIdx = 0#3 ∧ t.mbIdx = 0#5 ∧ t.mbCnt = 0#5 ∧ statusWord t = 0#32

/-- Commands straight after reset (R292): an `ENCODE` ends in `InvalidLength`; a `DECODE` goes on if word 0 of memory is 0 and is
refused for overlapping regions if it is not. Rests on the allocation at reset (log 4) and on when P4 is judged (log 8). -/
def Obligations.CommandsAfterReset : Prop :=
  fsmReady State.reset.fsm = true
  ∧ (∃ t u, exec .encode State.reset = .next t ∧ exec .eCheckLen t = .next u ∧ u.err = .invalidLength ∧ u.fsm = .error)
  ∧ ∀ m : List Host.Cell, ∃ t, exec .decode { State.reset with mem := m } = .next t
      ∧ (Memory.readWord m 0 ≠ 0#32 → exec .dPrefix t = .refused .regionsOverlap)
      ∧ (Memory.readWord m 0 = 0#32 → ∃ u, exec .dPrefix t = .next u ∧ u.fsm = .dSkippingPadding)

/-- The fields of `STATUS` and its reset value (R23), and the codes of `ERR` (R24). -/
def Obligations.StatusAndErrWords : Prop :=
  statusWord State.reset = 0#32 ∧ ∀ s : State,
    ((statusWord s).getLsbD 0 = true ↔ s.fsm ≠ .idle ∧ s.fsm ≠ .done ∧ s.fsm ≠ .error)
    ∧ ((statusWord s).getLsbD 1 = true ↔ s.fsm = .done) ∧ ((statusWord s).getLsbD 2 = true ↔ s.fsm = .error)
    ∧ ((statusWord s).getLsbD 3 = true ↔ s.lastOp = 1#1)
    ∧ (statusWord s).extractLsb' 4 4 = fsmCode s.fsm ∧ (statusWord s).toNat < 256
    ∧ (errWord s).toNat = match s.err with
        | .none => 0
        | .invalidLength => 1
        | .badOutputAlignment => 2
        | .streamCorrupt => 3
        | .bufferTooSmall => 4

/-- The register window: what each number reads, `CMD` and the reserved numbers reading 0 (R21), and that in a ready state a write
of an argument register is stored while a write of any other number but 0 changes nothing (R21, R28). -/
def Obligations.RegisterWindow : Prop :=
  ∀ s : State,
    readReg s 0 = 0#32 ∧ readReg s 1 = s.inBase ∧ readReg s 2 = s.inLen ∧ readReg s 3 = s.outBase ∧ readReg s 4 = s.outCap
    ∧ readReg s 5 = statusWord s ∧ readReg s 6 = errWord s ∧ readReg s 7 = s.nvalue
    ∧ (s.inCur.toNat < Config.memWords → (readReg s 8).toNat = s.inCur.toNat)
    ∧ (s.outCur.toNat < Config.memWords → (readReg s 9).toNat = s.outCur.toNat)
    ∧ (∀ r, 10 ≤ r → readReg s r = 0#32)
    ∧ (busy s = false → ∀ v : Word,
        hostExec (.wr 1 v) s = .next { s with inBase := v } ∧ hostExec (.wr 2 v) s = .next { s with inLen := v }
        ∧ hostExec (.wr 3 v) s = .next { s with outBase := v } ∧ hostExec (.wr 4 v) s = .next { s with outCap := v }
        ∧ ∀ r, 5 ≤ r → hostExec (.wr r v) s = .next s)

/-! ### Combinational functions (log 15: their results stand in `funcOut`) -/

/-- `NEEDS_PAD` (R120). -/
def Obligations.NeedsPadResult : Prop :=
  ∀ (a : Word) (s : State), exec (.needsPad a) s = .next { s with funcOut := .bit (decide (a.toNat % 4 ≠ 0)) }

/-- `MAXBITS` gives the least width every value fits in (R130). -/
def Obligations.MaxbitsIsLeastWidth : Prop :=
  ∀ (v : Vector Word 128) (s : State), ∃ b : Nat,
    exec (.maxbits v) s = .next { s with funcOut := .width b } ∧ b ≤ 32
      ∧ (∀ w ∈ v.toList, w.toNat < 2 ^ b) ∧ ∀ c : Nat, (∀ w ∈ v.toList, w.toNat < 2 ^ c) → b ≤ c

/-- `HDR_PACK` puts the four widths in the four bytes, the first in the most significant one (R132). -/
def Obligations.HdrPackResult : Prop :=
  ∀ (k : Fin 4) (s : State), ∃ w : Word,
    exec (.hdrPack k) s = .next { s with funcOut := .word w }
      ∧ w.toNat = (widthAt s.widths (4 * k)).toNat * 2 ^ 24 + (widthAt s.widths (4 * k + 1)).toNat * 2 ^ 16
        + (widthAt s.widths (4 * k + 2)).toNat * 2 ^ 8 + (widthAt s.widths (4 * k + 3)).toNat

/-- `HDR_UNPACK` takes the four bytes apart, stores them in entries `4k` to `4k + 3` and changes no other entry (R134). -/
def Obligations.HdrUnpackResult : Prop :=
  ∀ (k : Fin 4) (w : Word) (s : State), ∃ (v : Vector Byte 16) (a b c d : Byte),
    exec (.hdrUnpack k w) s = .next { s with widths := v, funcOut := .fields a b c d }
      ∧ a.toNat = w.toNat / 2 ^ 24 ∧ b.toNat = w.toNat / 2 ^ 16 % 256 ∧ c.toNat = w.toNat / 2 ^ 8 % 256
      ∧ d.toNat = w.toNat % 256
      ∧ widthAt v (4 * k) = a ∧ widthAt v (4 * k + 1) = b ∧ widthAt v (4 * k + 2) = c ∧ widthAt v (4 * k + 3) = d
      ∧ ∀ i, i < 4 * k.val ∨ 4 * k.val + 4 ≤ i → widthAt v i = widthAt s.widths i

/-- `WIDTH_CHECK` judges the present widths only and raises `StreamCorrupt` for one above 32 (R136). -/
def Obligations.WidthCheckResult : Prop :=
  ∀ s : State, s.mbCnt.toNat ≤ 16 →
    ((∀ i, i < s.mbCnt.toNat → (widthAt s.widths i).toNat ≤ 32) → exec .widthCheck s = .next { s with funcOut := .bit true })
    ∧ (∀ i, i < s.mbCnt.toNat → 32 < (widthAt s.widths i).toNat →
        exec .widthCheck s = .next { s with funcOut := .bit false, err := .streamCorrupt, fsm := .error })

/-! ### Padding -/

/-- `PAD_EMIT` writes the sentinel at `OUT_CUR` and advances it, and does not fire on an aligned cursor (R122). -/
def Obligations.PadEmitResult : Prop :=
  ∀ s : State, s.fsm = .eWritingPadding →
    (s.outCur.toNat % 4 = 0 → exec .padEmit s = .refused .notEnabled)
    ∧ (s.outCur.toNat % 4 ≠ 0 → MayWrite s s.outCur.toNat 1 →
        exec .padEmit s = .next { s with
          mem := Memory.storeWords s.mem s.outCur.toNat [0x0001E240#32]
          outCur := BitVec.ofNat 33 (s.outCur.toNat + 1) })

/-- `PAD_SKIP` advances `IN_CUR` past one word and raises `StreamCorrupt` if the word is not the sentinel (R123). -/
def Obligations.PadSkipResult : Prop :=
  ∀ s : State, s.fsm = .dSkippingPadding →
    (s.inCur.toNat % 4 = 0 → exec .padSkip s = .refused .notEnabled)
    ∧ (s.inCur.toNat % 4 ≠ 0 → MayRead s s.inCur.toNat 1 →
        (Memory.readWord s.mem s.inCur.toNat = 0x0001E240#32 →
          exec .padSkip s = .next { s with inCur := BitVec.ofNat 33 (s.inCur.toNat + 1) })
        ∧ (Memory.readWord s.mem s.inCur.toNat ≠ 0x0001E240#32 →
          exec .padSkip s = .next { s with
            inCur := BitVec.ofNat 33 (s.inCur.toNat + 1)
            err := .streamCorrupt
            fsm := .error }))

/-- From one word after an aligned base, with room and the words writable, `E_PAD` fires three times, the three words are the
sentinel, and then the cursor is aligned (R121, R125). That a fourth `E_PAD` is refused is the model's reading (log 14): by R184 it is
not enabled. -/
def Obligations.PaddingLoopWritesThreeWords : Prop :=
  ∀ s : State, s.fsm = .eWritingPadding → s.outBase.toNat % 4 = 0 → s.outCur.toNat = s.outBase.toNat + 1 →
    4 ≤ s.outCap.toNat → (∀ j, 1 ≤ j → j < 4 → MayWrite s (s.outBase.toNat + j) 1) →
    ∃ t u v, exec .ePad s = .next t ∧ exec .ePad t = .next u ∧ exec .ePad u = .next v
      ∧ Memory.readWords v.mem (s.outBase.toNat + 1) 3 = List.replicate 3 0x0001E240#32
      ∧ v.outCur.toNat = s.outBase.toNat + 4 ∧ exec .ePad v = .refused .notEnabled

/-! ### The kernel pair and the dispatches -/

/-- The sizes of the kernel pair and its two fixed widths (R153, R154, R155). -/
def Obligations.KernelSizesAndEndWidths : Prop :=
  (∀ (b : Nat) (v : List Word), b ≤ 32 → v.length = 128 → (kernelPack b v).length = 4 * b)
  ∧ (∀ (b : Nat) (ws : List Word), b ≤ 32 → ws.length = 4 * b → (kernelUnpack b ws).length = 128)
  ∧ (∀ v : List Word, v.length = 128 → kernelPack 0 v = [] ∧ kernelPack 32 v = v)
  ∧ kernelUnpack 0 [] = List.replicate 128 0#32 ∧ ∀ ws : List Word, ws.length = 128 → kernelUnpack 32 ws = ws

/-- `K.unpack` inverts `K.pack` on values that fit, gives only values that fit, and `K.pack` inverts it on every list of words
(R156). The last clause is R156's own "Consequence [derived: by counting]", which the form of the model's kernel pair makes true (log
11). -/
def Obligations.KernelInverts : Prop :=
  (∀ (b : Nat) (v : List Word), b ≤ 32 → v.length = 128 → (∀ w ∈ v, w.toNat < 2 ^ b) → kernelUnpack b (kernelPack b v) = v)
  ∧ (∀ (b : Nat) (ws : List Word), b ≤ 32 → ws.length = 4 * b → ∀ w ∈ kernelUnpack b ws, w.toNat < 2 ^ b)
  ∧ ∀ (b : Nat) (ws : List Word), b ≤ 32 → ws.length = 4 * b → kernelPack b (kernelUnpack b ws) = ws

/-- `PACK` writes the packed words and nothing else; at width 0 it changes nothing (R151). -/
def Obligations.PackResult : Prop :=
  ∀ (bits : BitVec 6) (src dst : Word) (s : State), PackReady s src.toNat dst.toNat bits.toNat →
    exec (.pack bits src dst) s = .next { s with mem := packedMem s src.toNat dst.toNat bits.toNat }

/-- `UNPACK` writes the 128 unpacked words and nothing else (R152). -/
def Obligations.UnpackResult : Prop :=
  ∀ (bits : BitVec 6) (src dst : Word) (s : State), UnpackReady s src.toNat dst.toNat bits.toNat →
    exec (.unpack bits src dst) s = .next { s with mem := unpackedMem s src.toNat dst.toNat bits.toNat }

/-- Packing a miniblock and unpacking the payload elsewhere gives the miniblock back, at every width its values fit in and for every
kernel pair the contract admits (R151, R152, R156). -/
def Obligations.PackThenUnpackRestores : Prop :=
  ∀ (bits : BitVec 6) (src dst out : Word) (s : State), PackReady s src.toNat dst.toNat bits.toNat →
    (bits.toNat ≠ 0 → MayRead s dst.toNat (4 * bits.toNat)) → UnpackReady s dst.toNat out.toNat bits.toNat →
    (∀ w ∈ Memory.readWords s.mem src.toNat 128, w.toNat < 2 ^ bits.toNat) →
    ∃ t u, exec (.pack bits src dst) s = .next t ∧ exec (.unpack bits dst out) t = .next u
      ∧ Memory.readWords u.mem out.toNat 128 = Memory.readWords s.mem src.toNat 128

/-! ### The scheduler -/

/-- `SCHED_PACK` dispatches the next miniblock and advances `OUT_CUR` by its payload and `mb_idx` by one (R161). -/
def Obligations.SchedPackResult : Prop :=
  ∀ s : State, s.fsm = .ePackingPayload → s.mbIdx.toNat < s.mbCnt.toNat → s.mbCnt.toNat ≤ 16 →
    PackReady s (s.inCur.toNat + 128 * s.mbIdx.toNat) s.outCur.toNat (nextWidth s) → s.outCur.toNat ≤ Config.memWords →
    exec .schedPack s = .next { s with
      mem := packedMem s (s.inCur.toNat + 128 * s.mbIdx.toNat) s.outCur.toNat (nextWidth s)
      outCur := BitVec.ofNat 33 (s.outCur.toNat + 4 * nextWidth s)
      mbIdx := BitVec.ofNat 5 (s.mbIdx.toNat + 1) }

/-- `SCHED_UNPACK` dispatches the next miniblock and advances `IN_CUR` by its payload and `mb_idx` by one (R162). -/
def Obligations.SchedUnpackResult : Prop :=
  ∀ s : State, s.fsm = .dUnpackingPayload → s.mbIdx.toNat < s.mbCnt.toNat → s.mbCnt.toNat ≤ 16 →
    UnpackReady s s.inCur.toNat (s.outCur.toNat + 128 * s.mbIdx.toNat) (nextWidth s) →
    exec .schedUnpack s = .next { s with
      mem := unpackedMem s s.inCur.toNat (s.outCur.toNat + 128 * s.mbIdx.toNat) (nextWidth s)
      inCur := BitVec.ofNat 33 (s.inCur.toNat + 4 * nextWidth s)
      mbIdx := BitVec.ofNat 5 (s.mbIdx.toNat + 1) }

/-- `SCHED_END_ENC` and `SCHED_END_DEC` advance one cursor by the block and change nothing else (R163, R164). -/
def Obligations.SchedEndResults : Prop :=
  ∀ s : State, s.mbIdx = s.mbCnt → s.mbCnt.toNat ≤ 16 →
    (s.fsm = .ePackingPayload → s.inCur.toNat + 128 * s.mbCnt.toNat ≤ Config.memWords →
      exec .schedEndEnc s = .next { s with inCur := BitVec.ofNat 33 (s.inCur.toNat + 128 * s.mbCnt.toNat) })
    ∧ (s.fsm = .dUnpackingPayload → s.outCur.toNat + 128 * s.mbCnt.toNat ≤ Config.memWords →
      exec .schedEndDec s = .next { s with outCur := BitVec.ofNat 33 (s.outCur.toNat + 128 * s.mbCnt.toNat) })

/-! ### Commands -/

/-- `ENCODE`, and the `E_START` it performs, in a ready state on kept preconditions (R240, R181, R301). That an `ENCODE` of a bad length
starts whatever its regions is the model's reading (log 7), of R182 and of the vectors in section 2.7 of spec file 95. -/
def Obligations.EncodeStarts : Prop :=
  ∀ s : State, fsmReady s.fsm = true → EncodeAdmitted s →
    ∀ i : Instr, i = .encode ∨ i = .eStart → exec i s = .next { s with
        inCur := BitVec.ofNat 33 s.inBase.toNat
        outCur := BitVec.ofNat 33 s.outBase.toNat
        len := s.inLen
        err := .none
        lastOp := 0#1
        fsm := .eCheckingLength }

/-- `DECODE`, and the `D_START` it performs, in a ready state with an aligned `IN_BASE` (R241, R211); `len` is not touched. That P1 of R301
is judged here and P4 and P5 only from `D_PREFIX` on, so that a `DECODE` which breaks those starts, is the model's reading (logs 6, 8). -/
def Obligations.DecodeStarts : Prop :=
  ∀ s : State, fsmReady s.fsm = true → s.inBase.toNat % 4 = 0 →
    ∀ i : Instr, i = .decode ∨ i = .dStart → exec i s = .next { s with
        inCur := BitVec.ofNat 33 s.inBase.toNat
        outCur := BitVec.ofNat 33 s.outBase.toNat
        err := .none
        lastOp := 1#1
        fsm := .dReadingPrefix }

/-- While busy every register write of the host is ignored, a command too (R242). -/
def Obligations.BusyWritesIgnored : Prop :=
  ∀ s : State, busy s = true → ∀ (r : Nat) (v : Word), hostExec (.wr r v) s = .next s

/-- A `CMD` value other than 1 and 2 changes nothing in any state; 1 and 2 are the two commands (R22, R243, R102). -/
def Obligations.CommandWrites : Prop :=
  ∀ s : State, hostExec (.wr 0 1#32) s = exec .encode s ∧ hostExec (.wr 0 2#32) s = exec .decode s
    ∧ ∀ v : Word, v ≠ 1#32 → v ≠ 2#32 → hostExec (.wr 0 v) s = .next s

/-- What breaks a precondition of R301 is refused, for the one engine of the model. An `ENCODE` is judged at its start: P1, P2, and for a
good length P5 and P4 on the regions of R66. A `DECODE` is judged by P1 at its start and by `D_PREFIX` for the rest: a stream that meets
the output region (P4) whatever errors hold (R292); where no error holds, a prefix that is no multiple of 128 (P3, R212) and an output
region that passes the top (P5); a stream that passes the top is refused by the step that would read past it. While a command runs, a host
`MEM` that touches one of its buffers is refused (P6, R303), and one that touches neither is carried out (R106); `FILL` is a `MEM` of equal
words. When each is judged, and which of several wins, is the model's choice (logs 6, 7, 8, 9, 27). -/
def Obligations.BrokenPreconditionsRefused : Prop :=
  ∀ s : State,
    (fsmReady s.fsm = true → s.inBase.toNat % 4 ≠ 0 →
      exec .encode s = .refused .inputMisaligned ∧ exec .decode s = .refused .inputMisaligned)
    ∧ (fsmReady s.fsm = true → s.inBase.toNat % 4 = 0 → s.outBase.toNat % 4 ≠ 0 → exec .encode s = .refused .outputMisaligned)
    ∧ (fsmReady s.fsm = true → s.inBase.toNat % 4 = 0 → s.outBase.toNat % 4 = 0 → 0 < s.inLen.toNat → s.inLen.toNat % 128 = 0 →
        (¬ EncodeInSpace s → exec .encode s = .refused .addressWrap)
        ∧ (EncodeInSpace s → ¬ EncodeApart s → exec .encode s = .refused .regionsOverlap))
    ∧ (∀ l : Word, s.fsm = .dReadingPrefix → MayRead s s.inCur.toNat 1 → Memory.readWord s.mem s.inCur.toNat = l →
        (¬ StreamApart s l.toNat → exec .dPrefix s = .refused .regionsOverlap)
        ∧ (StreamApart s l.toNat → s.outCur.toNat % 4 = 0 → l.toNat ≤ s.outCap.toNat →
          (l.toNat % 128 ≠ 0 → exec .dPrefix s = .refused .prefixNotMultiple)
          ∧ (l.toNat % 128 = 0 → Config.memWords < s.outBase.toNat + l.toNat → exec .dPrefix s = .refused .addressWrap)))
    ∧ (Config.memWords < s.inCur.toNat + 1 →
        (s.fsm = .dSkippingPadding → s.inCur.toNat % 4 ≠ 0 → exec .dPad s = .refused .addressWrap)
        ∧ (s.fsm = .dReadingHeader → s.hdrIdx.toNat < 4 → exec .dHdr s = .refused .addressWrap))
    ∧ (s.fsm = .dUnpackingPayload → s.mbIdx.toNat < s.mbCnt.toNat → s.mbCnt.toNat ≤ 16 → nextWidth s ≤ 32 →
        s.inCur.toNat % 4 = 0 → s.outCur.toNat % 4 = 0 → Apart s.inCur.toNat (4 * nextWidth s) (blkOut s) 128 →
        Config.memWords < s.inCur.toNat + 4 * nextWidth s → exec .dUnpack s = .refused .addressWrap)
    ∧ (∀ (a : Word) (ws : List Word), a.toNat + ws.length ≤ Config.memWords →
        (s.fsm = .eCheckingLength ∨ s.fsm = .eWritingPrefix ∨ s.fsm = .eWritingPadding ∨ s.fsm = .eComputingWidths
            ∨ s.fsm = .eWritingHeader ∨ s.fsm = .ePackingPayload →
          if OutsideEncode s a.toNat ws.length then hostExec (.mem a ws) s = .next { s with mem := Memory.storeWords s.mem a.toNat ws }
          else hostExec (.mem a ws) s = .refused .bufferWritten)
        ∧ ∀ l : Nat,
          (s.fsm = .dReadingPrefix ∧ l = (Memory.readWord s.mem s.inBase.toNat).toNat)
            ∨ ((s.fsm = .dSkippingPadding ∨ s.fsm = .dReadingHeader ∨ s.fsm = .dUnpackingPayload) ∧ l = s.len.toNat) →
          if OutsideDecode s l a.toNat ws.length then hostExec (.mem a ws) s = .next { s with mem := Memory.storeWords s.mem a.toNat ws }
          else hostExec (.mem a ws) s = .refused .bufferWritten)
    ∧ ∀ (a w : Word) (n : Nat), hostExec (.fill a n w) s = hostExec (.mem a (List.replicate n w)) s

/-! ### The encoder -/

/-- `E_CHECKLEN` (R182). -/
def Obligations.ECheckLenResult : Prop :=
  ∀ s : State, s.fsm = .eCheckingLength →
    ((s.len.toNat = 0 ∨ s.len.toNat % 128 ≠ 0) →
      exec .eCheckLen s = .next { s with err := .invalidLength, fsm := .error })
    ∧ (0 < s.len.toNat → s.len.toNat % 128 = 0 → exec .eCheckLen s = .next { s with fsm := .eWritingPrefix })

/-- `E_PREFIX` (R183), with the capacity test of R191. -/
def Obligations.EPrefixResult : Prop :=
  ∀ s : State, s.fsm = .eWritingPrefix →
    (s.outCap.toNat < s.outCur.toNat - s.outBase.toNat + 1 →
      exec .ePrefix s = .next { s with err := .bufferTooSmall, fsm := .error })
    ∧ (s.outCur.toNat - s.outBase.toNat + 1 ≤ s.outCap.toNat → MayWrite s s.outCur.toNat 1 →
      exec .ePrefix s = .next { s with
        mem := Memory.storeWords s.mem s.outCur.toNat [s.len]
        outCur := BitVec.ofNat 33 (s.outCur.toNat + 1)
        fsm := .eWritingPadding })

/-- `E_PAD` (R184), with the capacity test of R191. -/
def Obligations.EPadResult : Prop :=
  ∀ s : State, s.fsm = .eWritingPadding → s.outCur.toNat % 4 ≠ 0 →
    (s.outCap.toNat < s.outCur.toNat - s.outBase.toNat + 1 →
      exec .ePad s = .next { s with err := .bufferTooSmall, fsm := .error })
    ∧ (s.outCur.toNat - s.outBase.toNat + 1 ≤ s.outCap.toNat → MayWrite s s.outCur.toNat 1 →
      exec .ePad s = .next { s with
        mem := Memory.storeWords s.mem s.outCur.toNat [0x0001E240#32]
        outCur := BitVec.ofNat 33 (s.outCur.toNat + 1) })

/-- `E_PAD_DONE` (R185): block selection by the input words remaining (R186). The third case ends the command. -/
def Obligations.EPadDoneResult : Prop :=
  ∀ (s : State) (rem : Nat), s.fsm = .eWritingPadding → s.outCur.toNat % 4 = 0 →
    s.inCur.toNat + rem = s.inBase.toNat + s.len.toNat →
    (2048 ≤ rem → exec .ePadDone s = .next { s with mbCnt := 16#5, mbIdx := 0#5, fsm := .eComputingWidths })
    ∧ (0 < rem → rem < 2048 → exec .ePadDone s = .next { s with
        mbCnt := BitVec.ofNat 5 (rem / 128)
        widths := Vector.replicate 16 0#8
        mbIdx := 0#5
        fsm := .eComputingWidths })
    ∧ (rem = 0 → exec .ePadDone s = .next { s with
        nvalue := BitVec.ofNat 32 (s.outCur.toNat - s.outBase.toNat)
        fsm := .done })

/-- `E_WIDTH` (R187): entry `mb_idx` becomes the width of the miniblock, the other entries stay, and after the last miniblock the
header follows. -/
def Obligations.EWidthResult : Prop :=
  ∀ s : State, s.fsm = .eComputingWidths → s.mbIdx.toNat < s.mbCnt.toNat → s.mbCnt.toNat ≤ 16 →
    MayRead s (s.inCur.toNat + 128 * s.mbIdx.toNat) 128 →
    ∃ v : Vector Byte 16,
      (widthAt v s.mbIdx.toNat).toNat = maxbitsOf (Memory.readWords s.mem (s.inCur.toNat + 128 * s.mbIdx.toNat) 128)
      ∧ (∀ i, i ≠ s.mbIdx.toNat → widthAt v i = widthAt s.widths i)
      ∧ (s.mbIdx.toNat + 1 < s.mbCnt.toNat →
          exec .eWidth s = .next { s with widths := v, mbIdx := BitVec.ofNat 5 (s.mbIdx.toNat + 1) })
      ∧ (s.mbIdx.toNat + 1 = s.mbCnt.toNat →
          exec .eWidth s = .next { s with
            widths := v
            mbIdx := BitVec.ofNat 5 (s.mbIdx.toNat + 1)
            hdrIdx := 0#3
            fsm := .eWritingHeader })

/-- `E_HDR` (R188), with the capacity test of R191; after the fourth word packing begins. -/
def Obligations.EHdrResult : Prop :=
  ∀ s : State, s.fsm = .eWritingHeader → s.hdrIdx.toNat < 4 →
    (s.outCap.toNat < s.outCur.toNat - s.outBase.toNat + 1 →
      exec .eHdr s = .next { s with err := .bufferTooSmall, fsm := .error })
    ∧ (s.outCur.toNat - s.outBase.toNat + 1 ≤ s.outCap.toNat → MayWrite s s.outCur.toNat 1 →
      (s.hdrIdx.toNat < 3 → exec .eHdr s = .next { s with
        mem := Memory.storeWords s.mem s.outCur.toNat [hdrWordOf s.widths s.hdrIdx.toNat]
        outCur := BitVec.ofNat 33 (s.outCur.toNat + 1)
        hdrIdx := BitVec.ofNat 3 (s.hdrIdx.toNat + 1) })
      ∧ (s.hdrIdx.toNat = 3 → exec .eHdr s = .next { s with
        mem := Memory.storeWords s.mem s.outCur.toNat [hdrWordOf s.widths 3]
        outCur := BitVec.ofNat 33 (s.outCur.toNat + 1)
        hdrIdx := 4#3
        mbIdx := 0#5
        fsm := .ePackingPayload }))

/-- `E_PACK` (R189): the capacity test for the whole payload, then the body of R161. -/
def Obligations.EPackResult : Prop :=
  ∀ s : State, s.fsm = .ePackingPayload → s.mbIdx.toNat < s.mbCnt.toNat → s.mbCnt.toNat ≤ 16 →
    (s.outCap.toNat < s.outCur.toNat - s.outBase.toNat + 4 * nextWidth s →
      exec .ePack s = .next { s with err := .bufferTooSmall, fsm := .error })
    ∧ (s.outCur.toNat - s.outBase.toNat + 4 * nextWidth s ≤ s.outCap.toNat →
      PackReady s (s.inCur.toNat + 128 * s.mbIdx.toNat) s.outCur.toNat (nextWidth s) → s.outCur.toNat ≤ Config.memWords →
      exec .ePack s = .next { s with
        mem := packedMem s (s.inCur.toNat + 128 * s.mbIdx.toNat) s.outCur.toNat (nextWidth s)
        outCur := BitVec.ofNat 33 (s.outCur.toNat + 4 * nextWidth s)
        mbIdx := BitVec.ofNat 5 (s.mbIdx.toNat + 1) })

/-- `E_BLOCK_END` (R190): the input cursor passes the block; a partial block ends the command, a full one is followed by block
selection on what remains (R186). -/
def Obligations.EBlockEndResult : Prop :=
  ∀ (s : State) (rem : Nat), s.fsm = .ePackingPayload → s.mbIdx = s.mbCnt → s.mbCnt.toNat ≤ 16 →
    s.inCur.toNat + 128 * s.mbCnt.toNat ≤ Config.memWords →
    s.inCur.toNat + 128 * s.mbCnt.toNat + rem = s.inBase.toNat + s.len.toNat →
    (s.mbCnt.toNat < 16 ∨ rem = 0 → exec .eBlockEnd s = .next { s with
        inCur := BitVec.ofNat 33 (s.inCur.toNat + 128 * s.mbCnt.toNat)
        nvalue := BitVec.ofNat 32 (s.outCur.toNat - s.outBase.toNat)
        fsm := .done })
    ∧ (s.mbCnt.toNat = 16 → 2048 ≤ rem → exec .eBlockEnd s = .next { s with
        inCur := BitVec.ofNat 33 (s.inCur.toNat + 2048)
        mbIdx := 0#5
        fsm := .eComputingWidths })
    ∧ (s.mbCnt.toNat = 16 → 0 < rem → rem < 2048 → exec .eBlockEnd s = .next { s with
        inCur := BitVec.ofNat 33 (s.inCur.toNat + 2048)
        mbCnt := BitVec.ofNat 5 (rem / 128)
        widths := Vector.replicate 16 0#8
        mbIdx := 0#5
        fsm := .eComputingWidths })

/-- The micro-operations of the encoder never write at or above `OUT_BASE + OUT_CAP` (R191). -/
def Obligations.EncoderStaysInCapacity : Prop :=
  ∀ (i : Instr) (s t : State), i = .ePrefix ∨ i = .ePad ∨ i = .eHdr ∨ i = .ePack → s.outBase.toNat ≤ s.outCur.toNat →
    exec i s = .next t → ∀ a, s.outBase.toNat + s.outCap.toNat ≤ a → Memory.readWord t.mem a = Memory.readWord s.mem a

/-! ### The decoder -/

/-- `D_PREFIX` (R212): `len` and `IN_CUR` are written first, then the two errors are judged in their order (R270). The precondition P4 is
assumed, and for the transition also P3 and P5 (R301). -/
def Obligations.DPrefixResult : Prop :=
  ∀ (s : State) (l : Word), s.fsm = .dReadingPrefix → MayRead s s.inCur.toNat 1 → Memory.readWord s.mem s.inCur.toNat = l →
    StreamApart s l.toNat →
    (s.outCur.toNat % 4 ≠ 0 → exec .dPrefix s = .next { s with
        len := l
        inCur := BitVec.ofNat 33 (s.inCur.toNat + 1)
        err := .badOutputAlignment
        fsm := .error })
    ∧ (s.outCur.toNat % 4 = 0 →
      (s.outCap.toNat < l.toNat → exec .dPrefix s = .next { s with
        len := l
        inCur := BitVec.ofNat 33 (s.inCur.toNat + 1)
        err := .bufferTooSmall
        fsm := .error })
      ∧ (l.toNat ≤ s.outCap.toNat → l.toNat % 128 = 0 → s.outBase.toNat + l.toNat ≤ Config.memWords →
        exec .dPrefix s = .next { s with
          len := l
          inCur := BitVec.ofNat 33 (s.inCur.toNat + 1)
          fsm := .dSkippingPadding }))

/-- `D_PAD` (R213) is `PAD_SKIP`: the word at `IN_CUR` is the sentinel, or the stream is corrupt. -/
def Obligations.DPadResult : Prop :=
  ∀ s : State, s.fsm = .dSkippingPadding → s.inCur.toNat % 4 ≠ 0 → MayRead s s.inCur.toNat 1 →
    (Memory.readWord s.mem s.inCur.toNat = 0x0001E240#32 →
      exec .dPad s = .next { s with inCur := BitVec.ofNat 33 (s.inCur.toNat + 1) })
    ∧ (Memory.readWord s.mem s.inCur.toNat ≠ 0x0001E240#32 →
      exec .dPad s = .next { s with
        inCur := BitVec.ofNat 33 (s.inCur.toNat + 1)
        err := .streamCorrupt
        fsm := .error })

/-- `D_PAD_DONE` (R214): block selection by the output words written (R215); a length of 0 ends the command. -/
def Obligations.DPadDoneResult : Prop :=
  ∀ (s : State) (written : Nat), s.fsm = .dSkippingPadding → s.inCur.toNat % 4 = 0 →
    s.outCur.toNat = s.outBase.toNat + written →
    (written + 2048 ≤ s.len.toNat →
      exec .dPadDone s = .next { s with mbCnt := 16#5, hdrIdx := 0#3, fsm := .dReadingHeader })
    ∧ (written < s.len.toNat → s.len.toNat < written + 2048 →
      exec .dPadDone s = .next { s with
        mbCnt := BitVec.ofNat 5 ((s.len.toNat - written) / 128)
        hdrIdx := 0#3
        fsm := .dReadingHeader })
    ∧ (s.len.toNat ≤ written → exec .dPadDone s = .next { s with nvalue := s.len, fsm := .done })

/-- `D_HDR` (R216): the four fields of the word at `IN_CUR` are stored as they are. -/
def Obligations.DHdrResult : Prop :=
  ∀ s : State, s.fsm = .dReadingHeader → s.hdrIdx.toNat < 4 → MayRead s s.inCur.toNat 1 →
    exec .dHdr s = .next { s with
      widths := setFields s.widths s.hdrIdx.toNat
        (hdrField (Memory.readWord s.mem s.inCur.toNat) 24) (hdrField (Memory.readWord s.mem s.inCur.toNat) 16)
        (hdrField (Memory.readWord s.mem s.inCur.toNat) 8) (hdrField (Memory.readWord s.mem s.inCur.toNat) 0)
      inCur := BitVec.ofNat 33 (s.inCur.toNat + 1)
      hdrIdx := BitVec.ofNat 3 (s.hdrIdx.toNat + 1) }

/-- `D_HDR_CHECK` (R217): only the present widths are judged. -/
def Obligations.DHdrCheckResult : Prop :=
  ∀ s : State, s.fsm = .dReadingHeader → s.hdrIdx.toNat = 4 → s.mbCnt.toNat ≤ 16 →
    ((∀ i, i < s.mbCnt.toNat → (widthAt s.widths i).toNat ≤ 32) →
      exec .dHdrCheck s = .next { s with mbIdx := 0#5, fsm := .dUnpackingPayload })
    ∧ ∀ i, i < s.mbCnt.toNat → 32 < (widthAt s.widths i).toNat →
      exec .dHdrCheck s = .next { s with err := .streamCorrupt, fsm := .error }

/-- `D_UNPACK` (R218) is `SCHED_UNPACK` (R162). -/
def Obligations.DUnpackResult : Prop :=
  ∀ s : State, s.fsm = .dUnpackingPayload → s.mbIdx.toNat < s.mbCnt.toNat → s.mbCnt.toNat ≤ 16 →
    UnpackReady s s.inCur.toNat (s.outCur.toNat + 128 * s.mbIdx.toNat) (nextWidth s) →
    exec .dUnpack s = .next { s with
      mem := unpackedMem s s.inCur.toNat (s.outCur.toNat + 128 * s.mbIdx.toNat) (nextWidth s)
      inCur := BitVec.ofNat 33 (s.inCur.toNat + 4 * nextWidth s)
      mbIdx := BitVec.ofNat 5 (s.mbIdx.toNat + 1) }

/-- `D_BLOCK_END` (R219): the output cursor passes the block; a partial block ends the command, a full one is followed by block
selection (R215). -/
def Obligations.DBlockEndResult : Prop :=
  ∀ (s : State) (written : Nat), s.fsm = .dUnpackingPayload → s.mbIdx = s.mbCnt → s.mbCnt.toNat ≤ 16 →
    s.outCur.toNat + 128 * s.mbCnt.toNat ≤ Config.memWords →
    s.outCur.toNat + 128 * s.mbCnt.toNat = s.outBase.toNat + written →
    (s.mbCnt.toNat < 16 ∨ s.len.toNat ≤ written → exec .dBlockEnd s = .next { s with
        outCur := BitVec.ofNat 33 (s.outCur.toNat + 128 * s.mbCnt.toNat)
        nvalue := s.len
        fsm := .done })
    ∧ (s.mbCnt.toNat = 16 → written + 2048 ≤ s.len.toNat → exec .dBlockEnd s = .next { s with
        outCur := BitVec.ofNat 33 (s.outCur.toNat + 2048)
        hdrIdx := 0#3
        fsm := .dReadingHeader })
    ∧ (s.mbCnt.toNat = 16 → written < s.len.toNat → s.len.toNat < written + 2048 → exec .dBlockEnd s = .next { s with
        outCur := BitVec.ofNat 33 (s.outCur.toNat + 2048)
        mbCnt := BitVec.ofNat 5 ((s.len.toNat - written) / 128)
        hdrIdx := 0#3
        fsm := .dReadingHeader })

/-! ### Stream words (log 16) -/

/-- The micro-operation that reads or writes a stream word is the meaning of that word: what `D_PREFIX`, `D_PAD` and `D_HDR` do is
what the word at `IN_CUR`, decoded by its position, does, and `E_PREFIX`, `E_PAD` and `E_HDR` do what the word they emit
does (R92, R105). -/
def Obligations.StreamWordsAreMicroOperations : Prop :=
  ∀ s : State,
    (s.fsm = .dReadingPrefix → MayRead s s.inCur.toNat 1 → ∃ i,
      decode (.stream .lenWord) (Memory.readWord s.mem s.inCur.toNat) = .ok i ∧ exec .dPrefix s = exec i s)
    ∧ (s.fsm = .dSkippingPadding → s.inCur.toNat % 4 ≠ 0 → MayRead s s.inCur.toNat 1 → ∀ i,
      decode (.stream .padWord) (Memory.readWord s.mem s.inCur.toNat) = .ok i → exec .dPad s = exec i s)
    ∧ (s.fsm = .dReadingHeader → s.hdrIdx.toNat < 4 → MayRead s s.inCur.toNat 1 → ∃ i,
      decode (.stream .hdrWord) (Memory.readWord s.mem s.inCur.toNat) = .ok i ∧ exec .dHdr s = exec i s)
    ∧ (s.fsm = .eWritingPrefix → exec .ePrefix s = exec (.len s.len) s)
    ∧ (s.fsm = .eWritingPadding → s.outCur.toNat % 4 ≠ 0 → exec .ePad s = exec .pad s)
    ∧ (s.fsm = .eWritingHeader → s.hdrIdx.toNat < 4 → ∃ i,
      decode (.stream .hdrWord) (hdrWordOf s.widths s.hdrIdx.toNat) = .ok i ∧ exec .eHdr s = exec i s)

/-- `LEN` taken by the decoder (R93, R212). -/
def Obligations.LenWordResult : Prop :=
  ∀ (l : Word) (s : State), s.fsm = .dReadingPrefix → s.inCur.toNat + 1 ≤ Config.memWords → s.outCur.toNat % 4 = 0 →
    StreamApart s l.toNat → l.toNat ≤ s.outCap.toNat → l.toNat % 128 = 0 →
    s.outBase.toNat + l.toNat ≤ Config.memWords →
    exec (.len l) s = .next { s with
      len := l
      inCur := BitVec.ofNat 33 (s.inCur.toNat + 1)
      fsm := .dSkippingPadding }

/-- `PAD` accepted by the decoder (R94, R213) and emitted by the encoder (R184). -/
def Obligations.PadWordResult : Prop :=
  ∀ s : State,
    (s.fsm = .dSkippingPadding → s.inCur.toNat % 4 ≠ 0 → s.inCur.toNat + 1 ≤ Config.memWords →
      exec .pad s = .next { s with inCur := BitVec.ofNat 33 (s.inCur.toNat + 1) })
    ∧ (s.fsm = .eWritingPadding → s.outCur.toNat % 4 ≠ 0 → s.outCur.toNat - s.outBase.toNat + 1 ≤ s.outCap.toNat →
      MayWrite s s.outCur.toNat 1 →
      exec .pad s = .next { s with
        mem := Memory.storeWords s.mem s.outCur.toNat [0x0001E240#32]
        outCur := BitVec.ofNat 33 (s.outCur.toNat + 1) })

/-- `HDR` taken by the decoder (R95, R216): entries `4k` to `4k + 3` become the four fields, whatever their value. -/
def Obligations.HdrWordResult : Prop :=
  ∀ (a b c d : Byte) (s : State), s.fsm = .dReadingHeader → s.hdrIdx.toNat < 4 → s.inCur.toNat + 1 ≤ Config.memWords →
    ∃ v : Vector Byte 16,
      exec (.hdr a b c d) s = .next { s with
        widths := v
        inCur := BitVec.ofNat 33 (s.inCur.toNat + 1)
        hdrIdx := BitVec.ofNat 3 (s.hdrIdx.toNat + 1) }
      ∧ ∀ i, widthAt v i =
          if i = 4 * s.hdrIdx.toNat then a else if i = 4 * s.hdrIdx.toNat + 1 then b
          else if i = 4 * s.hdrIdx.toNat + 2 then c else if i = 4 * s.hdrIdx.toNat + 3 then d else widthAt s.widths i

/-- `PAYLOAD`: the engine does nothing with the word itself (R96). -/
def Obligations.PayloadWordResult : Prop := ∀ (data : Word) (s : State), exec (.payload data) s = .next s

/-! ### Steps -/

/-- When the engine moves, the step is `exec` of the micro-operation the decoder reads from the state code and the guard, on the state
with the turn spent (R29, R105); with no turns scheduled that is the state itself. Who moves and the spending of turns are the model's
interleaving (log 17). Where that micro-operation would touch a word outside the allocation it does not happen (R66): no step ends in
either stuck fault, the state stays as it is while the host has no statement pending, and a pending statement is run (log 5). -/
def Obligations.StepRunsEnabledMicroOperation : Prop :=
  (∀ (s : State) (g : Bool) (i : Instr), mover s = some .engine → uopGuard s = some g →
    decode (.uop g) ((fsmCode s.fsm).setWidth 32) = .ok i →
    step s = exec i (popTurn s) ∧ (s.turns = [] → popTurn s = s))
  ∧ (∀ s : State, step s ≠ .fault .stuckRead ∧ step s ≠ .fault .stuckWrite)
  ∧ ∀ (s : State) (g : Bool) (i : Instr), uopGuard s = some g → decode (.uop g) ((fsmCode s.fsm).setWidth 32) = .ok i →
    exec i (popTurn s) = .fault .stuckRead ∨ exec i (popTurn s) = .fault .stuckWrite →
    (s.host = [] → step s = .next s)
    ∧ ∀ (h : HostStmt) (rest : List HostStmt), s.host = h :: rest → step s = hostExec h { popTurn s with host := rest }

/-- When the host moves, the step is its first pending statement, taken from the list; a written command is then executed in
that step (R106, R240, R241). -/
def Obligations.StepRunsHostStatement : Prop :=
  ∀ (s : State) (h : HostStmt) (rest : List HostStmt), mover s = some .host → s.host = h :: rest →
    step s = hostExec h { popTurn s with host := rest }
    ∧ (h = .wr 0 1#32 → step s = exec .encode { popTurn s with host := rest })
    ∧ (h = .wr 0 2#32 → step s = exec .decode { popTurn s with host := rest })

/-- In a state that meets the invariant and is busy exactly one micro-operation is enabled: the one fetched; every other one is
not (R180, R210). -/
def Obligations.RunningStateHasOneMicroOperation : Prop :=
  ∀ s : State, EngineInv s → busy s = true →
    ∃ i, fetch s = some i ∧ ∀ (j : Instr) (g : Bool) (w : Word), encode j = some (.uop g, w) → j ≠ i →
      exec j s = .refused .notEnabled

/-! ### Invariants -/

/-- Every step keeps memory in its canonical form. -/
def Obligations.MemoryStaysCanonical : Prop :=
  ∀ s t : State, CanonicalMemory s → step s = .next t → CanonicalMemory t

/-- Every step keeps `ERR ≠ None` iff `fsm_state = Error` (R24). -/
def Obligations.ErrorRegisterMatchesState : Prop :=
  ∀ s t : State, ErrorRecorded s → step s = .next t → ErrorRecorded t

/-- Every step, of the engine or of the host, keeps the invariant of R39: bases and cursors, alignment at the headers and
payloads, lengths, the ranges of the indices in every state, widths. `mb_idx ≤ mb_cnt` of item 5 is claimed where the pseudocode
keeps it (log 24). -/
def Obligations.EngineInvariantKept : Prop :=
  ∀ s t : State, EngineInv s → step s = .next t → EngineInv t

/-- The state after reset meets the three invariants. -/
def Obligations.InvariantsHoldAtReset : Prop :=
  CanonicalMemory State.reset ∧ ErrorRecorded State.reset ∧ EngineInv State.reset

/-! ### Frames -/

/-- An operation leaves every register it is not listed as writing, for all 36 operations (R14: registers not named keep their
value). -/
def Obligations.RegisterFrame : Prop :=
  ∀ (i : Instr) (s t : State), exec i s = .next t → ∀ r : Reg, r ∉ writes i → sameReg r s t

/-- An operation leaves every byte of memory outside the words it stores to, for all 36 operations (R61). -/
def Obligations.MemoryFrame : Prop :=
  ∀ (i : Instr) (s t : State), exec i s = .next t →
    ∀ x : Nat, outside (storeRegion i s) x → Memory.readByte t.mem x = Memory.readByte s.mem x

/-- No operation writes an argument register (R28), the allocation or the host's own state, and `NVALUE` changes only on reaching
`Done` (R25). -/
def Obligations.ArgumentsAndResultFrame : Prop :=
  ∀ (i : Instr) (s t : State), exec i s = .next t →
    t.inBase = s.inBase ∧ t.inLen = s.inLen ∧ t.outBase = s.outBase ∧ t.outCap = s.outCap
    ∧ t.readable = s.readable ∧ t.writable = s.writable ∧ t.host = s.host ∧ t.turns = s.turns ∧ t.rdata = s.rdata
    ∧ t.mismatches = s.mismatches ∧ (t.nvalue = s.nvalue ∨ t.fsm = .done)
end

