-- ==== Sys2Proof/Laws/Header.lean ====
section
/-! SUPPORT. The width vector, its fields and the width of a miniblock. -/

namespace Sys2Proof.Machine

theorem widthAt_of_lt (b : Vector Byte 16) {i : Nat} (h : i < 16) : widthAt b i = b[i] := dif_pos h

@[simp] theorem widthAt_replicate (i : Nat) : widthAt (Vector.replicate 16 0#8) i = 0#8 := by
  unfold widthAt; split <;> simp

/-- Writing an entry changes that entry and no other. -/
theorem widthAt_setIfInBounds (b : Vector Byte 16) (k i : Nat) (x : Byte) (hk : k < 16) :
    widthAt (b.setIfInBounds k x) i = if i = k then x else widthAt b i := by
  unfold widthAt
  by_cases h : i < 16
  · rw [dif_pos h, dif_pos h, Vector.getElem_setIfInBounds]
    simp only [eq_comm]
  · rw [dif_neg h, dif_neg h, if_neg (by omega)]

/-- The four entries a header word writes (R134). -/
theorem widthAt_setFields (v : Vector Byte 16) (k i : Nat) (a b c d : Byte) (hk : k < 4) :
    widthAt (setFields v k a b c d) i =
      if i = 4 * k then a else if i = 4 * k + 1 then b else if i = 4 * k + 2 then c else if i = 4 * k + 3 then d
      else widthAt v i := by
  unfold setFields
  rw [widthAt_setIfInBounds _ _ _ _ (by omega), widthAt_setIfInBounds _ _ _ _ (by omega),
    widthAt_setIfInBounds _ _ _ _ (by omega), widthAt_setIfInBounds _ _ _ _ (by omega)]
  split_ifs <;> first | rfl | omega

/-- Shifting and masking a field out of a word is taking its eight bits (R134, R12). -/
theorem hdrField_eq_extract (w : Word) (n : Nat) : hdrField w n = w.extractLsb' n 8 := by
  refine BitVec.eq_of_getLsbD_eq fun i hi => ?_
  have hm : ∀ j (h : j < 8), (255#8)[j] = true := by decide
  simp [hdrField, BitVec.getLsbD_ushiftRight, hi, hm]

/-- Every value of a list is at most its maximum. -/
theorem le_maxWord {v : List Word} {w : Word} (h : w ∈ v) : w.toNat ≤ maxWord v := by
  have gen : ∀ (l : List Word) (m : Nat), m ≤ l.foldl (fun m w => max m w.toNat) m ∧
      ∀ w ∈ l, w.toNat ≤ l.foldl (fun m w => max m w.toNat) m := by
    intro l
    induction l with
    | nil => intro m; exact ⟨le_refl _, fun _ h => by cases h⟩
    | cons x l ih =>
      intro m
      obtain ⟨h1, h2⟩ := ih (max m x.toNat)
      rw [List.foldl_cons]
      refine ⟨le_trans (le_max_left _ _) h1, fun w hw => ?_⟩
      rcases List.mem_cons.1 hw with rfl | hw
      · exact le_trans (le_max_right _ _) h1
      · exact h2 w hw
  exact (gen v 0).2 w h

/-- The maximum is 0 or one of the values. -/
theorem maxWord_mem (v : List Word) : maxWord v = 0 ∨ ∃ w ∈ v, maxWord v = w.toNat := by
  have gen : ∀ (l : List Word) (m : Nat), l.foldl (fun m w => max m w.toNat) m = m ∨
      ∃ w ∈ l, l.foldl (fun m w => max m w.toNat) m = w.toNat := by
    intro l
    induction l with
    | nil => intro m; exact .inl rfl
    | cons x l ih =>
      intro m
      rw [List.foldl_cons]
      rcases ih (max m x.toNat) with h | ⟨w, hw, h⟩
      · rcases le_total m x.toNat with hm | hm
        · exact .inr ⟨x, by simp, by rw [h, max_eq_right hm]⟩
        · exact .inl (by rw [h, max_eq_left hm])
      · exact .inr ⟨w, by simp [hw], h⟩
  exact gen v 0

/-- A width is at most 32 (R130). -/
theorem maxbitsOf_le (v : List Word) : maxbitsOf v ≤ 32 := by
  unfold maxbitsOf
  split
  · omega
  · rename_i h
    have hlt : maxWord v < 2 ^ 32 := by
      rcases maxWord_mem v with h0 | ⟨w, -, h0⟩
      · omega
      · rw [h0]; exact w.isLt
    have := (Nat.log2_lt h).2 hlt
    omega

/-- `width_ok` examines the present miniblocks only (R136). -/
theorem widthOk_iff (b : Vector Byte 16) (cnt : Nat) :
    widthOk b cnt = true ↔ ∀ i, i < 16 → i < cnt → (widthAt b i).toNat ≤ 32 := by
  simp only [widthOk, List.all_eq_true, List.mem_range, decide_eq_true_eq]

end Sys2Proof.Machine
end

