-- ==== Sys2Proof/Laws/Memory.lean ====
section
/-! SUPPORT. Memory: a read after a store gives what was stored, every other byte is as before, and a store keeps the canonical
form. -/

namespace Sys2Proof.Machine

/-! ### Bytes -/

@[simp] theorem Memory.readByte_nil (a : Nat) : Memory.readByte [] a = 0#8 := rfl

theorem Memory.readByte_cons (k : Nat) (b : Byte) (m : List Host.Cell) (a : Nat) :
    Memory.readByte ((k, b) :: m) a = if k = a then b else Memory.readByte m a := rfl

/-- An address no cell lists reads as 0. -/
theorem Memory.readByte_eq_zero {m : List Host.Cell} {a : Nat} (h : ∀ c ∈ m, c.1 ≠ a) : Memory.readByte m a = 0#8 := by
  induction m with
  | nil => rfl
  | cons c m ih =>
    obtain ⟨k, b⟩ := c
    rw [Memory.readByte_cons, if_neg (h (k, b) (by simp)), ih fun c hc => h c (by simp [hc])]

/-- The first list decides an address it lists; else the second does. -/
theorem Memory.readByte_append_of_not_mem {m n : List Host.Cell} {a : Nat} (h : ∀ c ∈ m, c.1 ≠ a) :
    Memory.readByte (m ++ n) a = Memory.readByte n a := by
  induction m with
  | nil => rfl
  | cons c m ih =>
    obtain ⟨k, b⟩ := c
    rw [List.cons_append, Memory.readByte_cons, if_neg (h (k, b) (by simp)), ih fun c hc => h c (by simp [hc])]

theorem Memory.readByte_append_of_second {m n : List Host.Cell} {a : Nat} (h : ∀ c ∈ n, c.1 ≠ a) :
    Memory.readByte (m ++ n) a = Memory.readByte m a := by
  induction m with
  | nil => exact Memory.readByte_eq_zero h
  | cons c m ih =>
    obtain ⟨k, b⟩ := c
    rw [List.cons_append, Memory.readByte_cons, Memory.readByte_cons, ih]

/-- Dropping cells that do not list the address changes nothing there. -/
theorem Memory.readByte_filter {m : List Host.Cell} {a : Nat} {p : Host.Cell → Bool} (h : ∀ b, p (a, b) = true) :
    Memory.readByte (m.filter p) a = Memory.readByte m a := by
  induction m with
  | nil => rfl
  | cons c m ih =>
    obtain ⟨k, b⟩ := c
    by_cases hk : k = a
    · subst hk; rw [List.filter_cons_of_pos (h b), Memory.readByte_cons, Memory.readByte_cons, if_pos rfl, if_pos rfl]
    · by_cases hp : p (k, b) = true
      · rw [List.filter_cons_of_pos hp, Memory.readByte_cons, Memory.readByte_cons, if_neg hk, if_neg hk, ih]
      · rw [List.filter_cons_of_neg hp, Memory.readByte_cons, if_neg hk, ih]

/-- The cells of a run of bytes lie at their addresses, and none holds 0. -/
theorem Memory.mem_cellsFrom {bs : List Byte} {a : Nat} {c : Host.Cell} (h : c ∈ Memory.cellsFrom a bs) :
    a ≤ c.1 ∧ c.1 < a + bs.length ∧ c.2 ≠ 0#8 := by
  induction bs generalizing a with
  | nil => cases h
  | cons b bs ih =>
    rw [Memory.cellsFrom] at h
    split at h
    · obtain ⟨h1, h2, h3⟩ := ih h; exact ⟨by omega, by simp; omega, h3⟩
    · rcases List.mem_cons.1 h with rfl | h
      · exact ⟨le_refl _, by simp, by assumption⟩
      · obtain ⟨h1, h2, h3⟩ := ih h; exact ⟨by omega, by simp; omega, h3⟩

theorem Memory.readByte_cellsFrom (bs : List Byte) (a x : Nat) (h : a ≤ x) :
    Memory.readByte (Memory.cellsFrom a bs) x = bs.getD (x - a) 0#8 := by
  induction bs generalizing a with
  | nil => simp [Memory.cellsFrom]
  | cons b bs ih =>
    rw [Memory.cellsFrom]
    rcases Nat.eq_or_lt_of_le h with rfl | hlt
    · have hz : Memory.readByte (Memory.cellsFrom (a + 1) bs) a = 0#8 :=
        Memory.readByte_eq_zero fun c hc => by have := Memory.mem_cellsFrom hc; omega
      split
      · simp_all
      · simp [Memory.readByte_cons]
    · have hx : x - a = (x - (a + 1)) + 1 := by omega
      rw [hx, List.getD_cons_succ]
      split
      · exact ih (a + 1) hlt
      · rw [Memory.readByte_cons, if_neg (by omega), ih (a + 1) hlt]

/-- A store changes no byte outside the run it stores to. -/
theorem Memory.readByte_storeBytes_outside {m : List Host.Cell} {a x : Nat} {bs : List Byte}
    (h : x < a ∨ a + bs.length ≤ x) : Memory.readByte (Memory.storeBytes m a bs) x = Memory.readByte m x := by
  unfold Memory.storeBytes
  rcases h with h | h
  · rw [Memory.readByte_append_of_second, Memory.readByte_filter]
    · intro b; simpa using h
    · intro c hc
      rcases List.mem_append.1 hc with hc | hc
      · have := Memory.mem_cellsFrom hc; omega
      · have := (List.mem_filter.1 hc).2; simp at this; omega
  · rw [Memory.readByte_append_of_not_mem, Memory.readByte_append_of_not_mem, Memory.readByte_filter]
    · intro b; simpa using h
    · intro c hc; have := Memory.mem_cellsFrom hc; omega
    · intro c hc; have := (List.mem_filter.1 hc).2; simp at this; omega

/-- A byte of the run reads as what was stored. -/
theorem Memory.readByte_storeBytes_inside {m : List Host.Cell} {a x : Nat} {bs : List Byte}
    (h1 : a ≤ x) (h2 : x < a + bs.length) : Memory.readByte (Memory.storeBytes m a bs) x = bs.getD (x - a) 0#8 := by
  unfold Memory.storeBytes
  rw [Memory.readByte_append_of_not_mem, Memory.readByte_append_of_second, Memory.readByte_cellsFrom _ _ _ h1]
  · intro c hc; have := (List.mem_filter.1 hc).2; simp at this; omega
  · intro c hc; have := (List.mem_filter.1 hc).2; simp at this; omega

/-! ### Canonical form -/

theorem Memory.pairwise_cellsFrom (bs : List Byte) (a : Nat) :
    (Memory.cellsFrom a bs).Pairwise (fun c d => c.1 < d.1) := by
  induction bs generalizing a with
  | nil => exact List.Pairwise.nil
  | cons b bs ih =>
    rw [Memory.cellsFrom]
    split
    · exact ih _
    · exact List.pairwise_cons.2 ⟨fun c hc => by have := Memory.mem_cellsFrom hc; show a < c.1; omega, ih _⟩

/-- A store inside the address space keeps the canonical form. -/
theorem Memory.wf_storeBytes {m : List Host.Cell} {a : Nat} {bs : List Byte} (hm : Memory.wf m)
    (h : a + bs.length ≤ 4 * Config.memWords) : Memory.wf (Memory.storeBytes m a bs) := by
  obtain ⟨hp, hc⟩ := hm
  refine ⟨?_, ?_⟩
  · refine List.pairwise_append.2 ⟨hp.filter _, List.pairwise_append.2 ⟨Memory.pairwise_cellsFrom _ _, hp.filter _, ?_⟩, ?_⟩
    · intro c hc1 d hd
      have h1 := Memory.mem_cellsFrom hc1
      have h2 := (List.mem_filter.1 hd).2
      simp at h2; omega
    · intro c hc1 d hd
      have h1 := (List.mem_filter.1 hc1).2
      simp at h1
      rcases List.mem_append.1 hd with hd | hd
      · have := Memory.mem_cellsFrom hd; omega
      · have h2 := (List.mem_filter.1 hd).2; simp at h2; omega
  · intro c hcm
    rcases List.mem_append.1 hcm with h1 | h1
    · exact hc c (List.mem_filter.1 h1).1
    · rcases List.mem_append.1 h1 with h2 | h2
      · have := Memory.mem_cellsFrom h2; exact ⟨this.2.2, by omega⟩
      · exact hc c (List.mem_filter.1 h2).1

/-! ### Words -/

/-- A word is the word of its bytes (log 1: the byte order is a bijection, so no rule sees it). -/
theorem bytesWord_wordBytes (w : Word) :
    bytesWord (w.extractLsb' 0 8) (w.extractLsb' 8 8) (w.extractLsb' 16 8) (w.extractLsb' 24 8) = w := by
  unfold bytesWord
  ext i hi
  simp only [BitVec.getElem_append, BitVec.getElem_extractLsb']
  split
  · simp [*, ← BitVec.getLsbD_eq_getElem]
  · split
    · rw [← BitVec.getLsbD_eq_getElem]; congr 1; omega
    · split
      · rw [← BitVec.getLsbD_eq_getElem]; congr 1; omega
      · rw [← BitVec.getLsbD_eq_getElem]; congr 1; omega

@[simp] theorem wordBytes_length (w : Word) : (wordBytes w).length = 4 := rfl

theorem flatMap_wordBytes_length (ws : List Word) : (ws.flatMap wordBytes).length = 4 * ws.length := by
  induction ws with
  | nil => rfl
  | cons w ws ih => rw [List.flatMap_cons, List.length_append, ih, wordBytes_length, List.length_cons]; omega

/-- Byte `4j + i` of a list of words is byte `i` of word `j`. -/
theorem flatMap_wordBytes_getD (ws : List Word) (j i : Nat) (hj : j < ws.length) (hi : i < 4) :
    (ws.flatMap wordBytes).getD (4 * j + i) 0#8 = (wordBytes (ws.getD j 0#32)).getD i 0#8 := by
  induction ws generalizing j with
  | nil => simp at hj
  | cons w ws ih =>
    rw [List.flatMap_cons]
    cases j with
    | zero => rw [List.getD_append _ _ _ _ (by simpa using hi)]; simp
    | succ j =>
      rw [List.getD_append_right _ _ _ _ (by simp; omega), wordBytes_length, show 4 * (j + 1) + i - 4 = 4 * j + i by omega,
        ih j (by simpa using hj), List.getD_cons_succ]

/-- A store of words changes no byte outside them. -/
theorem Memory.readByte_storeWords_outside {m : List Host.Cell} {a x : Nat} {ws : List Word}
    (h : x < 4 * a ∨ 4 * (a + ws.length) ≤ x) : Memory.readByte (Memory.storeWords m a ws) x = Memory.readByte m x := by
  unfold Memory.storeWords
  refine Memory.readByte_storeBytes_outside ?_
  rw [flatMap_wordBytes_length]; omega

/-- A store of words changes no word outside them. -/
theorem Memory.readWord_storeWords_outside {m : List Host.Cell} {a x : Nat} {ws : List Word}
    (h : x < a ∨ a + ws.length ≤ x) : Memory.readWord (Memory.storeWords m a ws) x = Memory.readWord m x := by
  unfold Memory.readWord
  congr 1 <;> exact Memory.readByte_storeWords_outside (by omega)

/-- A stored word reads as itself. -/
theorem Memory.readWord_storeWords_inside {m : List Host.Cell} {a j : Nat} {ws : List Word} (hj : j < ws.length) :
    Memory.readWord (Memory.storeWords m a ws) (a + j) = ws.getD j 0#32 := by
  have key : ∀ i, i < 4 → Memory.readByte (Memory.storeWords m a ws) (4 * (a + j) + i)
      = (wordBytes (ws.getD j 0#32)).getD i 0#8 := by
    intro i hi
    unfold Memory.storeWords
    rw [Memory.readByte_storeBytes_inside (by omega) (by rw [flatMap_wordBytes_length]; omega),
      show 4 * (a + j) + i - 4 * a = 4 * j + i by omega, flatMap_wordBytes_getD _ _ _ hj hi]
  unfold Memory.readWord
  rw [show 4 * (a + j) = 4 * (a + j) + 0 by omega, key 0 (by omega), show 4 * (a + j) + 0 + 1 = 4 * (a + j) + 1 by omega,
    key 1 (by omega), show 4 * (a + j) + 0 + 2 = 4 * (a + j) + 2 by omega, key 2 (by omega),
    show 4 * (a + j) + 0 + 3 = 4 * (a + j) + 3 by omega, key 3 (by omega)]
  exact bytesWord_wordBytes _

@[simp] theorem Memory.readWords_length (m : List Host.Cell) (a n : Nat) : (Memory.readWords m a n).length = n := by
  simp [Memory.readWords]

@[simp] theorem Memory.readWords_one (m : List Host.Cell) (a : Nat) : Memory.readWords m a 1 = [Memory.readWord m a] := rfl

/-- What was stored is read back. -/
theorem Memory.readWords_storeWords (m : List Host.Cell) (a : Nat) (ws : List Word) :
    Memory.readWords (Memory.storeWords m a ws) a ws.length = ws := by
  refine List.ext_getElem (by simp) fun j h1 h2 => ?_
  simp only [Memory.readWords, List.getElem_map, List.getElem_range]
  rw [Memory.readWord_storeWords_inside h2, List.getD_eq_getElem _ _ h2]

/-- Words apart from the stored ones are read as before. -/
theorem Memory.readWords_storeWords_apart {m : List Host.Cell} {a b n : Nat} {ws : List Word}
    (h : b + n ≤ a ∨ a + ws.length ≤ b) : Memory.readWords (Memory.storeWords m a ws) b n = Memory.readWords m b n := by
  unfold Memory.readWords
  refine List.map_congr_left fun j hj => Memory.readWord_storeWords_outside ?_
  have := List.mem_range.1 hj
  omega

/-- A store of words inside the address space keeps the canonical form. -/
theorem Memory.wf_storeWords {m : List Host.Cell} {a : Nat} {ws : List Word} (hm : Memory.wf m)
    (h : a + ws.length ≤ Config.memWords) : Memory.wf (Memory.storeWords m a ws) := by
  refine Memory.wf_storeBytes hm ?_
  rw [flatMap_wordBytes_length]; omega

/-- Memory after reset is canonical. -/
theorem Memory.wf_reset : Memory.wf State.reset.mem := ⟨List.Pairwise.nil, fun _ h => by cases h⟩

end Sys2Proof.Machine
end

