-- ==== Sys2Proof/Laws/State.lean ====
section
/-! SUPPORT. One lemma for each field and each named update of the state: what the update leaves there. With them no later proof
unfolds a record update. -/

namespace Sys2Proof.Machine

/-! ### raise -/

@[simp] theorem raise_inBase (k : ErrKind) (s : State) : (raise k s).inBase = s.inBase := rfl
@[simp] theorem raise_inLen (k : ErrKind) (s : State) : (raise k s).inLen = s.inLen := rfl
@[simp] theorem raise_outBase (k : ErrKind) (s : State) : (raise k s).outBase = s.outBase := rfl
@[simp] theorem raise_outCap (k : ErrKind) (s : State) : (raise k s).outCap = s.outCap := rfl
@[simp] theorem raise_err (k : ErrKind) (s : State) : (raise k s).err = k := rfl
@[simp] theorem raise_nvalue (k : ErrKind) (s : State) : (raise k s).nvalue = s.nvalue := rfl
@[simp] theorem raise_inCur (k : ErrKind) (s : State) : (raise k s).inCur = s.inCur := rfl
@[simp] theorem raise_outCur (k : ErrKind) (s : State) : (raise k s).outCur = s.outCur := rfl
@[simp] theorem raise_fsm (k : ErrKind) (s : State) : (raise k s).fsm = .error := rfl
@[simp] theorem raise_lastOp (k : ErrKind) (s : State) : (raise k s).lastOp = s.lastOp := rfl
@[simp] theorem raise_len (k : ErrKind) (s : State) : (raise k s).len = s.len := rfl
@[simp] theorem raise_hdrIdx (k : ErrKind) (s : State) : (raise k s).hdrIdx = s.hdrIdx := rfl
@[simp] theorem raise_mbIdx (k : ErrKind) (s : State) : (raise k s).mbIdx = s.mbIdx := rfl
@[simp] theorem raise_mbCnt (k : ErrKind) (s : State) : (raise k s).mbCnt = s.mbCnt := rfl
@[simp] theorem raise_widths (k : ErrKind) (s : State) : (raise k s).widths = s.widths := rfl
@[simp] theorem raise_mem (k : ErrKind) (s : State) : (raise k s).mem = s.mem := rfl
@[simp] theorem raise_readable (k : ErrKind) (s : State) : (raise k s).readable = s.readable := rfl
@[simp] theorem raise_writable (k : ErrKind) (s : State) : (raise k s).writable = s.writable := rfl
@[simp] theorem raise_host (k : ErrKind) (s : State) : (raise k s).host = s.host := rfl
@[simp] theorem raise_turns (k : ErrKind) (s : State) : (raise k s).turns = s.turns := rfl
@[simp] theorem raise_rdata (k : ErrKind) (s : State) : (raise k s).rdata = s.rdata := rfl
@[simp] theorem raise_mismatches (k : ErrKind) (s : State) : (raise k s).mismatches = s.mismatches := rfl
@[simp] theorem raise_funcOut (k : ErrKind) (s : State) : (raise k s).funcOut = s.funcOut := rfl

/-! ### startCommand -/

@[simp] theorem startCommand_inBase (op : BitVec 1) (st : FsmState) (s : State) : (startCommand op st s).inBase = s.inBase := rfl
@[simp] theorem startCommand_inLen (op : BitVec 1) (st : FsmState) (s : State) : (startCommand op st s).inLen = s.inLen := rfl
@[simp] theorem startCommand_outBase (op : BitVec 1) (st : FsmState) (s : State) : (startCommand op st s).outBase = s.outBase := rfl
@[simp] theorem startCommand_outCap (op : BitVec 1) (st : FsmState) (s : State) : (startCommand op st s).outCap = s.outCap := rfl
@[simp] theorem startCommand_err (op : BitVec 1) (st : FsmState) (s : State) : (startCommand op st s).err = .none := rfl
@[simp] theorem startCommand_nvalue (op : BitVec 1) (st : FsmState) (s : State) : (startCommand op st s).nvalue = s.nvalue := rfl
@[simp] theorem startCommand_inCur (op : BitVec 1) (st : FsmState) (s : State) : (startCommand op st s).inCur = s.inBase.setWidth 33 := rfl
@[simp] theorem startCommand_outCur (op : BitVec 1) (st : FsmState) (s : State) : (startCommand op st s).outCur = s.outBase.setWidth 33 := rfl
@[simp] theorem startCommand_fsm (op : BitVec 1) (st : FsmState) (s : State) : (startCommand op st s).fsm = st := rfl
@[simp] theorem startCommand_lastOp (op : BitVec 1) (st : FsmState) (s : State) : (startCommand op st s).lastOp = op := rfl
@[simp] theorem startCommand_len (op : BitVec 1) (st : FsmState) (s : State) : (startCommand op st s).len = s.len := rfl
@[simp] theorem startCommand_hdrIdx (op : BitVec 1) (st : FsmState) (s : State) : (startCommand op st s).hdrIdx = s.hdrIdx := rfl
@[simp] theorem startCommand_mbIdx (op : BitVec 1) (st : FsmState) (s : State) : (startCommand op st s).mbIdx = s.mbIdx := rfl
@[simp] theorem startCommand_mbCnt (op : BitVec 1) (st : FsmState) (s : State) : (startCommand op st s).mbCnt = s.mbCnt := rfl
@[simp] theorem startCommand_widths (op : BitVec 1) (st : FsmState) (s : State) : (startCommand op st s).widths = s.widths := rfl
@[simp] theorem startCommand_mem (op : BitVec 1) (st : FsmState) (s : State) : (startCommand op st s).mem = s.mem := rfl
@[simp] theorem startCommand_readable (op : BitVec 1) (st : FsmState) (s : State) : (startCommand op st s).readable = s.readable := rfl
@[simp] theorem startCommand_writable (op : BitVec 1) (st : FsmState) (s : State) : (startCommand op st s).writable = s.writable := rfl
@[simp] theorem startCommand_host (op : BitVec 1) (st : FsmState) (s : State) : (startCommand op st s).host = s.host := rfl
@[simp] theorem startCommand_turns (op : BitVec 1) (st : FsmState) (s : State) : (startCommand op st s).turns = s.turns := rfl
@[simp] theorem startCommand_rdata (op : BitVec 1) (st : FsmState) (s : State) : (startCommand op st s).rdata = s.rdata := rfl
@[simp] theorem startCommand_mismatches (op : BitVec 1) (st : FsmState) (s : State) : (startCommand op st s).mismatches = s.mismatches := rfl
@[simp] theorem startCommand_funcOut (op : BitVec 1) (st : FsmState) (s : State) : (startCommand op st s).funcOut = s.funcOut := rfl

/-! ### finish -/

@[simp] theorem finish_inBase (n : Nat) (s : State) : (finish n s).inBase = s.inBase := rfl
@[simp] theorem finish_inLen (n : Nat) (s : State) : (finish n s).inLen = s.inLen := rfl
@[simp] theorem finish_outBase (n : Nat) (s : State) : (finish n s).outBase = s.outBase := rfl
@[simp] theorem finish_outCap (n : Nat) (s : State) : (finish n s).outCap = s.outCap := rfl
@[simp] theorem finish_err (n : Nat) (s : State) : (finish n s).err = s.err := rfl
@[simp] theorem finish_nvalue (n : Nat) (s : State) : (finish n s).nvalue = BitVec.ofNat 32 n := rfl
@[simp] theorem finish_inCur (n : Nat) (s : State) : (finish n s).inCur = s.inCur := rfl
@[simp] theorem finish_outCur (n : Nat) (s : State) : (finish n s).outCur = s.outCur := rfl
@[simp] theorem finish_fsm (n : Nat) (s : State) : (finish n s).fsm = .done := rfl
@[simp] theorem finish_lastOp (n : Nat) (s : State) : (finish n s).lastOp = s.lastOp := rfl
@[simp] theorem finish_len (n : Nat) (s : State) : (finish n s).len = s.len := rfl
@[simp] theorem finish_hdrIdx (n : Nat) (s : State) : (finish n s).hdrIdx = s.hdrIdx := rfl
@[simp] theorem finish_mbIdx (n : Nat) (s : State) : (finish n s).mbIdx = s.mbIdx := rfl
@[simp] theorem finish_mbCnt (n : Nat) (s : State) : (finish n s).mbCnt = s.mbCnt := rfl
@[simp] theorem finish_widths (n : Nat) (s : State) : (finish n s).widths = s.widths := rfl
@[simp] theorem finish_mem (n : Nat) (s : State) : (finish n s).mem = s.mem := rfl
@[simp] theorem finish_readable (n : Nat) (s : State) : (finish n s).readable = s.readable := rfl
@[simp] theorem finish_writable (n : Nat) (s : State) : (finish n s).writable = s.writable := rfl
@[simp] theorem finish_host (n : Nat) (s : State) : (finish n s).host = s.host := rfl
@[simp] theorem finish_turns (n : Nat) (s : State) : (finish n s).turns = s.turns := rfl
@[simp] theorem finish_rdata (n : Nat) (s : State) : (finish n s).rdata = s.rdata := rfl
@[simp] theorem finish_mismatches (n : Nat) (s : State) : (finish n s).mismatches = s.mismatches := rfl
@[simp] theorem finish_funcOut (n : Nat) (s : State) : (finish n s).funcOut = s.funcOut := rfl

/-! ### nextMiniblock -/

@[simp] theorem nextMiniblock_inBase (s : State) : (nextMiniblock s).inBase = s.inBase := rfl
@[simp] theorem nextMiniblock_inLen (s : State) : (nextMiniblock s).inLen = s.inLen := rfl
@[simp] theorem nextMiniblock_outBase (s : State) : (nextMiniblock s).outBase = s.outBase := rfl
@[simp] theorem nextMiniblock_outCap (s : State) : (nextMiniblock s).outCap = s.outCap := rfl
@[simp] theorem nextMiniblock_err (s : State) : (nextMiniblock s).err = s.err := rfl
@[simp] theorem nextMiniblock_nvalue (s : State) : (nextMiniblock s).nvalue = s.nvalue := rfl
@[simp] theorem nextMiniblock_inCur (s : State) : (nextMiniblock s).inCur = s.inCur := rfl
@[simp] theorem nextMiniblock_outCur (s : State) : (nextMiniblock s).outCur = s.outCur := rfl
@[simp] theorem nextMiniblock_fsm (s : State) : (nextMiniblock s).fsm = s.fsm := rfl
@[simp] theorem nextMiniblock_lastOp (s : State) : (nextMiniblock s).lastOp = s.lastOp := rfl
@[simp] theorem nextMiniblock_len (s : State) : (nextMiniblock s).len = s.len := rfl
@[simp] theorem nextMiniblock_hdrIdx (s : State) : (nextMiniblock s).hdrIdx = s.hdrIdx := rfl
@[simp] theorem nextMiniblock_mbIdx (s : State) : (nextMiniblock s).mbIdx = s.mbIdx + 1#5 := rfl
@[simp] theorem nextMiniblock_mbCnt (s : State) : (nextMiniblock s).mbCnt = s.mbCnt := rfl
@[simp] theorem nextMiniblock_widths (s : State) : (nextMiniblock s).widths = s.widths := rfl
@[simp] theorem nextMiniblock_mem (s : State) : (nextMiniblock s).mem = s.mem := rfl
@[simp] theorem nextMiniblock_readable (s : State) : (nextMiniblock s).readable = s.readable := rfl
@[simp] theorem nextMiniblock_writable (s : State) : (nextMiniblock s).writable = s.writable := rfl
@[simp] theorem nextMiniblock_host (s : State) : (nextMiniblock s).host = s.host := rfl
@[simp] theorem nextMiniblock_turns (s : State) : (nextMiniblock s).turns = s.turns := rfl
@[simp] theorem nextMiniblock_rdata (s : State) : (nextMiniblock s).rdata = s.rdata := rfl
@[simp] theorem nextMiniblock_mismatches (s : State) : (nextMiniblock s).mismatches = s.mismatches := rfl
@[simp] theorem nextMiniblock_funcOut (s : State) : (nextMiniblock s).funcOut = s.funcOut := rfl

/-! ### popTurn -/

@[simp] theorem popTurn_inBase (s : State) : (popTurn s).inBase = s.inBase := rfl
@[simp] theorem popTurn_inLen (s : State) : (popTurn s).inLen = s.inLen := rfl
@[simp] theorem popTurn_outBase (s : State) : (popTurn s).outBase = s.outBase := rfl
@[simp] theorem popTurn_outCap (s : State) : (popTurn s).outCap = s.outCap := rfl
@[simp] theorem popTurn_err (s : State) : (popTurn s).err = s.err := rfl
@[simp] theorem popTurn_nvalue (s : State) : (popTurn s).nvalue = s.nvalue := rfl
@[simp] theorem popTurn_inCur (s : State) : (popTurn s).inCur = s.inCur := rfl
@[simp] theorem popTurn_outCur (s : State) : (popTurn s).outCur = s.outCur := rfl
@[simp] theorem popTurn_fsm (s : State) : (popTurn s).fsm = s.fsm := rfl
@[simp] theorem popTurn_lastOp (s : State) : (popTurn s).lastOp = s.lastOp := rfl
@[simp] theorem popTurn_len (s : State) : (popTurn s).len = s.len := rfl
@[simp] theorem popTurn_hdrIdx (s : State) : (popTurn s).hdrIdx = s.hdrIdx := rfl
@[simp] theorem popTurn_mbIdx (s : State) : (popTurn s).mbIdx = s.mbIdx := rfl
@[simp] theorem popTurn_mbCnt (s : State) : (popTurn s).mbCnt = s.mbCnt := rfl
@[simp] theorem popTurn_widths (s : State) : (popTurn s).widths = s.widths := rfl
@[simp] theorem popTurn_mem (s : State) : (popTurn s).mem = s.mem := rfl
@[simp] theorem popTurn_readable (s : State) : (popTurn s).readable = s.readable := rfl
@[simp] theorem popTurn_writable (s : State) : (popTurn s).writable = s.writable := rfl
@[simp] theorem popTurn_host (s : State) : (popTurn s).host = s.host := rfl
@[simp] theorem popTurn_turns (s : State) : (popTurn s).turns = s.turns.tail := rfl
@[simp] theorem popTurn_rdata (s : State) : (popTurn s).rdata = s.rdata := rfl
@[simp] theorem popTurn_mismatches (s : State) : (popTurn s).mismatches = s.mismatches := rfl
@[simp] theorem popTurn_funcOut (s : State) : (popTurn s).funcOut = s.funcOut := rfl

/-! ### resetEngine -/

@[simp] theorem resetEngine_inBase (s : State) : (resetEngine s).inBase = State.reset.inBase := rfl
@[simp] theorem resetEngine_inLen (s : State) : (resetEngine s).inLen = State.reset.inLen := rfl
@[simp] theorem resetEngine_outBase (s : State) : (resetEngine s).outBase = State.reset.outBase := rfl
@[simp] theorem resetEngine_outCap (s : State) : (resetEngine s).outCap = State.reset.outCap := rfl
@[simp] theorem resetEngine_err (s : State) : (resetEngine s).err = State.reset.err := rfl
@[simp] theorem resetEngine_nvalue (s : State) : (resetEngine s).nvalue = State.reset.nvalue := rfl
@[simp] theorem resetEngine_inCur (s : State) : (resetEngine s).inCur = State.reset.inCur := rfl
@[simp] theorem resetEngine_outCur (s : State) : (resetEngine s).outCur = State.reset.outCur := rfl
@[simp] theorem resetEngine_fsm (s : State) : (resetEngine s).fsm = State.reset.fsm := rfl
@[simp] theorem resetEngine_lastOp (s : State) : (resetEngine s).lastOp = State.reset.lastOp := rfl
@[simp] theorem resetEngine_len (s : State) : (resetEngine s).len = State.reset.len := rfl
@[simp] theorem resetEngine_hdrIdx (s : State) : (resetEngine s).hdrIdx = State.reset.hdrIdx := rfl
@[simp] theorem resetEngine_mbIdx (s : State) : (resetEngine s).mbIdx = State.reset.mbIdx := rfl
@[simp] theorem resetEngine_mbCnt (s : State) : (resetEngine s).mbCnt = State.reset.mbCnt := rfl
@[simp] theorem resetEngine_widths (s : State) : (resetEngine s).widths = State.reset.widths := rfl
@[simp] theorem resetEngine_mem (s : State) : (resetEngine s).mem = s.mem := rfl
@[simp] theorem resetEngine_readable (s : State) : (resetEngine s).readable = s.readable := rfl
@[simp] theorem resetEngine_writable (s : State) : (resetEngine s).writable = s.writable := rfl
@[simp] theorem resetEngine_host (s : State) : (resetEngine s).host = s.host := rfl
@[simp] theorem resetEngine_turns (s : State) : (resetEngine s).turns = s.turns := rfl
@[simp] theorem resetEngine_rdata (s : State) : (resetEngine s).rdata = s.rdata := rfl
@[simp] theorem resetEngine_mismatches (s : State) : (resetEngine s).mismatches = s.mismatches := rfl
@[simp] theorem resetEngine_funcOut (s : State) : (resetEngine s).funcOut = State.reset.funcOut := rfl

/-! ### expect -/

@[simp] theorem expect_inBase (b : Bool) (s : State) : (expect s b).inBase = s.inBase := rfl
@[simp] theorem expect_inLen (b : Bool) (s : State) : (expect s b).inLen = s.inLen := rfl
@[simp] theorem expect_outBase (b : Bool) (s : State) : (expect s b).outBase = s.outBase := rfl
@[simp] theorem expect_outCap (b : Bool) (s : State) : (expect s b).outCap = s.outCap := rfl
@[simp] theorem expect_err (b : Bool) (s : State) : (expect s b).err = s.err := rfl
@[simp] theorem expect_nvalue (b : Bool) (s : State) : (expect s b).nvalue = s.nvalue := rfl
@[simp] theorem expect_inCur (b : Bool) (s : State) : (expect s b).inCur = s.inCur := rfl
@[simp] theorem expect_outCur (b : Bool) (s : State) : (expect s b).outCur = s.outCur := rfl
@[simp] theorem expect_fsm (b : Bool) (s : State) : (expect s b).fsm = s.fsm := rfl
@[simp] theorem expect_lastOp (b : Bool) (s : State) : (expect s b).lastOp = s.lastOp := rfl
@[simp] theorem expect_len (b : Bool) (s : State) : (expect s b).len = s.len := rfl
@[simp] theorem expect_hdrIdx (b : Bool) (s : State) : (expect s b).hdrIdx = s.hdrIdx := rfl
@[simp] theorem expect_mbIdx (b : Bool) (s : State) : (expect s b).mbIdx = s.mbIdx := rfl
@[simp] theorem expect_mbCnt (b : Bool) (s : State) : (expect s b).mbCnt = s.mbCnt := rfl
@[simp] theorem expect_widths (b : Bool) (s : State) : (expect s b).widths = s.widths := rfl
@[simp] theorem expect_mem (b : Bool) (s : State) : (expect s b).mem = s.mem := rfl
@[simp] theorem expect_readable (b : Bool) (s : State) : (expect s b).readable = s.readable := rfl
@[simp] theorem expect_writable (b : Bool) (s : State) : (expect s b).writable = s.writable := rfl
@[simp] theorem expect_host (b : Bool) (s : State) : (expect s b).host = s.host := rfl
@[simp] theorem expect_turns (b : Bool) (s : State) : (expect s b).turns = s.turns := rfl
@[simp] theorem expect_rdata (b : Bool) (s : State) : (expect s b).rdata = s.rdata := rfl
@[simp] theorem expect_mismatches (b : Bool) (s : State) : (expect s b).mismatches = s.mismatches + (if b then 0 else 1) := rfl
@[simp] theorem expect_funcOut (b : Bool) (s : State) : (expect s b).funcOut = s.funcOut := rfl

/-! ### nextHeader: the fields no branch writes -/

@[simp] theorem nextHeader_inBase (s : State) : (nextHeader s).inBase = s.inBase := by
  unfold nextHeader; repeat' split
  all_goals rfl
@[simp] theorem nextHeader_inLen (s : State) : (nextHeader s).inLen = s.inLen := by
  unfold nextHeader; repeat' split
  all_goals rfl
@[simp] theorem nextHeader_outBase (s : State) : (nextHeader s).outBase = s.outBase := by
  unfold nextHeader; repeat' split
  all_goals rfl
@[simp] theorem nextHeader_outCap (s : State) : (nextHeader s).outCap = s.outCap := by
  unfold nextHeader; repeat' split
  all_goals rfl
@[simp] theorem nextHeader_err (s : State) : (nextHeader s).err = s.err := by
  unfold nextHeader; repeat' split
  all_goals rfl
@[simp] theorem nextHeader_nvalue (s : State) : (nextHeader s).nvalue = s.nvalue := by
  unfold nextHeader; repeat' split
  all_goals rfl
@[simp] theorem nextHeader_inCur (s : State) : (nextHeader s).inCur = s.inCur := by
  unfold nextHeader; repeat' split
  all_goals rfl
@[simp] theorem nextHeader_outCur (s : State) : (nextHeader s).outCur = s.outCur := by
  unfold nextHeader; repeat' split
  all_goals rfl
@[simp] theorem nextHeader_lastOp (s : State) : (nextHeader s).lastOp = s.lastOp := by
  unfold nextHeader; repeat' split
  all_goals rfl
@[simp] theorem nextHeader_len (s : State) : (nextHeader s).len = s.len := by
  unfold nextHeader; repeat' split
  all_goals rfl
@[simp] theorem nextHeader_mbCnt (s : State) : (nextHeader s).mbCnt = s.mbCnt := by
  unfold nextHeader; repeat' split
  all_goals rfl
@[simp] theorem nextHeader_widths (s : State) : (nextHeader s).widths = s.widths := by
  unfold nextHeader; repeat' split
  all_goals rfl
@[simp] theorem nextHeader_mem (s : State) : (nextHeader s).mem = s.mem := by
  unfold nextHeader; repeat' split
  all_goals rfl
@[simp] theorem nextHeader_readable (s : State) : (nextHeader s).readable = s.readable := by
  unfold nextHeader; repeat' split
  all_goals rfl
@[simp] theorem nextHeader_writable (s : State) : (nextHeader s).writable = s.writable := by
  unfold nextHeader; repeat' split
  all_goals rfl
@[simp] theorem nextHeader_host (s : State) : (nextHeader s).host = s.host := by
  unfold nextHeader; repeat' split
  all_goals rfl
@[simp] theorem nextHeader_turns (s : State) : (nextHeader s).turns = s.turns := by
  unfold nextHeader; repeat' split
  all_goals rfl
@[simp] theorem nextHeader_rdata (s : State) : (nextHeader s).rdata = s.rdata := by
  unfold nextHeader; repeat' split
  all_goals rfl
@[simp] theorem nextHeader_mismatches (s : State) : (nextHeader s).mismatches = s.mismatches := by
  unfold nextHeader; repeat' split
  all_goals rfl
@[simp] theorem nextHeader_funcOut (s : State) : (nextHeader s).funcOut = s.funcOut := by
  unfold nextHeader; repeat' split
  all_goals rfl

/-! ### nextWidthState: the fields no branch writes -/

@[simp] theorem nextWidthState_inBase (s : State) : (nextWidthState s).inBase = s.inBase := by
  unfold nextWidthState; repeat' split
  all_goals rfl
@[simp] theorem nextWidthState_inLen (s : State) : (nextWidthState s).inLen = s.inLen := by
  unfold nextWidthState; repeat' split
  all_goals rfl
@[simp] theorem nextWidthState_outBase (s : State) : (nextWidthState s).outBase = s.outBase := by
  unfold nextWidthState; repeat' split
  all_goals rfl
@[simp] theorem nextWidthState_outCap (s : State) : (nextWidthState s).outCap = s.outCap := by
  unfold nextWidthState; repeat' split
  all_goals rfl
@[simp] theorem nextWidthState_err (s : State) : (nextWidthState s).err = s.err := by
  unfold nextWidthState; repeat' split
  all_goals rfl
@[simp] theorem nextWidthState_nvalue (s : State) : (nextWidthState s).nvalue = s.nvalue := by
  unfold nextWidthState; repeat' split
  all_goals rfl
@[simp] theorem nextWidthState_inCur (s : State) : (nextWidthState s).inCur = s.inCur := by
  unfold nextWidthState; repeat' split
  all_goals rfl
@[simp] theorem nextWidthState_outCur (s : State) : (nextWidthState s).outCur = s.outCur := by
  unfold nextWidthState; repeat' split
  all_goals rfl
@[simp] theorem nextWidthState_lastOp (s : State) : (nextWidthState s).lastOp = s.lastOp := by
  unfold nextWidthState; repeat' split
  all_goals rfl
@[simp] theorem nextWidthState_len (s : State) : (nextWidthState s).len = s.len := by
  unfold nextWidthState; repeat' split
  all_goals rfl
@[simp] theorem nextWidthState_mbCnt (s : State) : (nextWidthState s).mbCnt = s.mbCnt := by
  unfold nextWidthState; repeat' split
  all_goals rfl
@[simp] theorem nextWidthState_widths (s : State) : (nextWidthState s).widths = s.widths := by
  unfold nextWidthState; repeat' split
  all_goals rfl
@[simp] theorem nextWidthState_mem (s : State) : (nextWidthState s).mem = s.mem := by
  unfold nextWidthState; repeat' split
  all_goals rfl
@[simp] theorem nextWidthState_readable (s : State) : (nextWidthState s).readable = s.readable := by
  unfold nextWidthState; repeat' split
  all_goals rfl
@[simp] theorem nextWidthState_writable (s : State) : (nextWidthState s).writable = s.writable := by
  unfold nextWidthState; repeat' split
  all_goals rfl
@[simp] theorem nextWidthState_host (s : State) : (nextWidthState s).host = s.host := by
  unfold nextWidthState; repeat' split
  all_goals rfl
@[simp] theorem nextWidthState_turns (s : State) : (nextWidthState s).turns = s.turns := by
  unfold nextWidthState; repeat' split
  all_goals rfl
@[simp] theorem nextWidthState_rdata (s : State) : (nextWidthState s).rdata = s.rdata := by
  unfold nextWidthState; repeat' split
  all_goals rfl
@[simp] theorem nextWidthState_mismatches (s : State) : (nextWidthState s).mismatches = s.mismatches := by
  unfold nextWidthState; repeat' split
  all_goals rfl
@[simp] theorem nextWidthState_funcOut (s : State) : (nextWidthState s).funcOut = s.funcOut := by
  unfold nextWidthState; repeat' split
  all_goals rfl

/-! ### checkWidths: the fields no branch writes -/

@[simp] theorem checkWidths_inBase (s : State) : (checkWidths s).inBase = s.inBase := by
  unfold checkWidths; repeat' split
  all_goals rfl
@[simp] theorem checkWidths_inLen (s : State) : (checkWidths s).inLen = s.inLen := by
  unfold checkWidths; repeat' split
  all_goals rfl
@[simp] theorem checkWidths_outBase (s : State) : (checkWidths s).outBase = s.outBase := by
  unfold checkWidths; repeat' split
  all_goals rfl
@[simp] theorem checkWidths_outCap (s : State) : (checkWidths s).outCap = s.outCap := by
  unfold checkWidths; repeat' split
  all_goals rfl
@[simp] theorem checkWidths_nvalue (s : State) : (checkWidths s).nvalue = s.nvalue := by
  unfold checkWidths; repeat' split
  all_goals rfl
@[simp] theorem checkWidths_inCur (s : State) : (checkWidths s).inCur = s.inCur := by
  unfold checkWidths; repeat' split
  all_goals rfl
@[simp] theorem checkWidths_outCur (s : State) : (checkWidths s).outCur = s.outCur := by
  unfold checkWidths; repeat' split
  all_goals rfl
@[simp] theorem checkWidths_lastOp (s : State) : (checkWidths s).lastOp = s.lastOp := by
  unfold checkWidths; repeat' split
  all_goals rfl
@[simp] theorem checkWidths_len (s : State) : (checkWidths s).len = s.len := by
  unfold checkWidths; repeat' split
  all_goals rfl
@[simp] theorem checkWidths_hdrIdx (s : State) : (checkWidths s).hdrIdx = s.hdrIdx := by
  unfold checkWidths; repeat' split
  all_goals rfl
@[simp] theorem checkWidths_mbCnt (s : State) : (checkWidths s).mbCnt = s.mbCnt := by
  unfold checkWidths; repeat' split
  all_goals rfl
@[simp] theorem checkWidths_widths (s : State) : (checkWidths s).widths = s.widths := by
  unfold checkWidths; repeat' split
  all_goals rfl
@[simp] theorem checkWidths_mem (s : State) : (checkWidths s).mem = s.mem := by
  unfold checkWidths; repeat' split
  all_goals rfl
@[simp] theorem checkWidths_readable (s : State) : (checkWidths s).readable = s.readable := by
  unfold checkWidths; repeat' split
  all_goals rfl
@[simp] theorem checkWidths_writable (s : State) : (checkWidths s).writable = s.writable := by
  unfold checkWidths; repeat' split
  all_goals rfl
@[simp] theorem checkWidths_host (s : State) : (checkWidths s).host = s.host := by
  unfold checkWidths; repeat' split
  all_goals rfl
@[simp] theorem checkWidths_turns (s : State) : (checkWidths s).turns = s.turns := by
  unfold checkWidths; repeat' split
  all_goals rfl
@[simp] theorem checkWidths_rdata (s : State) : (checkWidths s).rdata = s.rdata := by
  unfold checkWidths; repeat' split
  all_goals rfl
@[simp] theorem checkWidths_mismatches (s : State) : (checkWidths s).mismatches = s.mismatches := by
  unfold checkWidths; repeat' split
  all_goals rfl
@[simp] theorem checkWidths_funcOut (s : State) : (checkWidths s).funcOut = s.funcOut := by
  unfold checkWidths; repeat' split
  all_goals rfl

/-! ### encSelect: the fields no branch writes -/

@[simp] theorem encSelect_inBase (s : State) : (encSelect s).inBase = s.inBase := by
  unfold encSelect; repeat' split
  all_goals rfl
@[simp] theorem encSelect_inLen (s : State) : (encSelect s).inLen = s.inLen := by
  unfold encSelect; repeat' split
  all_goals rfl
@[simp] theorem encSelect_outBase (s : State) : (encSelect s).outBase = s.outBase := by
  unfold encSelect; repeat' split
  all_goals rfl
@[simp] theorem encSelect_outCap (s : State) : (encSelect s).outCap = s.outCap := by
  unfold encSelect; repeat' split
  all_goals rfl
@[simp] theorem encSelect_err (s : State) : (encSelect s).err = s.err := by
  unfold encSelect; repeat' split
  all_goals rfl
@[simp] theorem encSelect_inCur (s : State) : (encSelect s).inCur = s.inCur := by
  unfold encSelect; repeat' split
  all_goals rfl
@[simp] theorem encSelect_outCur (s : State) : (encSelect s).outCur = s.outCur := by
  unfold encSelect; repeat' split
  all_goals rfl
@[simp] theorem encSelect_lastOp (s : State) : (encSelect s).lastOp = s.lastOp := by
  unfold encSelect; repeat' split
  all_goals rfl
@[simp] theorem encSelect_len (s : State) : (encSelect s).len = s.len := by
  unfold encSelect; repeat' split
  all_goals rfl
@[simp] theorem encSelect_hdrIdx (s : State) : (encSelect s).hdrIdx = s.hdrIdx := by
  unfold encSelect; repeat' split
  all_goals rfl
@[simp] theorem encSelect_mem (s : State) : (encSelect s).mem = s.mem := by
  unfold encSelect; repeat' split
  all_goals rfl
@[simp] theorem encSelect_readable (s : State) : (encSelect s).readable = s.readable := by
  unfold encSelect; repeat' split
  all_goals rfl
@[simp] theorem encSelect_writable (s : State) : (encSelect s).writable = s.writable := by
  unfold encSelect; repeat' split
  all_goals rfl
@[simp] theorem encSelect_host (s : State) : (encSelect s).host = s.host := by
  unfold encSelect; repeat' split
  all_goals rfl
@[simp] theorem encSelect_turns (s : State) : (encSelect s).turns = s.turns := by
  unfold encSelect; repeat' split
  all_goals rfl
@[simp] theorem encSelect_rdata (s : State) : (encSelect s).rdata = s.rdata := by
  unfold encSelect; repeat' split
  all_goals rfl
@[simp] theorem encSelect_mismatches (s : State) : (encSelect s).mismatches = s.mismatches := by
  unfold encSelect; repeat' split
  all_goals rfl
@[simp] theorem encSelect_funcOut (s : State) : (encSelect s).funcOut = s.funcOut := by
  unfold encSelect; repeat' split
  all_goals rfl

/-! ### decSelect: the fields no branch writes -/

@[simp] theorem decSelect_inBase (s : State) : (decSelect s).inBase = s.inBase := by
  unfold decSelect; repeat' split
  all_goals rfl
@[simp] theorem decSelect_inLen (s : State) : (decSelect s).inLen = s.inLen := by
  unfold decSelect; repeat' split
  all_goals rfl
@[simp] theorem decSelect_outBase (s : State) : (decSelect s).outBase = s.outBase := by
  unfold decSelect; repeat' split
  all_goals rfl
@[simp] theorem decSelect_outCap (s : State) : (decSelect s).outCap = s.outCap := by
  unfold decSelect; repeat' split
  all_goals rfl
@[simp] theorem decSelect_err (s : State) : (decSelect s).err = s.err := by
  unfold decSelect; repeat' split
  all_goals rfl
@[simp] theorem decSelect_inCur (s : State) : (decSelect s).inCur = s.inCur := by
  unfold decSelect; repeat' split
  all_goals rfl
@[simp] theorem decSelect_outCur (s : State) : (decSelect s).outCur = s.outCur := by
  unfold decSelect; repeat' split
  all_goals rfl
@[simp] theorem decSelect_lastOp (s : State) : (decSelect s).lastOp = s.lastOp := by
  unfold decSelect; repeat' split
  all_goals rfl
@[simp] theorem decSelect_len (s : State) : (decSelect s).len = s.len := by
  unfold decSelect; repeat' split
  all_goals rfl
@[simp] theorem decSelect_mbIdx (s : State) : (decSelect s).mbIdx = s.mbIdx := by
  unfold decSelect; repeat' split
  all_goals rfl
@[simp] theorem decSelect_widths (s : State) : (decSelect s).widths = s.widths := by
  unfold decSelect; repeat' split
  all_goals rfl
@[simp] theorem decSelect_mem (s : State) : (decSelect s).mem = s.mem := by
  unfold decSelect; repeat' split
  all_goals rfl
@[simp] theorem decSelect_readable (s : State) : (decSelect s).readable = s.readable := by
  unfold decSelect; repeat' split
  all_goals rfl
@[simp] theorem decSelect_writable (s : State) : (decSelect s).writable = s.writable := by
  unfold decSelect; repeat' split
  all_goals rfl
@[simp] theorem decSelect_host (s : State) : (decSelect s).host = s.host := by
  unfold decSelect; repeat' split
  all_goals rfl
@[simp] theorem decSelect_turns (s : State) : (decSelect s).turns = s.turns := by
  unfold decSelect; repeat' split
  all_goals rfl
@[simp] theorem decSelect_rdata (s : State) : (decSelect s).rdata = s.rdata := by
  unfold decSelect; repeat' split
  all_goals rfl
@[simp] theorem decSelect_mismatches (s : State) : (decSelect s).mismatches = s.mismatches := by
  unfold decSelect; repeat' split
  all_goals rfl
@[simp] theorem decSelect_funcOut (s : State) : (decSelect s).funcOut = s.funcOut := by
  unfold decSelect; repeat' split
  all_goals rfl

/-! ### what the branching updates do write -/

theorem nextHeader_hdrIdx (s : State) : (nextHeader s).hdrIdx = s.hdrIdx + 1#3 := by
  unfold nextHeader; split <;> rfl

theorem nextWidthState_mbIdx (s : State) : (nextWidthState s).mbIdx = s.mbIdx + 1#5 := by
  unfold nextWidthState; split <;> rfl

/-- Block selection of the encoder opens a block or finishes; it never raises (R186). -/
theorem encSelect_fsm (s : State) : (encSelect s).fsm = .eComputingWidths ∨ (encSelect s).fsm = .done := by
  unfold encSelect
  split
  · exact .inl rfl
  · split
    · exact .inl rfl
    · exact .inr rfl

/-- Block selection of the decoder opens a block or finishes; it never raises (R215). -/
theorem decSelect_fsm (s : State) : (decSelect s).fsm = .dReadingHeader ∨ (decSelect s).fsm = .done := by
  unfold decSelect
  split
  · exact .inl rfl
  · split
    · exact .inl rfl
    · exact .inr rfl

end Sys2Proof.Machine
end

