-- ==== Sys2Proof/Laws/Ops.lean ====
section
/-! SUPPORT. One lemma for each shared operation: everything it can do when it answers a next state, and when it does so. Later
proofs cite these and do not unfold the operations. -/

namespace Sys2Proof.Machine

/-! ### Sequencing -/

@[simp] theorem andThen_next (s : State) (k : State → Out) : andThen (.next s) k = k s := rfl

/-- A sequence answers a next state iff both parts do. -/
theorem andThen_eq_next {o : Out} {k : State → Out} {t : State} :
    andThen o k = .next t ↔ ∃ u, o = .next u ∧ k u = .next t := by
  cases o <;> simp [andThen]

/-- A guarded body answers a next state iff it is enabled and the body does. -/
theorem fire_eq_next {st : FsmState} {g : Bool} {s t : State} {body : Out} :
    fire st g s body = .next t ↔ enabledAt st g s = true ∧ body = .next t := by
  unfold fire; split <;> simp_all

/-- A guarded body that is enabled is the body. -/
theorem fire_enabled {st : FsmState} {g : Bool} {s : State} {body : Out} (h : enabledAt st g s = true) :
    fire st g s body = body := if_pos h

/-- A guarded body that is not enabled is refused. -/
theorem fire_disabled {st : FsmState} {g : Bool} {s : State} {body : Out} (h : ¬ enabledAt st g s = true) :
    fire st g s body = .refused .notEnabled := if_neg h

theorem enabledAt_iff {st : FsmState} {g : Bool} {s : State} :
    enabledAt st g s = true ↔ s.fsm = st ∧ uopGuard s = some g := by simp [enabledAt]

/-! ### Memory -/

/-- A read answers only where the words exist and may be read, and then hands them on. -/
theorem readMem_eq_next {s t : State} {a n : Nat} {k : List Word → Out} :
    readMem s a n k = .next t ↔
      a + n ≤ Config.memWords ∧ covered s.readable a n = true ∧ k (Memory.readWords s.mem a n) = .next t := by
  unfold readMem
  split
  · simp; omega
  · split <;> simp_all

theorem readMem_ok {s : State} {a n : Nat} {k : List Word → Out} (h1 : a + n ≤ Config.memWords)
    (h2 : covered s.readable a n = true) : readMem s a n k = k (Memory.readWords s.mem a n) := by
  unfold readMem; rw [if_neg (by omega), if_pos h2]

/-- A write answers only where the words exist and may be written, and then writes them and nothing else. -/
theorem writeMem_eq_next {s t : State} {a : Nat} {ws : List Word} :
    writeMem s a ws = .next t ↔
      a + ws.length ≤ Config.memWords ∧ covered s.writable a ws.length = true
        ∧ t = { s with mem := Memory.storeWords s.mem a ws } := by
  constructor
  · intro h
    unfold writeMem at h
    split at h
    · cases h
    · split at h
      · cases h; exact ⟨by omega, by assumption, rfl⟩
      · cases h
  · rintro ⟨h1, h2, rfl⟩
    unfold writeMem; rw [if_neg (by omega), if_pos h2]

theorem writeMem_ok {s : State} {a : Nat} {ws : List Word} (h1 : a + ws.length ≤ Config.memWords)
    (h2 : covered s.writable a ws.length = true) :
    writeMem s a ws = .next { s with mem := Memory.storeWords s.mem a ws } := by
  unfold writeMem; rw [if_neg (by omega), if_pos h2]

/-! ### The stream a `DECODE` follows -/

/-- The frames end no earlier than they begin. -/
theorem le_framesEnd (m : List Host.Cell) (f n a : Nat) : a ≤ framesEnd m f n a := by
  induction f generalizing n a with
  | zero => exact Nat.le_refl a
  | succ f ih =>
    unfold framesEnd
    split
    · exact Nat.le_trans (by omega) (ih _ _)
    · omega

/-- A stream has at least its prefix. -/
theorem streamWords_pos (m : List Host.Cell) (a l : Nat) : 0 < streamWords m a l := by
  have := le_framesEnd m (frames l) (l / Config.miniblockWords) (a + 4)
  unfold streamWords
  repeat' split
  all_goals omega

/-! ### Cursors -/

/-- The advance of the input cursor: only inside the space, and nothing else changes. -/
theorem advanceIn_eq_next {s t : State} {n : Nat} :
    advanceIn s n = .next t ↔
      s.inCur.toNat + n ≤ Config.memWords ∧ t = { s with inCur := BitVec.ofNat 33 (s.inCur.toNat + n) } := by
  constructor
  · intro h
    unfold advanceIn at h
    split at h
    · cases h
    · cases h; exact ⟨by omega, rfl⟩
  · rintro ⟨h1, rfl⟩
    exact if_neg (by omega)

/-- The advance of the output cursor: only inside the space, and nothing else changes. -/
theorem advanceOut_eq_next {s t : State} {n : Nat} :
    advanceOut s n = .next t ↔
      s.outCur.toNat + n ≤ Config.memWords ∧ t = { s with outCur := BitVec.ofNat 33 (s.outCur.toNat + n) } := by
  constructor
  · intro h
    unfold advanceOut at h
    split at h
    · cases h
    · cases h; exact ⟨by omega, rfl⟩
  · rintro ⟨h1, rfl⟩
    exact if_neg (by omega)

theorem advanceIn_ok {s : State} {n : Nat} (h : s.inCur.toNat + n ≤ Config.memWords) :
    advanceIn s n = .next { s with inCur := BitVec.ofNat 33 (s.inCur.toNat + n) } := if_neg (by omega)

theorem advanceOut_ok {s : State} {n : Nat} (h : s.outCur.toNat + n ≤ Config.memWords) :
    advanceOut s n = .next { s with outCur := BitVec.ofNat 33 (s.outCur.toNat + n) } := if_neg (by omega)

/-- A cursor inside the space is held exactly. -/
theorem cursor_toNat {n : Nat} (h : n ≤ Config.memWords) : (BitVec.ofNat 33 n).toNat = n := by
  rw [BitVec.toNat_ofNat]; exact Nat.mod_eq_of_lt (by simp only [Config.memWords] at h; omega)

/-- The cursor that starts at a base stands at that base. -/
theorem base_toNat (w : Word) : (w.setWidth 33).toNat = w.toNat := by
  rw [BitVec.toNat_setWidth]; exact Nat.mod_eq_of_lt (by have := w.isLt; omega)

/-! ### Words emitted and consumed -/

/-- Emitting a word writes it at the output cursor and advances the cursor by one, and does nothing else. -/
theorem emitWord_eq_next {s t : State} {w : Word} :
    emitWord s w = .next t ↔
      s.outCur.toNat + 1 ≤ Config.memWords ∧ covered s.writable s.outCur.toNat 1 = true
        ∧ t = { s with
                  mem := Memory.storeWords s.mem s.outCur.toNat [w]
                  outCur := BitVec.ofNat 33 (s.outCur.toNat + 1) } := by
  unfold emitWord
  rw [andThen_eq_next]
  constructor
  · rintro ⟨u, h1, h2⟩
    obtain ⟨h3, h4, rfl⟩ := writeMem_eq_next.1 h1
    obtain ⟨h5, rfl⟩ := advanceOut_eq_next.1 h2
    exact ⟨h3, h4, rfl⟩
  · rintro ⟨h1, h2, rfl⟩
    exact ⟨_, writeMem_eq_next.2 ⟨h1, h2, rfl⟩, advanceOut_eq_next.2 ⟨h1, rfl⟩⟩

/-- A capacity test either passes and the body runs, or `BufferTooSmall` is raised with nothing else done. -/
theorem withCapacity_eq_next {s t : State} {n : Nat} {body : Out} :
    withCapacity s n body = .next t ↔
      (capOk s n = true ∧ body = .next t) ∨ (capOk s n = false ∧ t = raise .bufferTooSmall s) := by
  unfold withCapacity
  by_cases h : capOk s n = true
  · rw [if_pos h]; simp [h]
  · rw [if_neg h]
    have h' : capOk s n = false := by simpa using h
    constructor
    · intro e; cases e; exact .inr ⟨h', rfl⟩
    · rintro (⟨e, -⟩ | ⟨-, rfl⟩)
      · exact absurd e h
      · rfl

/-- What the checks after the length word can do (R212): go on to the padding, or raise one of two errors, on regions that keep
apart (P4). -/
theorem checkLen_eq_next {s t : State} :
    checkLen s = .next t ↔
      decodeRegionsMeet s = false
      ∧ ((needsPadAt s.outCur.toNat = true ∧ t = raise .badOutputAlignment s)
        ∨ (needsPadAt s.outCur.toNat = false
          ∧ ((s.outCap.toNat < s.len.toNat ∧ t = raise .bufferTooSmall s)
            ∨ (s.len.toNat ≤ s.outCap.toNat ∧ s.len.toNat % 128 = 0
                ∧ s.outBase.toNat + s.len.toNat ≤ Config.memWords ∧ t = { s with fsm := .dSkippingPadding })))) := by
  constructor
  · intro h
    unfold checkLen at h
    split at h
    · cases h
    · rename_i ho
      refine ⟨by simpa using ho, ?_⟩
      split at h
      · cases h; exact .inl ⟨by assumption, rfl⟩
      · rename_i hp
        refine .inr ⟨by simpa using hp, ?_⟩
        split at h
        · cases h; exact .inl ⟨by assumption, rfl⟩
        · split at h
          · cases h
          · rename_i hm
            split at h
            · cases h
            · cases h
              exact .inr ⟨by omega, by simpa using hm, by omega, rfl⟩
  · unfold checkLen
    rintro ⟨ho, ⟨h, rfl⟩ | ⟨h, ⟨hc, rfl⟩ | ⟨hc, hm, hw, rfl⟩⟩⟩
    · rw [if_neg (by simp [ho]), if_pos h]
    · rw [if_neg (by simp [ho]), if_neg (by simp [h]), if_pos hc]
    · rw [if_neg (by simp [ho]), if_neg (by simp [h]), if_neg (by omega), if_neg (by simpa using hm), if_neg (by omega)]

/-! ### Dispatches -/

/-- What a `PACK` dispatch can do (R151): nothing at width 0, else the packed words stand at the destination. -/
theorem dispatchPack_eq_next {s t : State} {src dst b : Nat} :
    dispatchPack s src dst b = .next t ↔
      b ≤ 32 ∧ ((b = 0 ∧ t = s) ∨
        (b ≠ 0 ∧ needsPadAt src = false ∧ needsPadAt dst = false ∧ overlaps src 128 dst (4 * b) = false
          ∧ src + 128 ≤ Config.memWords ∧ covered s.readable src 128 = true
          ∧ writeMem s dst (kernelPack b (Memory.readWords s.mem src 128)) = .next t)) := by
  constructor
  · intro h
    unfold dispatchPack at h
    split at h
    · cases h
    · rename_i hb
      refine ⟨by simpa using hb, ?_⟩
      split at h
      · cases h; exact .inl ⟨by assumption, rfl⟩
      · rename_i h0
        split at h
        · cases h
        · rename_i hp
          split at h
          · cases h
          · rename_i ho
            obtain ⟨h1, h2, h3⟩ := readMem_eq_next.1 h
            simp only [Bool.or_eq_true, not_or, Bool.not_eq_true] at hp
            exact .inr ⟨h0, hp.1, hp.2, by simpa using ho, h1, h2, h3⟩
  · rintro ⟨hb, ⟨rfl, rfl⟩ | ⟨h0, hs, hd, ho, h1, h2, h3⟩⟩
    · rfl
    · unfold dispatchPack
      rw [if_neg (by simpa using hb), if_neg h0, if_neg (by simp [hs, hd]), if_neg (by simp [ho]), readMem_ok h1 h2, h3]

/-- What an `UNPACK` dispatch can do (R152): the 128 unpacked words stand at the destination. -/
theorem dispatchUnpack_eq_next {s t : State} {src dst b : Nat} :
    dispatchUnpack s src dst b = .next t ↔
      b ≤ 32 ∧ (b = 0 ∨ needsPadAt src = false) ∧ needsPadAt dst = false ∧ overlaps src (4 * b) dst 128 = false
        ∧ src + 4 * b ≤ Config.memWords ∧ covered s.readable src (4 * b) = true
        ∧ writeMem s dst (kernelUnpack b (Memory.readWords s.mem src (4 * b))) = .next t := by
  constructor
  · intro h
    unfold dispatchUnpack at h
    split at h
    · cases h
    · rename_i hb
      split at h
      · cases h
      · rename_i hp
        simp only [Bool.or_eq_true, Bool.and_eq_true, bne_iff_ne, not_or, not_and, Bool.not_eq_true] at hp
        split at h
        · cases h
        · rename_i ho
          obtain ⟨h1, h2, h3⟩ := readMem_eq_next.1 h
          refine ⟨by simpa using hb, ?_, hp.2, by simpa using ho, h1, h2, h3⟩
          by_cases h0 : b = 0
          · exact .inl h0
          · exact .inr (hp.1 h0)
  · rintro ⟨hb, hs, hd, ho, h1, h2, h3⟩
    unfold dispatchUnpack
    have hp : ¬ ((b != 0 && needsPadAt src) || needsPadAt dst) = true := by
      rcases hs with rfl | hs
      · simp [hd]
      · simp [hs, hd]
    rw [if_neg (by simpa using hb), if_neg hp, if_neg (by simp [ho]), readMem_ok h1 h2, h3]

end Sys2Proof.Machine
end

