-- ==== Sys2Proof/Laws/Engine.lean ====
section
/-! SUPPORT. What the scheduler's steps, the start of a command and the choice of the next micro-operation can do. -/

namespace Sys2Proof.Machine

/-- What `SCHED_PACK` can do (R161): the dispatch of the next miniblock, then the output cursor and the index advance. -/
theorem schedPackBody_eq_next {s t : State} :
    schedPackBody s = .next t ↔
      ∃ u, dispatchPack s (blkIn s) s.outCur.toNat (nextWidth s) = .next u
        ∧ u.outCur.toNat + 4 * nextWidth s ≤ Config.memWords
        ∧ t = nextMiniblock { u with outCur := BitVec.ofNat 33 (u.outCur.toNat + 4 * nextWidth s) } := by
  unfold schedPackBody
  rw [andThen_eq_next]
  refine exists_congr fun u => and_congr_right fun _ => ?_
  rw [andThen_eq_next]
  constructor
  · rintro ⟨x, h1, h2⟩
    obtain ⟨h3, rfl⟩ := advanceOut_eq_next.1 h1
    cases h2
    exact ⟨h3, rfl⟩
  · rintro ⟨h1, rfl⟩
    exact ⟨_, advanceOut_eq_next.2 ⟨h1, rfl⟩, rfl⟩

/-- What `SCHED_UNPACK` can do (R162): the dispatch of the next miniblock, then the input cursor and the index advance. -/
theorem schedUnpackBody_eq_next {s t : State} :
    schedUnpackBody s = .next t ↔
      ∃ u, dispatchUnpack s s.inCur.toNat (blkOut s) (nextWidth s) = .next u
        ∧ u.inCur.toNat + 4 * nextWidth s ≤ Config.memWords
        ∧ t = nextMiniblock { u with inCur := BitVec.ofNat 33 (u.inCur.toNat + 4 * nextWidth s) } := by
  unfold schedUnpackBody
  rw [andThen_eq_next]
  refine exists_congr fun u => and_congr_right fun _ => ?_
  rw [andThen_eq_next]
  constructor
  · rintro ⟨x, h1, h2⟩
    obtain ⟨h3, rfl⟩ := advanceIn_eq_next.1 h1
    cases h2
    exact ⟨h3, rfl⟩
  · rintro ⟨h1, rfl⟩
    exact ⟨_, advanceIn_eq_next.2 ⟨h1, rfl⟩, rfl⟩

/-- What the start of an `ENCODE` can do (R181): nothing but the writes of the start, on a kept precondition. -/
theorem startEncode_eq_next {s t : State} :
    startEncode s = .next t ↔
      encodePrecondition s = none ∧ t = { startCommand 0#1 .eCheckingLength s with len := s.inLen } := by
  unfold startEncode
  cases encodePrecondition s <;> simp [eq_comm]

/-- What the start of a `DECODE` can do (R211): nothing but the writes of the start, on a kept precondition. -/
theorem startDecode_eq_next {s t : State} :
    startDecode s = .next t ↔ decodePrecondition s = none ∧ t = startCommand 1#1 .dReadingPrefix s := by
  unfold startDecode
  cases decodePrecondition s <;> simp [eq_comm]

/-- An `ENCODE` that starts has both bases aligned (P1, P2). -/
theorem encodePrecondition_aligned {s : State} (h : encodePrecondition s = none) :
    needsPadAt s.inBase.toNat = false ∧ needsPadAt s.outBase.toNat = false := by
  unfold encodePrecondition at h
  split at h
  · cases h
  · split at h
    · cases h
    · simp_all

/-- A `DECODE` that starts has its input base aligned (P1). -/
theorem decodePrecondition_aligned {s : State} (h : decodePrecondition s = none) : needsPadAt s.inBase.toNat = false := by
  unfold decodePrecondition at h
  split at h
  · cases h
  · simp_all

theorem needsPadAt_eq_false {a : Nat} : needsPadAt a = false ↔ a % 4 = 0 := by simp [needsPadAt]

theorem needsPadAt_eq_true {a : Nat} : needsPadAt a = true ↔ a % 4 ≠ 0 := by simp [needsPadAt]

/-- Regions that keep apart do not overlap. -/
theorem overlaps_eq_false {a n b m : Nat} : overlaps a n b m = false ↔ n = 0 ∨ m = 0 ∨ b + m ≤ a ∨ a + n ≤ b := by
  simp [overlaps]; omega

/-- A stuck operation is one that answers one of the two stuck faults. -/
theorem isStuck_iff {o : Out} : isStuck o = true ↔ o = .fault .stuckRead ∨ o = .fault .stuckWrite := by
  unfold isStuck; split <;> simp_all

/-- Who moves when the engine does: a command is running. -/
theorem mover_engine {s : State} (h : mover s = some .engine) : busy s = true := by
  unfold mover at h
  split at h
  · cases h
  · split at h
    · simp_all
    · split at h <;> cases h

/-- An engine that moves is not stuck. -/
theorem mover_engine_not_stuck {s : State} (h : mover s = some .engine) : stuck (popTurn s) = false := by
  unfold mover at h
  split at h
  · cases h
  · split at h
    · simp_all
    · split at h <;> cases h

/-- With no turn for the host, a running command that is not stuck moves first. -/
theorem mover_of_busy {s : State} (h : busy s = true) (hs : stuck (popTurn s) = false) (ht : s.turns.head? ≠ some .host) :
    mover s = some .engine := by
  unfold mover
  rw [if_neg (by simp [ht]), if_pos (by simp [h, hs])]

/-- A stuck engine leaves the move to the host, or to nobody. -/
theorem mover_of_stuck {s : State} (hs : stuck (popTurn s) = true) :
    mover s = if s.host.isEmpty then none else some .host := by
  unfold mover
  cases s.host <;> simp [hs]

/-- A step of the engine is its micro-operation (R29). -/
theorem step_engine {s : State} (h : mover s = some .engine) : step s = engineStep (popTurn s) := by
  unfold step; rw [h]

/-- With the engine stuck and no statement pending, the state stays as it is: busy for ever (R66). -/
theorem step_stuck_alone {s : State} (hs : stuck (popTurn s) = true) (hh : s.host = []) : step s = .next s := by
  unfold step; rw [mover_of_stuck hs, hh]; rfl

/-- With the engine stuck, the host's next statement is the step (R244, R291). -/
theorem step_stuck_host {s : State} {h : HostStmt} {rest : List HostStmt} (hs : stuck (popTurn s) = true)
    (hh : s.host = h :: rest) : step s = hostExec h { popTurn s with host := rest } := by
  unfold step; rw [mover_of_stuck hs, hh]; simp [hostStep, popTurn, hh]

/-- A step of the host is its next statement. -/
theorem step_host {s : State} (h : mover s = some .host) : step s = hostStep (popTurn s) := by
  unfold step; rw [h]

/-- What a step can do: the engine's micro-operation, the host's statement, or nothing. -/
theorem step_eq_next {s t : State} (h : step s = .next t) :
    (mover s = some .engine ∧ engineStep (popTurn s) = .next t) ∨ (mover s = some .host ∧ hostStep (popTurn s) = .next t)
      ∨ (mover s = none ∧ t = s) := by
  unfold step at h
  split at h
  · exact .inl ⟨by assumption, h⟩
  · exact .inr (.inl ⟨by assumption, h⟩)
  · cases h; exact .inr (.inr ⟨by assumption, rfl⟩)

end Sys2Proof.Machine
end

