-- ==== Sys2Proof/Laws/Kernel.lean ====
section
/-! SUPPORT. The regrouping of bits behind the kernel pair is a bijection between 128 values of `b` bits and `4·b` words. The kernel
contract (spec R153 to R156) rests on it. -/

namespace Sys2Proof.Machine

@[simp] theorem ungroup_length (b : Nat) (ws : Vector Word (4 * b)) : (ungroup b ws).length = 128 := by simp [ungroup]

/-- A bit of a regrouped word is the bit of the values at the same place. -/
theorem getLsbD_regroup (b : Nat) (v : List Word) (j : Nat) (hj : j < 4 * b) (t : Nat) (ht : t < 32) :
    ((regroup b v)[j]).getLsbD t = bitOf b v (32 * j + t) := by
  simp [regroup, ht]

/-- The words of `regroup` read as one run of bits are the bits of the values. -/
theorem bitOf_regroup (b : Nat) (v : List Word) (p : Nat) (hp : p < 128 * b) :
    bitOf 32 (regroup b v).toList p = bitOf b v p := by
  have hj : p / 32 < 4 * b := by omega
  unfold bitOf
  rw [List.getD_eq_getElem _ _ (by simpa using hj), Vector.getElem_toList,
    getLsbD_regroup b v (p / 32) hj (p % 32) (by omega), show 32 * (p / 32) + p % 32 = p by omega]
  rfl

/-- A bit of an ungrouped value. -/
theorem getLsbD_ungroup (b : Nat) (ws : Vector Word (4 * b)) (k t : Nat) (hk : k < 128) (ht : t < 32) :
    ((ungroup b ws).getD k 0#32).getLsbD t = (decide (t < b) && bitOf 32 ws.toList (b * k + t)) := by
  rw [List.getD_eq_getElem _ _ (by simpa using hk)]
  simp [ungroup, ht]

/-- Every ungrouped value is below `2^b`: "zero-extended to 32 bits" (R156). -/
theorem fitsWidth_ungroup (b : Nat) (ws : Vector Word (4 * b)) : fitsWidth b (ungroup b ws) = true := by
  refine List.all_eq_true.2 fun w hw => decide_eq_true ?_
  obtain ⟨k, hk, rfl⟩ := List.mem_iff_getElem.1 hw
  refine Nat.lt_pow_two_of_testBit _ fun t ht => ?_
  show ((ungroup b ws)[k]).getLsbD t = false
  by_cases h32 : t < 32
  · have := getLsbD_ungroup b ws k t (by simpa using hk) h32
    rw [List.getD_eq_getElem _ _ hk] at this
    rw [this]; simp; omega
  · exact BitVec.getLsbD_of_ge _ _ (by omega)

/-- Values that fit come back. -/
theorem ungroup_regroup (b : Nat) (v : List Word) (hb : 0 < b) (hv : v.length = 128) (hf : fitsWidth b v = true) :
    ungroup b (regroup b v) = v := by
  refine List.ext_getElem (by simp [hv]) fun k h1 h2 => ?_
  have hk : k < 128 := by simpa using h1
  refine BitVec.eq_of_getLsbD_eq fun t ht => ?_
  have h3 := getLsbD_ungroup b (regroup b v) k t hk ht
  rw [List.getD_eq_getElem _ _ h1] at h3
  rw [h3]
  by_cases hlt : t < b
  · have hp : b * k + t < 128 * b := by
      have : b * k + b ≤ b * 128 := by rw [← Nat.mul_succ]; exact Nat.mul_le_mul_left b (by omega)
      omega
    rw [bitOf_regroup b v _ hp]
    unfold bitOf
    rw [Nat.mul_add_div hb, Nat.div_eq_of_lt hlt, Nat.mul_add_mod, Nat.mod_eq_of_lt hlt, Nat.add_zero, List.getD_eq_getElem _ _ h2]
    simp [hlt]
  · have hw : v[k].toNat < 2 ^ b := by
      have := List.all_eq_true.1 hf v[k] (List.getElem_mem h2)
      simpa using this
    have : v[k].getLsbD t = false := by
      show v[k].toNat.testBit t = false
      exact Nat.testBit_lt_two_pow (Nat.lt_of_lt_of_le hw (Nat.pow_le_pow_right (by omega) (by omega)))
    rw [this]; simp [hlt]

/-- Words come back, whatever they are: no payload is corrupt (R156). -/
theorem regroup_ungroup (b : Nat) (ws : Vector Word (4 * b)) (hb : b ≤ 32) :
    regroup b (ungroup b ws) = ws := by
  refine Vector.ext fun j hj => BitVec.eq_of_getLsbD_eq fun t ht => ?_
  have hpos : 0 < b := by omega
  rw [getLsbD_regroup b _ j hj t ht]
  have hk : (32 * j + t) / b < 128 := (Nat.div_lt_iff_lt_mul hpos).2 (by omega)
  have hm : (32 * j + t) % b < b := Nat.mod_lt _ hpos
  have h3 := getLsbD_ungroup b ws ((32 * j + t) / b) ((32 * j + t) % b) hk (by omega)
  unfold bitOf
  rw [h3, Nat.div_add_mod]
  unfold bitOf
  rw [show (32 * j + t) / 32 = j by omega, show (32 * j + t) % 32 = t by omega,
    List.getD_eq_getElem _ _ (by simpa using hj), Vector.getElem_toList]
  simp [hm]

end Sys2Proof.Machine
end

