-- ==== Sys2Proof/Laws/Meanings.lean ====
section
/-! SUPPORT. One lemma for each meaning: what the operation has done when it answers a next state. With the lemmas of Laws/Engine
on `step`, every claim about all operations is a case analysis over these. -/

namespace Sys2Proof.Machine

/-! ### Dispatches -/

/-- A `PACK` leaves memory as it is or writes `4·b` words at the destination. -/
theorem dispatchPack_next {s t : State} {src dst b : Nat} (h : dispatchPack s src dst b = .next t) :
    b ≤ 32 ∧ ((b = 0 ∧ t = s) ∨ (dst + (kernelPack b (Memory.readWords s.mem src 128)).length ≤ Config.memWords ∧
      t = { s with mem := Memory.storeWords s.mem dst (kernelPack b (Memory.readWords s.mem src 128)) })) := by
  obtain ⟨hb, h0 | ⟨-, -, -, -, -, -, h⟩⟩ := dispatchPack_eq_next.1 h
  · exact ⟨hb, .inl h0⟩
  · obtain ⟨h1, -, rfl⟩ := writeMem_eq_next.1 h
    exact ⟨hb, .inr ⟨h1, rfl⟩⟩

/-- An `UNPACK` writes the unpacked words at the destination. -/
theorem dispatchUnpack_next {s t : State} {src dst b : Nat} (h : dispatchUnpack s src dst b = .next t) :
    b ≤ 32 ∧ dst + (kernelUnpack b (Memory.readWords s.mem src (4 * b))).length ≤ Config.memWords ∧
      t = { s with mem := Memory.storeWords s.mem dst (kernelUnpack b (Memory.readWords s.mem src (4 * b))) } := by
  obtain ⟨hb, -, -, -, -, -, h⟩ := dispatchUnpack_eq_next.1 h
  obtain ⟨h1, -, rfl⟩ := writeMem_eq_next.1 h
  exact ⟨hb, h1, rfl⟩

/-! ### Bodies that several operations share -/

/-- The emission of one word under the capacity test, with `k` the change of state after it. -/
theorem emit_next {s t : State} {w : Word} {k : State → State}
    (h : withCapacity s 1 (andThen (emitWord s w) fun u => .next (k u)) = .next t) :
    (capOk s 1 = false ∧ t = raise .bufferTooSmall s) ∨
    (capOk s 1 = true ∧ s.outCur.toNat + 1 ≤ Config.memWords ∧
      t = k { s with mem := Memory.storeWords s.mem s.outCur.toNat [w], outCur := BitVec.ofNat 33 (s.outCur.toNat + 1) }) := by
  rcases withCapacity_eq_next.1 h with ⟨hc, h⟩ | h
  · obtain ⟨u, hu, h⟩ := andThen_eq_next.1 h
    obtain ⟨h1, -, rfl⟩ := emitWord_eq_next.1 hu
    cases h
    exact .inr ⟨hc, h1, rfl⟩
  · exact .inl h

/-- The emission of one padding word. -/
theorem emitPad_next {s t : State} (h : withCapacity s 1 (padEmitBody s) = .next t) :
    (capOk s 1 = false ∧ t = raise .bufferTooSmall s) ∨
    (capOk s 1 = true ∧ s.outCur.toNat + 1 ≤ Config.memWords ∧
      t = { s with
              mem := Memory.storeWords s.mem s.outCur.toNat [Config.cookie]
              outCur := BitVec.ofNat 33 (s.outCur.toNat + 1) }) := by
  rcases withCapacity_eq_next.1 h with ⟨hc, h⟩ | h
  · obtain ⟨h1, -, rfl⟩ := emitWord_eq_next.1 h
    exact .inr ⟨hc, h1, rfl⟩
  · exact .inl h

/-- The consumption of a padding word. -/
theorem consumePad_next {s t : State} {w : Word} (h : consumePad s w = .next t) :
    s.inCur.toNat + 1 ≤ Config.memWords ∧
      ((w = Config.cookie ∧ t = { s with inCur := BitVec.ofNat 33 (s.inCur.toNat + 1) }) ∨
        (w ≠ Config.cookie ∧ t = raise .streamCorrupt { s with inCur := BitVec.ofNat 33 (s.inCur.toNat + 1) })) := by
  obtain ⟨u, hu, h⟩ := andThen_eq_next.1 h
  obtain ⟨h1, rfl⟩ := advanceIn_eq_next.1 hu
  refine ⟨h1, ?_⟩
  cases h
  by_cases hw : w = Config.cookie
  · exact .inl ⟨hw, by rw [if_pos hw]⟩
  · exact .inr ⟨hw, by rw [if_neg hw]⟩

/-- The consumption of a header word. -/
theorem consumeHdr_next {s t : State} {a b c d : Byte} (h : consumeHdr s a b c d = .next t) :
    s.inCur.toNat + 1 ≤ Config.memWords ∧
      t = { s with
              inCur := BitVec.ofNat 33 (s.inCur.toNat + 1)
              widths := setFields s.widths s.hdrIdx.toNat a b c d
              hdrIdx := s.hdrIdx + 1#3 } := by
  obtain ⟨u, hu, h⟩ := andThen_eq_next.1 h
  obtain ⟨h1, rfl⟩ := advanceIn_eq_next.1 hu
  cases h
  exact ⟨h1, rfl⟩

/-- The consumption of the length word: `len` and `IN_CUR` are written, then an error is raised or the padding follows. -/
theorem consumeLen_next {s t : State} {l : Word} (h : consumeLen s l = .next t) :
    s.inCur.toNat + 1 ≤ Config.memWords ∧ ∃ u : State,
      u = { s with len := l, inCur := BitVec.ofNat 33 (s.inCur.toNat + 1) } ∧
        ((s.outCur.toNat % 4 ≠ 0 ∧ t = raise .badOutputAlignment u) ∨ (s.outCap.toNat < l.toNat ∧ t = raise .bufferTooSmall u) ∨
          (s.outCur.toNat % 4 = 0 ∧ l.toNat ≤ s.outCap.toNat ∧ l.toNat % 128 = 0
            ∧ s.outBase.toNat + l.toNat ≤ Config.memWords ∧ t = { u with fsm := .dSkippingPadding })) := by
  obtain ⟨u, hu, h⟩ := andThen_eq_next.1 h
  obtain ⟨h1, rfl⟩ := advanceIn_eq_next.1 hu
  refine ⟨h1, _, rfl, ?_⟩
  obtain ⟨-, ⟨hp, h⟩ | ⟨hp, h | ⟨h2, h3, h4, h⟩⟩⟩ := checkLen_eq_next.1 h
  · exact .inl ⟨needsPadAt_eq_true.1 hp, h⟩
  · exact .inr (.inl h)
  · exact .inr (.inr ⟨needsPadAt_eq_false.1 hp, h2, h3, h4, h⟩)

/-- `SCHED_PACK` (R161): memory, `OUT_CUR` and `mb_idx`. -/
theorem schedPackBody_next {s t : State} (h : schedPackBody s = .next t) :
    nextWidth s ≤ 32 ∧ s.outCur.toNat + 4 * nextWidth s ≤ Config.memWords ∧ ∃ u : State,
      dispatchPack s (blkIn s) s.outCur.toNat (nextWidth s) = .next u ∧
      t = { s with
              mem := u.mem
              outCur := BitVec.ofNat 33 (s.outCur.toNat + 4 * nextWidth s)
              mbIdx := s.mbIdx + 1#5 } := by
  obtain ⟨u, hu, h1, rfl⟩ := schedPackBody_eq_next.1 h
  obtain ⟨hb, ⟨-, rfl⟩ | ⟨-, rfl⟩⟩ := dispatchPack_next hu
  · exact ⟨hb, h1, _, hu, rfl⟩
  · exact ⟨hb, h1, _, hu, rfl⟩

/-- `SCHED_UNPACK` (R162): memory, `IN_CUR` and `mb_idx`. -/
theorem schedUnpackBody_next {s t : State} (h : schedUnpackBody s = .next t) :
    nextWidth s ≤ 32 ∧ s.inCur.toNat + 4 * nextWidth s ≤ Config.memWords ∧ ∃ u : State,
      dispatchUnpack s s.inCur.toNat (blkOut s) (nextWidth s) = .next u ∧
      t = { s with
              mem := u.mem
              inCur := BitVec.ofNat 33 (s.inCur.toNat + 4 * nextWidth s)
              mbIdx := s.mbIdx + 1#5 } := by
  obtain ⟨u, hu, h1, rfl⟩ := schedUnpackBody_eq_next.1 h
  obtain ⟨hb, -, rfl⟩ := dispatchUnpack_next hu
  exact ⟨hb, h1, _, hu, rfl⟩

/-! ### The operations -/

/-- `ENCODE` starts a command or is ignored (R240, R242). -/
theorem encode_next {s t : State} (h : exec .encode s = .next t) :
    (fsmReady s.fsm = true ∧ encodePrecondition s = none
      ∧ t = { startCommand 0#1 .eCheckingLength s with len := s.inLen }) ∨ (fsmReady s.fsm = false ∧ t = s) := by
  simp only [exec, execEncode] at h
  split at h
  · exact .inl ⟨by assumption, startEncode_eq_next.1 h⟩
  · cases h; exact .inr ⟨by simp_all, rfl⟩

/-- `DECODE` starts a command or is ignored (R241, R242). -/
theorem decode_next {s t : State} (h : exec .decode s = .next t) :
    (fsmReady s.fsm = true ∧ decodePrecondition s = none ∧ t = startCommand 1#1 .dReadingPrefix s)
      ∨ (fsmReady s.fsm = false ∧ t = s) := by
  simp only [exec, execDecode] at h
  split at h
  · exact .inl ⟨by assumption, startDecode_eq_next.1 h⟩
  · cases h; exact .inr ⟨by simp_all, rfl⟩

theorem eStart_next {s t : State} (h : exec .eStart s = .next t) :
    fsmReady s.fsm = true ∧ encodePrecondition s = none
      ∧ t = { startCommand 0#1 .eCheckingLength s with len := s.inLen } := by
  simp only [exec, execEStart] at h
  split at h
  · exact ⟨by assumption, startEncode_eq_next.1 h⟩
  · cases h

theorem dStart_next {s t : State} (h : exec .dStart s = .next t) :
    fsmReady s.fsm = true ∧ decodePrecondition s = none ∧ t = startCommand 1#1 .dReadingPrefix s := by
  simp only [exec, execDStart] at h
  split at h
  · exact ⟨by assumption, startDecode_eq_next.1 h⟩
  · cases h

theorem widthCheck_next {s t : State} (h : exec .widthCheck s = .next t) :
    t = { s with funcOut := .bit true } ∨ t = raise .streamCorrupt { s with funcOut := .bit false } := by
  simp only [exec, execWidthCheck] at h
  split at h <;> cases h
  · exact .inl rfl
  · exact .inr rfl

theorem padEmit_next {s t : State} (h : exec .padEmit s = .next t) :
    enabledAt .eWritingPadding true s = true ∧ s.outCur.toNat + 1 ≤ Config.memWords ∧
      t = { s with
              mem := Memory.storeWords s.mem s.outCur.toNat [Config.cookie]
              outCur := BitVec.ofNat 33 (s.outCur.toNat + 1) } := by
  obtain ⟨he, h⟩ := fire_eq_next.1 h
  obtain ⟨h1, -, rfl⟩ := emitWord_eq_next.1 h
  exact ⟨he, h1, rfl⟩

theorem padSkip_next {s t : State} (h : exec .padSkip s = .next t) :
    enabledAt .dSkippingPadding true s = true ∧ consumePad s (Memory.readWord s.mem s.inCur.toNat) = .next t := by
  obtain ⟨he, h⟩ := fire_eq_next.1 h
  obtain ⟨-, -, h⟩ := readMem_eq_next.1 h
  exact ⟨he, h⟩

theorem dPad_next {s t : State} (h : exec .dPad s = .next t) :
    enabledAt .dSkippingPadding true s = true ∧ consumePad s (Memory.readWord s.mem s.inCur.toNat) = .next t := by
  obtain ⟨he, h⟩ := fire_eq_next.1 h
  obtain ⟨-, -, h⟩ := readMem_eq_next.1 h
  exact ⟨he, h⟩

theorem schedPack_next {s t : State} (h : exec .schedPack s = .next t) :
    enabledAt .ePackingPayload true s = true ∧ schedPackBody s = .next t := fire_eq_next.1 h

theorem schedUnpack_next {s t : State} (h : exec .schedUnpack s = .next t) :
    enabledAt .dUnpackingPayload true s = true ∧ schedUnpackBody s = .next t := fire_eq_next.1 h

theorem schedEndEnc_next {s t : State} (h : exec .schedEndEnc s = .next t) :
    enabledAt .ePackingPayload false s = true ∧ s.inCur.toNat + 128 * s.mbCnt.toNat ≤ Config.memWords ∧
      t = { s with inCur := BitVec.ofNat 33 (s.inCur.toNat + 128 * s.mbCnt.toNat) } := by
  obtain ⟨he, h⟩ := fire_eq_next.1 h
  exact ⟨he, advanceIn_eq_next.1 h⟩

theorem schedEndDec_next {s t : State} (h : exec .schedEndDec s = .next t) :
    enabledAt .dUnpackingPayload false s = true ∧ s.outCur.toNat + 128 * s.mbCnt.toNat ≤ Config.memWords ∧
      t = { s with outCur := BitVec.ofNat 33 (s.outCur.toNat + 128 * s.mbCnt.toNat) } := by
  obtain ⟨he, h⟩ := fire_eq_next.1 h
  exact ⟨he, advanceOut_eq_next.1 h⟩

theorem eCheckLen_next {s t : State} (h : exec .eCheckLen s = .next t) :
    enabledAt .eCheckingLength true s = true ∧
      ((badLength s.len.toNat = true ∧ t = raise .invalidLength s)
        ∨ (badLength s.len.toNat = false ∧ t = { s with fsm := .eWritingPrefix })) := by
  obtain ⟨he, h⟩ := fire_eq_next.1 h
  refine ⟨he, ?_⟩
  cases h
  cases badLength s.len.toNat
  · exact .inr ⟨rfl, rfl⟩
  · exact .inl ⟨rfl, rfl⟩

theorem ePrefix_next {s t : State} (h : exec .ePrefix s = .next t) :
    enabledAt .eWritingPrefix true s = true ∧ emitLen s s.len = .next t := fire_eq_next.1 h

theorem ePad_next {s t : State} (h : exec .ePad s = .next t) :
    enabledAt .eWritingPadding true s = true ∧ emitPad s = .next t := fire_eq_next.1 h

theorem ePadDone_next {s t : State} (h : exec .ePadDone s = .next t) :
    enabledAt .eWritingPadding false s = true ∧ t = encSelect s := by
  obtain ⟨he, h⟩ := fire_eq_next.1 h
  cases h
  exact ⟨he, rfl⟩

theorem eWidth_next {s t : State} (h : exec .eWidth s = .next t) :
    enabledAt .eComputingWidths true s = true ∧ ∃ v : List Word,
      t = nextWidthState { s with widths := s.widths.setIfInBounds s.mbIdx.toNat (BitVec.ofNat 8 (maxbitsOf v)) } := by
  obtain ⟨he, h⟩ := fire_eq_next.1 h
  obtain ⟨-, -, h⟩ := readMem_eq_next.1 h
  cases h
  exact ⟨he, _, rfl⟩

theorem eHdr_next {s t : State} (h : exec .eHdr s = .next t) :
    enabledAt .eWritingHeader true s = true ∧ emitHdr s (hdrWordOf s.widths s.hdrIdx.toNat) = .next t := fire_eq_next.1 h

theorem ePack_next {s t : State} (h : exec .ePack s = .next t) :
    enabledAt .ePackingPayload true s = true ∧
      ((capOk s (4 * nextWidth s) = true ∧ schedPackBody s = .next t)
        ∨ (capOk s (4 * nextWidth s) = false ∧ t = raise .bufferTooSmall s)) := by
  obtain ⟨he, h⟩ := fire_eq_next.1 h
  exact ⟨he, withCapacity_eq_next.1 h⟩

theorem eBlockEnd_next {s t : State} (h : exec .eBlockEnd s = .next t) :
    enabledAt .ePackingPayload false s = true ∧ s.inCur.toNat + 128 * s.mbCnt.toNat ≤ Config.memWords ∧ ∃ u : State,
      u = { s with inCur := BitVec.ofNat 33 (s.inCur.toNat + 128 * s.mbCnt.toNat) } ∧
        ((s.mbCnt = 16#5 ∧ t = encSelect u) ∨ (s.mbCnt ≠ 16#5 ∧ t = finish (outUsed u) u)) := by
  obtain ⟨he, h⟩ := fire_eq_next.1 h
  obtain ⟨u, hu, h⟩ := andThen_eq_next.1 h
  obtain ⟨h1, rfl⟩ := advanceIn_eq_next.1 hu
  refine ⟨he, h1, _, rfl, ?_⟩
  cases h
  by_cases hc : s.mbCnt = 16#5
  · exact .inl ⟨hc, by rw [if_pos hc]⟩
  · exact .inr ⟨hc, by rw [if_neg hc]⟩

theorem dPrefix_next {s t : State} (h : exec .dPrefix s = .next t) :
    enabledAt .dReadingPrefix true s = true ∧ consumeLen s (Memory.readWord s.mem s.inCur.toNat) = .next t := by
  obtain ⟨he, h⟩ := fire_eq_next.1 h
  obtain ⟨-, -, h⟩ := readMem_eq_next.1 h
  exact ⟨he, h⟩

theorem dPadDone_next {s t : State} (h : exec .dPadDone s = .next t) :
    enabledAt .dSkippingPadding false s = true ∧ t = decSelect s := by
  obtain ⟨he, h⟩ := fire_eq_next.1 h
  cases h
  exact ⟨he, rfl⟩

theorem dHdr_next {s t : State} (h : exec .dHdr s = .next t) :
    enabledAt .dReadingHeader true s = true ∧ ∃ a b c d, consumeHdr s a b c d = .next t := by
  obtain ⟨he, h⟩ := fire_eq_next.1 h
  obtain ⟨-, -, h⟩ := readMem_eq_next.1 h
  exact ⟨he, _, _, _, _, h⟩

theorem dHdrCheck_next {s t : State} (h : exec .dHdrCheck s = .next t) :
    enabledAt .dReadingHeader false s = true ∧
      ((widthOk s.widths s.mbCnt.toNat = true ∧ t = { s with mbIdx := 0#5, fsm := .dUnpackingPayload })
        ∨ (widthOk s.widths s.mbCnt.toNat = false ∧ t = raise .streamCorrupt s)) := by
  obtain ⟨he, h⟩ := fire_eq_next.1 h
  refine ⟨he, ?_⟩
  cases h
  unfold checkWidths
  split
  · exact .inl ⟨by assumption, rfl⟩
  · exact .inr ⟨by simp_all, rfl⟩

theorem dUnpack_next {s t : State} (h : exec .dUnpack s = .next t) :
    enabledAt .dUnpackingPayload true s = true ∧ schedUnpackBody s = .next t := fire_eq_next.1 h

theorem dBlockEnd_next {s t : State} (h : exec .dBlockEnd s = .next t) :
    enabledAt .dUnpackingPayload false s = true ∧ s.outCur.toNat + 128 * s.mbCnt.toNat ≤ Config.memWords ∧ ∃ u : State,
      u = { s with outCur := BitVec.ofNat 33 (s.outCur.toNat + 128 * s.mbCnt.toNat) } ∧
        ((s.mbCnt = 16#5 ∧ t = decSelect u) ∨ (s.mbCnt ≠ 16#5 ∧ t = finish s.len.toNat u)) := by
  obtain ⟨he, h⟩ := fire_eq_next.1 h
  obtain ⟨u, hu, h⟩ := andThen_eq_next.1 h
  obtain ⟨h1, rfl⟩ := advanceOut_eq_next.1 hu
  refine ⟨he, h1, _, rfl, ?_⟩
  cases h
  by_cases hc : s.mbCnt = 16#5
  · exact .inl ⟨hc, by rw [if_pos hc]⟩
  · exact .inr ⟨hc, by rw [if_neg hc]⟩

theorem len_next {l : Word} {s t : State} (h : exec (.len l) s = .next t) :
    (enabledAt .dReadingPrefix true s = true ∧ consumeLen s l = .next t)
      ∨ (enabledAt .eWritingPrefix true s = true ∧ l = s.len ∧ emitLen s l = .next t) := by
  simp only [exec, execLen] at h
  split at h
  · exact .inl ⟨by assumption, h⟩
  · split at h
    · rename_i hc; exact .inr ⟨hc.1, hc.2, h⟩
    · cases h

theorem pad_next {s t : State} (h : exec .pad s = .next t) :
    (enabledAt .dSkippingPadding true s = true ∧ consumePad s Config.cookie = .next t)
      ∨ (enabledAt .eWritingPadding true s = true ∧ emitPad s = .next t) := by
  simp only [exec, execPad] at h
  split at h
  · exact .inl ⟨by assumption, h⟩
  · split at h
    · exact .inr ⟨by assumption, h⟩
    · cases h

theorem hdr_next {a b c d : Byte} {s t : State} (h : exec (.hdr a b c d) s = .next t) :
    (enabledAt .dReadingHeader true s = true ∧ consumeHdr s a b c d = .next t)
      ∨ (enabledAt .eWritingHeader true s = true ∧ emitHdr s (a ++ b ++ c ++ d) = .next t) := by
  simp only [exec, execHdr] at h
  split at h
  · exact .inl ⟨by assumption, h⟩
  · split at h
    · rename_i hc; exact .inr ⟨hc.1, h⟩
    · cases h

end Sys2Proof.Machine
end

