-- ==== Sys2Proof/Laws/PerInstr.lean ====
section
/-! SUPPORT. Per-instruction laws. Family `Codec`: the word the encoder gives an operation fits the width the spec gives its
format (R102: 32 bits, R103: 7 bits, R104: 4 bits, R90: 32 bits for a stream word). -/

namespace Sys2Proof.Laws.Codec

/-- The width of the words on a channel (R90). -/
def channelBits : Channel → Nat
  | .command => 32
  | .start => 32
  | .uop _ => 4
  | .body _ => 4
  | .dispatch _ _ => 7
  | .stream _ => 32

/-- The encoded word of the operation fits its format's width. -/
def Statement (i : Instr) : Prop := ∀ c w, encode i = some (c, w) → w.toNat < 2 ^ channelBits c

/-- An operation encoded as one known word fits if that word does. -/
theorem statement_of_encode {i : Instr} {c : Channel} {w : Word} (h : encode i = some (c, w))
    (hw : w.toNat < 2 ^ channelBits c) : Statement i := by
  intro c' w' h'
  rw [h] at h'
  cases h'
  exact hw

/-- An operation without an encoding fits vacuously. -/
theorem statement_of_none {i : Instr} (h : encode i = none) : Statement i := by
  intro c w h'
  rw [h] at h'
  cases h'

/-- The `PACK` word, `b` (R103), has 7 bits. -/
theorem packWord_lt (b : BitVec 6) : (b.setWidth 32).toNat < 2 ^ 7 := by
  rw [BitVec.toNat_setWidth, Nat.mod_eq_of_lt (by have := b.isLt; omega)]
  have := b.isLt
  omega

/-- The `UNPACK` word, `64 + b` (R103), has 7 bits. -/
theorem unpackWord_lt (b : BitVec 6) : (0x40#32 ||| b.setWidth 32).toNat < 2 ^ 7 := by
  rw [BitVec.toNat_or]
  exact Nat.or_lt_two_pow (by decide) (packWord_lt b)

theorem encode : Statement (.encode) := statement_of_encode rfl (by decide)

theorem decode : Statement (.decode) := statement_of_encode rfl (by decide)

theorem needsPad (x0 : Word) : Statement (.needsPad x0) := statement_of_none rfl

theorem maxbits (x0 : Vector Word 128) : Statement (.maxbits x0) := statement_of_none rfl

theorem hdrPack (x0 : Fin 4) : Statement (.hdrPack x0) := statement_of_none rfl

theorem hdrUnpack (x0 : Fin 4) (x1 : Word) : Statement (.hdrUnpack x0 x1) := statement_of_none rfl

theorem widthCheck : Statement (.widthCheck) := statement_of_none rfl

theorem padEmit : Statement (.padEmit) := statement_of_encode rfl (by decide)

theorem padSkip : Statement (.padSkip) := statement_of_encode rfl (by decide)

theorem pack (x0 : BitVec 6) (x1 : Word) (x2 : Word) : Statement (.pack x0 x1 x2) := statement_of_encode rfl (packWord_lt x0)

theorem unpack (x0 : BitVec 6) (x1 : Word) (x2 : Word) : Statement (.unpack x0 x1 x2) := statement_of_encode rfl (unpackWord_lt x0)

theorem schedPack : Statement (.schedPack) := statement_of_encode rfl (by decide)

theorem schedUnpack : Statement (.schedUnpack) := statement_of_encode rfl (by decide)

theorem schedEndEnc : Statement (.schedEndEnc) := statement_of_encode rfl (by decide)

theorem schedEndDec : Statement (.schedEndDec) := statement_of_encode rfl (by decide)

theorem eStart : Statement (.eStart) := statement_of_encode rfl (by decide)

theorem eCheckLen : Statement (.eCheckLen) := statement_of_encode rfl (by decide)

theorem ePrefix : Statement (.ePrefix) := statement_of_encode rfl (by decide)

theorem ePad : Statement (.ePad) := statement_of_encode rfl (by decide)

theorem ePadDone : Statement (.ePadDone) := statement_of_encode rfl (by decide)

theorem eWidth : Statement (.eWidth) := statement_of_encode rfl (by decide)

theorem eHdr : Statement (.eHdr) := statement_of_encode rfl (by decide)

theorem ePack : Statement (.ePack) := statement_of_encode rfl (by decide)

theorem eBlockEnd : Statement (.eBlockEnd) := statement_of_encode rfl (by decide)

theorem dStart : Statement (.dStart) := statement_of_encode rfl (by decide)

theorem dPrefix : Statement (.dPrefix) := statement_of_encode rfl (by decide)

theorem dPad : Statement (.dPad) := statement_of_encode rfl (by decide)

theorem dPadDone : Statement (.dPadDone) := statement_of_encode rfl (by decide)

theorem dHdr : Statement (.dHdr) := statement_of_encode rfl (by decide)

theorem dHdrCheck : Statement (.dHdrCheck) := statement_of_encode rfl (by decide)

theorem dUnpack : Statement (.dUnpack) := statement_of_encode rfl (by decide)

theorem dBlockEnd : Statement (.dBlockEnd) := statement_of_encode rfl (by decide)

theorem len (x0 : Word) : Statement (.len x0) := statement_of_encode rfl x0.isLt

theorem pad : Statement (.pad) := statement_of_encode rfl (by decide)

theorem hdr (x0 : Byte) (x1 : Byte) (x2 : Byte) (x3 : Byte) : Statement (.hdr x0 x1 x2 x3) := statement_of_encode rfl (encodeHdr x0 x1 x2 x3).isLt

theorem payload (x0 : Word) : Statement (.payload x0) := statement_of_encode rfl x0.isLt

end Sys2Proof.Laws.Codec
end

