-- ==== Sys2Proof/Tests/Slice0.lean ====
section
/-! SUPPORT. Tests of the model. Every expected value stands in the spec: in the vectors of spec/95_test_vectors.md (named by their
section), or in the rule named. A test runs one operation or one step. `witness_` theorems show that the hypotheses of an obligation
can be met. -/

namespace Sys2Proof.Tests

open Sys2Proof Sys2Proof.Machine Sys2Proof.Safety

/-! ### Helpers -/

/-- The outcome is a next state with this property. -/
def nextSat (o : Out) (p : State → Bool) : Bool :=
  match o with
  | .next t => p t
  | .fault _ => false
  | .refused _ => false

/-- The outcome is this refusal. -/
def refusedWith (o : Out) (r : Refusal) : Bool :=
  match o with
  | .next _ => false
  | .fault _ => false
  | .refused q => decide (q = r)

/-- The outcome is this fault. -/
def faultWith (o : Out) (f : Fault) : Bool :=
  match o with
  | .next _ => false
  | .fault g => decide (g = f)
  | .refused _ => false

/-- The decoder reads this instruction. -/
def reads (o : Except DecodeError Instr) (i : Instr) : Bool :=
  match o with
  | .ok j => decide (j = i)
  | .error _ => false

/-- The decoder rejects the word for this reason. -/
def rejects (o : Except DecodeError Instr) (e : DecodeError) : Bool :=
  match o with
  | .ok _ => false
  | .error d => decide (d = e)

/-- A width vector that begins with these widths and goes on with 0. -/
def widthsOf (ws : List Nat) : Vector Byte 16 := Vector.ofFn fun i : Fin 16 => BitVec.ofNat 8 (ws.getD i.val 0)

/-- Memory with words from an address upward and zero elsewhere. -/
def memOf (a : Nat) (ws : List Word) : List Host.Cell := Memory.storeWords [] a ws

/-- A ready engine with the arguments of program P1: input at 0x1000, 128 words, output at 0x2000, capacity 64. -/
def ready : State := { State.reset with inBase := 0x1000#32, inLen := 128#32, outBase := 0x2000#32, outCap := 64#32 }

/-- An `ENCODE` with those arguments in a state, its output cursor `n` words after the base. -/
def encAt (st : FsmState) (n : Nat) : State :=
  { ready with len := 128#32, inCur := 0x1000#33, outCur := BitVec.ofNat 33 (0x2000 + n), fsm := st }

/-- A `DECODE` of a stream at 0x2000 into 0x3000, capacity 128, in a state, its input cursor `n` words after the base. -/
def decAt (st : FsmState) (n : Nat) : State :=
  { State.reset with
    inBase := 0x2000#32
    outBase := 0x3000#32
    outCap := 128#32
    len := 128#32
    lastOp := 1#1
    inCur := BitVec.ofNat 33 (0x2000 + n)
    outCur := 0x3000#33
    fsm := st }

/-! ### Well-formedness: an ill-formed term for each check -/

theorem test_wellFormed_accepts : (Instr.pack 32#6 0#32 0#32).wellFormed = true ∧ (Instr.hdr 32#8 0#8 32#8 0#8).wellFormed = true := by
  decide

theorem test_wellFormed_refuses_pack_33 : (Instr.pack 33#6 0#32 0#32).wellFormed = false := by decide

theorem test_wellFormed_refuses_unpack_63 : (Instr.unpack 63#6 0#32 0#32).wellFormed = false := by decide

theorem test_wellFormed_refuses_hdr_fields :
    (Instr.hdr 33#8 0#8 0#8 0#8).wellFormed = false ∧ (Instr.hdr 0#8 33#8 0#8 0#8).wellFormed = false
      ∧ (Instr.hdr 0#8 0#8 33#8 0#8).wellFormed = false ∧ (Instr.hdr 0#8 0#8 0#8 33#8).wellFormed = false := by decide

/-! ### Decoding: a word of every constructor that has one, bit by bit from the encoding rules -/

/-- Command words (R102). -/
theorem test_decode_command :
    reads (decode .command 0b00000000000000000000000000000001#32) .encode = true
      ∧ reads (decode .command 0b00000000000000000000000000000010#32) .decode = true
      ∧ rejects (decode .command 0#32) .reservedCommand = true ∧ rejects (decode .command 3#32) .reservedCommand = true := by decide

/-- The micro-operations a command value starts (R105). -/
theorem test_decode_start :
    reads (decode .start 1#32) .eStart = true ∧ reads (decode .start 2#32) .dStart = true
      ∧ rejects (decode .start 0x101#32) .reservedCommand = true := by decide

/-- State codes of the encoder (R30, R180). -/
theorem test_decode_encoder_states :
    reads (decode (.uop true) 0b0001#32) .eCheckLen = true ∧ reads (decode (.uop true) 0b0010#32) .ePrefix = true
      ∧ reads (decode (.uop true) 0b0011#32) .ePad = true ∧ reads (decode (.uop false) 0b0011#32) .ePadDone = true
      ∧ reads (decode (.uop true) 0b0100#32) .eWidth = true ∧ reads (decode (.uop true) 0b0101#32) .eHdr = true
      ∧ reads (decode (.uop true) 0b0110#32) .ePack = true ∧ reads (decode (.uop false) 0b0110#32) .eBlockEnd = true := by decide

/-- State codes of the decoder (R30, R210). -/
theorem test_decode_decoder_states :
    reads (decode (.uop true) 0b1000#32) .dPrefix = true ∧ reads (decode (.uop true) 0b1001#32) .dPad = true
      ∧ reads (decode (.uop false) 0b1001#32) .dPadDone = true ∧ reads (decode (.uop true) 0b1010#32) .dHdr = true
      ∧ reads (decode (.uop false) 0b1010#32) .dHdrCheck = true ∧ reads (decode (.uop true) 0b1011#32) .dUnpack = true
      ∧ reads (decode (.uop false) 0b1011#32) .dBlockEnd = true := by decide

/-- The step bodies (R105, R122, R123, R161 to R164). -/
theorem test_decode_bodies :
    reads (decode (.body true) 3#32) .padEmit = true ∧ reads (decode (.body true) 9#32) .padSkip = true
      ∧ reads (decode (.body true) 6#32) .schedPack = true ∧ reads (decode (.body false) 6#32) .schedEndEnc = true
      ∧ reads (decode (.body true) 11#32) .schedUnpack = true ∧ reads (decode (.body false) 11#32) .schedEndDec = true
      ∧ rejects (decode (.body false) 3#32) .noSuchRow = true ∧ rejects (decode (.body true) 4#32) .noSuchRow = true := by decide

/-- Reserved codes 7, 12, 13, the ready states, and numbers that are no code (R30, R104). -/
theorem test_decode_state_rejects :
    rejects (decode (.uop true) 7#32) .reservedState = true ∧ rejects (decode (.uop false) 13#32) .reservedState = true
      ∧ rejects (decode (.uop true) 14#32) .readyState = true ∧ rejects (decode (.uop true) 16#32) .notStateCode = true
      ∧ rejects (decode (.uop false) 8#32) .noSuchRow = true := by decide

/-- Dispatch words with the operands of section 2.5: `PACK 32` is 0x20, `UNPACK 5` is 0x45 (R103). -/
theorem test_decode_dispatch :
    reads (decode (.dispatch 0x1000#32 0x4008#32) 0b0100000#32) (.pack 32#6 0x1000#32 0x4008#32) = true
      ∧ reads (decode (.dispatch 0x4088#32 0x5100#32) 0b1000101#32) (.unpack 5#6 0x4088#32 0x5100#32) = true
      ∧ rejects (decode (.dispatch 0#32 0#32) 0b0100001#32) .reservedWidth = true
      ∧ rejects (decode (.dispatch 0#32 0#32) 0x80#32) .notDispatchWord = true := by decide

/-- Stream words by position (R92 to R96, R101), the header word 0x04042104 of section 2.3. -/
theorem test_decode_stream :
    reads (decode (.stream .lenWord) 128#32) (.len 128#32) = true ∧ reads (decode (.stream .padWord) 123456#32) .pad = true
      ∧ rejects (decode (.stream .padWord) 0xE2400100#32) .notCookie = true
      ∧ reads (decode (.stream .hdrWord) 0b00000100000001000010000100000100#32) (.hdr 4#8 4#8 33#8 4#8) = true
      ∧ reads (decode (.stream .payloadWord) 0x0D090501#32) (.payload 0x0D090501#32) = true := by decide

/-- The five functions have no encoding (R105). -/
theorem test_encode_functions :
    encode (.needsPad 0#32) = none ∧ encode (.maxbits (Vector.replicate 128 0#32)) = none ∧ encode (.hdrPack 0) = none
      ∧ encode (.hdrUnpack 0 0#32) = none ∧ encode .widthCheck = none := by decide

/-- Rows of the opcode table by their words (log 19). -/
theorem test_decodeTableWord :
    decodeTableWord 32 2 = some .decode ∧ decodeTableWord 32 123456 = some .pad ∧ decodeTableWord 8 0x8 = some .dPrefix
      ∧ decodeTableWord 8 0x40 = some (.unpack 0#6 0#32 0#32) ∧ decodeTableWord 8 0x100 = none := by decide

/-! ### Reset, status and the register window -/

/-- Section 2.9: after reset `STATUS`, `ERR`, `NVALUE`, `IN_CUR` and `OUT_CUR` read 0. -/
theorem test_reset_reads :
    [5, 6, 7, 8, 9].map (readReg State.reset) = [0#32, 0#32, 0#32, 0#32, 0#32] ∧ fsmReady State.reset.fsm = true := by decide

/-- The `STATUS` values of section 95: 0xE2, 0xEA, 0xF4, 0xFC (R23). -/
theorem test_status_values :
    statusWord { State.reset with fsm := .done } = 0xE2#32 ∧ statusWord { State.reset with fsm := .done, lastOp := 1#1 } = 0xEA#32
      ∧ statusWord { State.reset with fsm := .error } = 0xF4#32
      ∧ statusWord { State.reset with fsm := .error, lastOp := 1#1 } = 0xFC#32 := by decide

/-- A busy `ENCODE` in `E_WritingHeader` reads 0x51 (R23: state 5, busy). -/
theorem test_status_busy : statusWord (encAt .eWritingHeader 4) = 0x51#32 := by decide

/-- Section 2.9: a reserved command, and writes to read-only registers, change nothing. -/
theorem test_ignored_writes :
    nextSat (hostExec (.wr 0 0x101#32) ready) (fun t => decide (t = ready)) = true
      ∧ nextSat (hostExec (.wr 7 5#32) ready) (fun t => decide (t = ready)) = true := by decide

/-- Section 2.9: `WR IN_BASE 0x5000` while busy is ignored. -/
theorem test_busy_write :
    nextSat (hostExec (.wr 1 0x5000#32) (encAt .eWritingPrefix 0)) (fun t => decide (t = encAt .eWritingPrefix 0)) = true := by decide

/-- R303, P6: the host writes word 0x2010, inside the running command's output region. -/
theorem test_buffer_written :
    refusedWith (hostExec (.mem 0x2010#32 [1#32]) (encAt .eWritingPrefix 0)) .bufferWritten = true := by decide

/-- The stream S1 of 8 words at 0x2000 (section 1.1), decoded into 0x3000. -/
def decS1 (st : FsmState) (n : Nat) : State :=
  { decAt st n with mem := memOf 0x2000 [128#32, 123456#32, 123456#32, 123456#32] }

/-- The lengths of the streams S1, S5 and the prefix-0 stream of section 2.8, and where its corrupt streams end (`IN_CUR` there). -/
theorem test_streamWords :
    streamWords (decS1 .dReadingPrefix 0).mem 0x2000 128 = 8
      ∧ streamWords (memOf 0x4000 ([0x880#32, 123456#32, 123456#32, 123456#32] ++ List.replicate 4 0x01010101#32)
        ++ memOf 0x4048 [0x01000000#32]) 0x4000 0x880 = 80
      ∧ streamWords (memOf 0x2000 [0#32, 123456#32, 123456#32, 123456#32]) 0x2000 0 = 4
      ∧ streamWords (memOf 0x2000 [128#32, 123456#32, 0x1E241#32]) 0x2000 128 = 3
      ∧ streamWords (memOf 0x2000 [128#32, 123456#32, 123456#32, 123456#32, 0x21000000#32, 0#32, 0#32, 0#32, 9#32]) 0x2000 128 = 8 := by
  decide +kernel

/-- R303, R66: while S1 is decoded the host may write the word after the stream and the word after the output, and no word before
them; with a prefix above the capacity there is no output buffer. -/
theorem test_decode_buffers :
    [0x1FFF#32, 0x2008#32, 0x2FFF#32, 0x3080#32].all (fun a =>
        nextSat (hostExec (.mem a [7#32]) (decS1 .dSkippingPadding 1)) fun t => Memory.readWord t.mem a.toNat == 7#32) = true
      ∧ [0x2000#32, 0x2007#32, 0x3000#32, 0x307F#32].all (fun a =>
        refusedWith (hostExec (.mem a [7#32]) (decS1 .dSkippingPadding 1)) .bufferWritten) = true
      ∧ nextSat (hostExec (.mem 0x3000#32 [7#32]) { decS1 .dReadingPrefix 0 with outCap := 127#32 }) (fun _ => true) = true := by
  decide +kernel

/-- R301 P4, R292: an output region that meets the stream behind its prefix is refused, whatever errors hold. -/
theorem test_decode_regions_meet :
    [0x2004#32, 0x2005#32].all (fun o =>
      refusedWith (exec .dPrefix { decS1 .dReadingPrefix 0 with outBase := o, outCur := o.setWidth 33, outCap := 64#32 })
        .regionsOverlap) = true := by decide +kernel

/-- Memory is read back by `EXPECT MEM` (R106): a failed check is counted. -/
theorem test_expect_mem :
    nextSat (hostExec (.expectMem 0x2000#32 [128#32]) { ready with mem := memOf 0x2000 [128#32] })
        (fun t => t.mismatches == 0) = true
      ∧ nextSat (hostExec (.expectMem 0x2000#32 [127#32]) { ready with mem := memOf 0x2000 [128#32] })
        (fun t => t.mismatches == 1) = true := by decide

/-! ### Commands -/

/-- Trace of P1, step 1 of the `ENCODE`. -/
theorem test_encode_starts :
    nextSat (exec .encode ready) (fun t => t.fsm == .eCheckingLength && t.inCur == 0x1000#33 && t.outCur == 0x2000#33
      && t.len == 128#32 && t.lastOp == 0#1) = true := by decide

/-- P1 of R301. -/
theorem test_encode_misaligned : refusedWith (exec .encode { ready with inBase := 0x1001#32 }) .inputMisaligned = true := by decide

/-- Trace of P1, step 1 of the `DECODE`: the indices are left past. -/
theorem test_decode_starts :
    nextSat (exec .decode { ready with inBase := 0x2000#32, hdrIdx := 4#3, mbIdx := 1#5, mbCnt := 1#5, fsm := .done })
      (fun t => t.fsm == .dReadingPrefix && t.inCur == 0x2000#33 && t.hdrIdx == 4#3 && t.mbIdx == 1#5 && t.lastOp == 1#1) = true := by
  decide

/-- Section 2.9: a new command after an error clears `ERR`. -/
theorem test_eStart_clears_error :
    nextSat (exec .eStart { ready with fsm := .error, err := .bufferTooSmall }) (fun t => t.err == .none) = true := by decide

/-- Program P6: the second command while busy is ignored. -/
theorem test_decode_busy : nextSat (exec .decode (encAt .eWritingHeader 4)) (fun t => decide (t = encAt .eWritingHeader 4)) = true := by
  decide

theorem test_dStart_busy : refusedWith (exec .dStart (encAt .eWritingHeader 4)) .notEnabled = true := by decide

/-! ### alignment_checker -/

/-- Section 2.1. -/
theorem test_needsPad :
    [0x0, 0x1, 0x2, 0x3, 0x4, 0x2001, 0x2003, 0x2004, 0xFFFFFFFC, 0xFFFFFFFF].map needsPadAt
      = [false, true, true, true, false, true, true, false, false, true] := by decide

/-- Section 2.1: `PAD_EMIT` at 0x2001. -/
theorem test_padEmit :
    nextSat (exec .padEmit (encAt .eWritingPadding 1))
      (fun t => Memory.readWord t.mem 0x2001 == 123456#32 && t.outCur == 0x2002#33) = true := by decide

/-- Section 2.1: the byte-swapped sentinel is corrupt, and the cursor has moved. -/
theorem test_padSkip :
    nextSat (exec .padSkip { decAt .dSkippingPadding 2 with mem := memOf 0x2002 [0xE2400100#32] })
      (fun t => t.err == .streamCorrupt && t.inCur == 0x2003#33) = true := by decide

/-! ### width_header -/

/-- Section 2.2: widths of the largest value. -/
theorem test_maxbits :
    [0x0, 0x1, 0x2, 0x3, 0x4, 0xFF, 0x100, 0xFFFF, 0x10000, 0x7FFFFFFF, 0x80000000, 0xFFFFFFFF].map
        (fun n => maxbitsOf [BitVec.ofNat 32 n, 0#32])
      = [0, 1, 2, 2, 3, 8, 9, 16, 17, 31, 32, 32] := by decide +kernel

/-- Section 2.2: the width depends on the maximum only. -/
theorem test_maxbits_two_values :
    maxbitsOf [0x10#32, 0xF#32] = 5 ∧ maxbitsOf [0x55555555#32, 0x2AAAAAAA#32] = 31 := by decide +kernel

/-- Section 2.3: `B = 17, 18, …, 32`, header word 3. -/
theorem test_hdrPack :
    nextSat (exec (.hdrPack 3) { ready with widths := Vector.ofFn fun i : Fin 16 => BitVec.ofNat 8 (17 + i.val) })
      (fun t => t.funcOut == .word 0x1D1E1F20#32) = true := by decide

/-- Section 2.3: `hdr_fields(0x00010203) = (0, 1, 2, 3)`. -/
theorem test_hdrUnpack :
    nextSat (exec (.hdrUnpack 1 0x00010203#32) ready)
      (fun t => t.funcOut == .fields 0#8 1#8 2#8 3#8 && t.widths == widthsOf [0, 0, 0, 0, 0, 1, 2, 3]) = true := by decide

/-- Section 2.3: `B = 4, 4, 33, 4` is judged by `cnt`. -/
theorem test_widthCheck :
    [16, 2, 3].map (widthOk (widthsOf [4, 4, 33, 4])) = [false, true, false]
      ∧ nextSat (exec .widthCheck { ready with widths := widthsOf [33], mbCnt := 1#5 }) (fun t => t.err == .streamCorrupt) = true := by
  decide

/-! ### Kernel dispatches and the scheduler -/

/-- Section 2.4: `K.pack` at width 32 copies. -/
theorem test_pack_32 :
    nextSat (exec (.pack 32#6 0x1000#32 0x4008#32) { ready with mem := memOf 0x1000 [0xFFFFFFFF#32] })
      (fun t => Memory.readWord t.mem 0x4008 == 0xFFFFFFFF#32 && Memory.readWord t.mem 0x4009 == 0#32) = true := by decide +kernel

/-- R103, R160: a width above 32 is never dispatched. -/
theorem test_pack_33 : refusedWith (exec (.pack 33#6 0x1000#32 0x4008#32) ready) .dispatchWidth = true := by decide

/-- Section 2.4: `K.unpack([], 0)` writes 128 zeros; R69: and no other word. -/
theorem test_unpack_0 :
    nextSat (exec (.unpack 0#6 0x4088#32 0x5080#32) { ready with mem := memOf 0x5080 (List.replicate 129 7#32) })
      (fun t => Memory.readWord t.mem 0x5080 == 0#32 && Memory.readWord t.mem 0x50FF == 0#32
        && Memory.readWord t.mem 0x5100 == 7#32) = true := by decide +kernel

/-- R64: a misaligned dispatch has no meaning. -/
theorem test_unpack_misaligned : refusedWith (exec (.unpack 0#6 0#32 0x5081#32) ready) .misalignedDispatch = true := by decide

/-- Section 2.5: `SCHED_PACK` with `B = [32, 0, 5]`, first and second miniblock. -/
theorem test_schedPack :
    nextSat (exec .schedPack { encAt .ePackingPayload 0x2008 with widths := widthsOf [32, 0, 5], mbCnt := 16#5 })
        (fun t => t.outCur == 0x4088#33 && t.mbIdx == 1#5 && t.inCur == 0x1000#33) = true
      ∧ nextSat (exec .schedPack { encAt .ePackingPayload 0x2088 with widths := widthsOf [32, 0, 5], mbCnt := 16#5, mbIdx := 1#5 })
        (fun t => t.outCur == 0x4088#33 && t.mbIdx == 2#5 && t.mem == []) = true := by decide +kernel

/-- Section 2.5: `SCHED_UNPACK` with `B = [32, 0, 5]`, first miniblock. -/
theorem test_schedUnpack :
    nextSat (exec .schedUnpack { decAt .dUnpackingPayload 8 with
        widths := widthsOf [32, 0, 5], mbCnt := 1#5, mem := memOf 0x2087 [9#32] })
      (fun t => t.inCur == 0x2088#33 && t.mbIdx == 1#5 && t.outCur == 0x3000#33
        && Memory.readWord t.mem 0x307F == 9#32) = true := by decide +kernel

/-- Section 2.5: `SCHED_END_ENC` with 16 and with 1 miniblocks. -/
theorem test_schedEndEnc :
    nextSat (exec .schedEndEnc { encAt .ePackingPayload 8 with mbIdx := 16#5, mbCnt := 16#5 }) (fun t => t.inCur == 0x1800#33) = true
      ∧ nextSat (exec .schedEndEnc { encAt .ePackingPayload 8 with mbIdx := 1#5, mbCnt := 1#5 }) (fun t => t.inCur == 0x1080#33) = true := by
  decide

/-- Section 2.5: `SCHED_END_DEC` with 16 miniblocks. -/
theorem test_schedEndDec :
    nextSat (exec .schedEndDec { decAt .dUnpackingPayload 8 with mbIdx := 16#5, mbCnt := 16#5, outCur := 0x5000#33 })
      (fun t => t.outCur == 0x5800#33) = true := by decide

/-! ### block_encoder_fsm -/

/-- Section 2.7: the bad lengths 0, 127, 129 and 0xFFFFFFFF, and the good lengths 128 and 0xFFFFFF80. -/
theorem test_eCheckLen :
    [0#32, 127#32, 129#32, 0xFFFFFFFF#32].all (fun l =>
        nextSat (exec .eCheckLen { encAt .eCheckingLength 0 with len := l }) fun t => t.err == .invalidLength) = true
      ∧ [128#32, 0xFFFFFF80#32].all (fun l =>
        nextSat (exec .eCheckLen { encAt .eCheckingLength 0 with len := l }) fun t => t.fsm == .eWritingPrefix) = true := by decide

/-- Trace of P1, step 3. -/
theorem test_ePrefix :
    nextSat (exec .ePrefix (encAt .eWritingPrefix 0))
      (fun t => Memory.readWord t.mem 0x2000 == 128#32 && t.outCur == 0x2001#33 && t.fsm == .eWritingPadding) = true := by decide

/-- Section 2.7: `OUT_CAP = 0`. -/
theorem test_ePrefix_small :
    nextSat (exec .ePrefix { encAt .eWritingPrefix 0 with outCap := 0#32 })
      (fun t => t.err == .bufferTooSmall && t.outCur == 0x2000#33 && t.mem == []) = true := by decide

/-- Section 2.7: `OUT_CAP = 3`, the third padding word. -/
theorem test_ePad_small :
    nextSat (exec .ePad { encAt .eWritingPadding 3 with outCap := 3#32 }) (fun t => t.err == .bufferTooSmall && t.outCur == 0x2003#33) = true
      ∧ nextSat (exec .ePad { encAt .eWritingPadding 2 with outCap := 3#32 }) (fun t => t.outCur == 0x2003#33) = true := by decide

/-- Program P3, step 7: 2176 words remaining make a full block; trace of P1, step 7: 128 make a partial one. -/
theorem test_ePadDone :
    nextSat (exec .ePadDone { encAt .eWritingPadding 4 with len := 2176#32 }) (fun t => t.mbCnt == 16#5) = true
      ∧ nextSat (exec .ePadDone { encAt .eWritingPadding 4 with mbIdx := 3#5, widths := widthsOf [7] })
        (fun t => t.mbCnt == 1#5 && t.mbIdx == 0#5 && t.widths == widthsOf [] && t.fsm == .eComputingWidths) = true := by decide

/-- Trace of P1, step 8, on the miniblock of 127 zeros and the value 128. -/
theorem test_eWidth :
    nextSat (exec .eWidth { encAt .eComputingWidths 4 with mbCnt := 1#5, mem := memOf 0x107F [128#32] })
      (fun t => t.widths == widthsOf [8] && t.mbIdx == 1#5 && t.hdrIdx == 0#3 && t.fsm == .eWritingHeader) = true := by decide +kernel

/-- Trace of P1, steps 9 and 12. -/
theorem test_eHdr :
    nextSat (exec .eHdr { encAt .eWritingHeader 4 with widths := widthsOf [8], mbIdx := 1#5, mbCnt := 1#5 })
        (fun t => Memory.readWord t.mem 0x2004 == 0x08000000#32 && t.hdrIdx == 1#3 && t.fsm == .eWritingHeader) = true
      ∧ nextSat (exec .eHdr { encAt .eWritingHeader 7 with widths := widthsOf [8], hdrIdx := 3#3, mbIdx := 1#5, mbCnt := 1#5 })
        (fun t => t.hdrIdx == 4#3 && t.mbIdx == 0#5 && t.fsm == .ePackingPayload) = true := by decide

/-- Section 1.1, S4: `OUT_CAP = 135` ends in `E_PACK` of miniblock 0, with `OUT_CUR = OUT_BASE + 8`. -/
theorem test_ePack_small :
    nextSat (exec .ePack { encAt .ePackingPayload 8 with outCap := 135#32, widths := widthsOf [32], mbCnt := 16#5 })
      (fun t => t.err == .bufferTooSmall && t.outCur == 0x2008#33 && t.mbIdx == 0#5) = true := by decide

/-- Section 1.1, S4: with `OUT_CAP = 136` the 128 words are written. -/
theorem test_ePack :
    nextSat (exec .ePack { encAt .ePackingPayload 8 with
        outCap := 136#32, widths := widthsOf [32], mbCnt := 16#5, mem := memOf 0x1000 [0xFFFFFFFF#32] })
      (fun t => t.outCur == 0x2088#33 && Memory.readWord t.mem 0x2008 == 0xFFFFFFFF#32) = true := by decide +kernel

/-- Trace of P1, step 14. -/
theorem test_eBlockEnd :
    nextSat (exec .eBlockEnd { encAt .ePackingPayload 40 with mbIdx := 1#5, mbCnt := 1#5 })
      (fun t => t.nvalue == 40#32 && t.inCur == 0x1080#33 && t.fsm == .done) = true := by decide

/-- Program P3, step 44: after the full block of 2176 words one miniblock remains. -/
theorem test_eBlockEnd_full :
    nextSat (exec .eBlockEnd { encAt .ePackingPayload 72 with len := 2176#32, mbIdx := 16#5, mbCnt := 16#5, widths := widthsOf [1] })
      (fun t => t.mbCnt == 1#5 && t.widths == widthsOf [] && t.inCur == 0x1800#33 && t.fsm == .eComputingWidths) = true := by decide

/-! ### block_decoder_fsm -/

/-- Section 2.8: no change, then `OUT_BASE = 0x3000` with capacity 127. -/
theorem test_dPrefix :
    nextSat (exec .dPrefix { decAt .dReadingPrefix 0 with mem := memOf 0x2000 [128#32] })
        (fun t => t.len == 128#32 && t.inCur == 0x2001#33 && t.fsm == .dSkippingPadding) = true
      ∧ nextSat (exec .dPrefix { decAt .dReadingPrefix 0 with mem := memOf 0x2000 [128#32], outCap := 127#32 })
        (fun t => t.err == .bufferTooSmall && t.inCur == 0x2001#33) = true := by decide

/-- Section 2.8: alignment before capacity; a prefix of 100 is refused, or the alignment error wins. -/
theorem test_dPrefix_priority :
    nextSat (exec .dPrefix { decAt .dReadingPrefix 0 with mem := memOf 0x2000 [100#32], outBase := 0x3001#32, outCur := 0x3001#33 })
        (fun t => t.err == .badOutputAlignment) = true
      ∧ refusedWith (exec .dPrefix { decAt .dReadingPrefix 0 with mem := memOf 0x2000 [100#32] }) .prefixNotMultiple = true := by decide

/-- Section 2.8: the third padding word is 0. -/
theorem test_dPad :
    nextSat (exec .dPad (decAt .dSkippingPadding 3)) (fun t => t.err == .streamCorrupt && t.inCur == 0x2004#33) = true
      ∧ nextSat (exec .dPad { decAt .dSkippingPadding 3 with mem := memOf 0x2003 [123456#32] })
        (fun t => t.err == .none && t.inCur == 0x2004#33) = true := by decide

/-- Section 2.8: prefix 0 ends the command with `NVALUE = 0`; trace of P1: 128 words make one miniblock. -/
theorem test_dPadDone :
    nextSat (exec .dPadDone { decAt .dSkippingPadding 4 with len := 0#32, nvalue := 9#32 })
        (fun t => t.fsm == .done && t.nvalue == 0#32) = true
      ∧ nextSat (exec .dPadDone (decAt .dSkippingPadding 4)) (fun t => t.mbCnt == 1#5 && t.hdrIdx == 0#3) = true := by decide

/-- Trace of P1, step 7 of the `DECODE`. -/
theorem test_dHdr :
    nextSat (exec .dHdr { decAt .dReadingHeader 4 with mem := memOf 0x2004 [0x08000000#32], mbCnt := 1#5, widths := widthsOf [1, 1, 1, 1, 1] })
      (fun t => t.widths == widthsOf [8, 0, 0, 0, 1] && t.hdrIdx == 1#3 && t.inCur == 0x2005#33) = true := by decide

/-- Section 2.8: `B[0] = 33` is corrupt, `B[1] = 33` is ignored. -/
theorem test_dHdrCheck :
    nextSat (exec .dHdrCheck { decAt .dReadingHeader 8 with hdrIdx := 4#3, mbCnt := 1#5, widths := widthsOf [33] })
        (fun t => t.err == .streamCorrupt && t.hdrIdx == 4#3) = true
      ∧ nextSat (exec .dHdrCheck { decAt .dReadingHeader 8 with hdrIdx := 4#3, mbCnt := 1#5, widths := widthsOf [0, 33] })
        (fun t => t.fsm == .dUnpackingPayload && t.mbIdx == 0#5) = true := by decide

/-- Section 1.1, S1: `UNPACK 0` writes 128 zeros. -/
theorem test_dUnpack :
    nextSat (exec .dUnpack { decAt .dUnpackingPayload 8 with mbCnt := 1#5, mem := memOf 0x3000 (List.replicate 129 5#32) })
      (fun t => t.inCur == 0x2008#33 && t.mbIdx == 1#5 && t.mem == memOf 0x3080 [5#32]) = true := by decide +kernel

/-- Trace of P1, step 13 of the `DECODE`. -/
theorem test_dBlockEnd :
    nextSat (exec .dBlockEnd { decAt .dUnpackingPayload 40 with mbIdx := 1#5, mbCnt := 1#5 })
      (fun t => t.outCur == 0x3080#33 && t.nvalue == 128#32 && t.fsm == .done) = true := by decide

/-- Program P3, step 28 of the `DECODE`: one miniblock of 2176 words is left. R215 names no `mb_idx`, so by R14 it keeps its value (log
24). -/
theorem test_dBlockEnd_full :
    nextSat (exec .dBlockEnd { decAt .dUnpackingPayload 72 with len := 2176#32, mbIdx := 16#5, mbCnt := 16#5 })
      (fun t => t.outCur == 0x3800#33 && t.mbCnt == 1#5 && t.mbIdx == 16#5 && t.hdrIdx == 0#3
        && t.fsm == .dReadingHeader) = true := by decide

/-! ### Stream words -/

/-- R93, R212: the length word of S1 taken by the decoder. -/
theorem test_len : nextSat (exec (.len 128#32) (decAt .dReadingPrefix 0)) (fun t => t.len == 128#32 && t.inCur == 0x2001#33) = true := by
  decide

/-- R94: the sentinel emitted and accepted. -/
theorem test_pad :
    nextSat (exec .pad (encAt .eWritingPadding 1)) (fun t => Memory.readWord t.mem 0x2001 == 123456#32) = true
      ∧ nextSat (exec .pad (decAt .dSkippingPadding 1)) (fun t => t.inCur == 0x2002#33 && t.err == .none) = true := by decide

/-- R95, R134: a field of 33 is stored as it is. -/
theorem test_hdr :
    nextSat (exec (.hdr 4#8 4#8 33#8 4#8) (decAt .dReadingHeader 4)) (fun t => t.widths == widthsOf [4, 4, 33, 4]) = true := by decide

/-- R96: the engine itself does nothing with a payload word. -/
theorem test_payload : nextSat (exec (.payload 5#32) ready) (fun t => decide (t = ready)) = true := by decide

/-! ### Steps -/

/-- With a command running and no turns, the step is the micro-operation of the state (P1, step 2). -/
theorem test_step_engine : nextSat (step (encAt .eCheckingLength 0)) (fun t => t.fsm == .eWritingPrefix) = true := by decide

/-- R66: a write outside the allocation does not happen; the engine stays busy, and so for ever. -/
theorem test_step_stuck :
    faultWith (exec .ePrefix { encAt .eWritingPrefix 0 with writable := [⟨0x2001, 64⟩] }) .stuckWrite = true
      ∧ nextSat (step { encAt .eWritingPrefix 0 with writable := [⟨0x2001, 64⟩] })
        (fun t => busy t && decide (t = { encAt .eWritingPrefix 0 with writable := [⟨0x2001, 64⟩] })) = true := by decide

/-- R244, R273, R291: beside a stuck engine the host reads `STATUS` (busy, state 2), and can reset. -/
theorem test_step_stuck_host :
    nextSat (step { encAt .eWritingPrefix 0 with writable := [], host := [.rd 5] })
        (fun t => t.rdata == 0x21#32 && t.fsm == .eWritingPrefix && t.err == .none) = true
      ∧ nextSat (step { encAt .eWritingPrefix 0 with writable := [], host := [.reset] }) (fun t => t.fsm == .idle) = true := by decide

/-- With a ready engine the step is the host's statement. -/
theorem test_step_host :
    nextSat (step { ready with host := [.wr 2 100#32, .wait] }) (fun t => t.inLen == 100#32 && t.host == [.wait]) = true := by decide

/-- A placed row runs in the next step from reset: `CMD = 2`, state code 1, and the sentinel. -/
theorem test_withFetchWord :
    nextSat (step (State.reset.withFetchWord 32 2)) (fun t => t.fsm == .dReadingPrefix) = true
      ∧ nextSat (step (State.reset.withFetchWord 8 1)) (fun t => t.err == .invalidLength) = true
      ∧ nextSat (step (State.reset.withFetchWord 32 123456)) (fun t => t.err == .none && t.inCur == 2#33) = true := by decide

/-! ### Witnesses: states and operands that meet the hypotheses of the obligations, clause by clause -/

theorem witness_DecodeOfEncodeIsInstruction :
    (Instr.pack 32#6 0#32 4#32).wellFormed = true ∧ encode (.pack 32#6 0#32 4#32) = some (.dispatch 0#32 4#32, 32#32)
      ∧ (Instr.hdr 32#8 0#8 0#8 32#8).wellFormed = true
      ∧ encode (.hdr 32#8 0#8 0#8 32#8) = some (.stream .hdrWord, 0x20000020#32) := by decide

theorem witness_EncodeOfDecodeIsWord : decode (.uop false) 11#32 = .ok .dBlockEnd ∧ decode (.stream .lenWord) 0#32 = .ok (.len 0#32) := by
  decide

/-- Indices 0 and 3, the ends of the range `k < 4`, and an entry before and after the four of index 1. -/
theorem witness_HeaderFields : 0 < 4 ∧ 3 < 4 ∧ (3 < 4 * (1 : Fin 4).val ∨ 4 * (1 : Fin 4).val + 4 ≤ 3)
    ∧ (8 < 4 * (1 : Fin 4).val ∨ 4 * (1 : Fin 4).val + 4 ≤ 8) := by decide

theorem witness_CommandsAfterReset : Memory.readWord (memOf 0 [1#32]) 0 ≠ 0#32 ∧ Memory.readWord [] 0 = 0#32 := by decide

/-- The last cursor a register can hold, the first reserved number, and a ready state. -/
theorem witness_RegisterWindow :
    ({ ready with inCur := 0xFFFFFFFF#33 }).inCur.toNat < Config.memWords
      ∧ ({ ready with outCur := 0xFFFFFFFF#33 }).outCur.toNat < Config.memWords
      ∧ 10 ≤ 10 ∧ busy ready = false ∧ 5 ≤ 5 := by decide

/-- All sixteen widths 32; width 33 at the last present miniblock. -/
theorem witness_WidthCheckResult :
    ({ ready with mbCnt := 16#5, widths := Vector.replicate 16 32#8 }).mbCnt.toNat ≤ 16
      ∧ (∀ i, i < 16 → (widthAt (Vector.replicate 16 32#8) i).toNat ≤ 32)
      ∧ 2 < ({ ready with mbCnt := 3#5, widths := widthsOf [4, 4, 33] }).mbCnt.toNat
      ∧ 32 < (widthAt (widthsOf [4, 4, 33]) 2).toNat := by decide

theorem witness_PadEmitResult_aligned : (encAt .eWritingPadding 4).fsm = .eWritingPadding ∧ (encAt .eWritingPadding 4).outCur.toNat % 4 = 0 := by
  decide

theorem witness_PadEmitResult :
    (encAt .eWritingPadding 3).fsm = .eWritingPadding ∧ (encAt .eWritingPadding 3).outCur.toNat % 4 ≠ 0
      ∧ MayWrite (encAt .eWritingPadding 3) (encAt .eWritingPadding 3).outCur.toNat 1 := by decide

theorem witness_PadSkipResult_aligned : (decAt .dSkippingPadding 4).fsm = .dSkippingPadding ∧ (decAt .dSkippingPadding 4).inCur.toNat % 4 = 0 := by
  decide

/-- The third padding word, the sentinel. Also for `DPadResult`, `PadWordResult` and `StreamWordsAreMicroOperations`. -/
theorem witness_PadSkipResult_sentinel :
    let s := { decAt .dSkippingPadding 3 with mem := memOf 0x2003 [123456#32] }
    s.fsm = .dSkippingPadding ∧ s.inCur.toNat % 4 ≠ 0 ∧ MayRead s s.inCur.toNat 1 ∧ Memory.readWord s.mem s.inCur.toNat = 0x0001E240#32
      ∧ s.inCur.toNat + 1 ≤ Config.memWords
      ∧ decode (.stream .padWord) (Memory.readWord s.mem s.inCur.toNat) = .ok .pad := by decide

/-- The third padding word, one bit off. Also for `DPadResult`. -/
theorem witness_PadSkipResult_corrupt :
    let s := { decAt .dSkippingPadding 3 with mem := memOf 0x2003 [0x0001E241#32] }
    s.fsm = .dSkippingPadding ∧ s.inCur.toNat % 4 ≠ 0 ∧ MayRead s s.inCur.toNat 1
      ∧ Memory.readWord s.mem s.inCur.toNat ≠ 0x0001E240#32 := by decide

/-- The capacity is exactly 4. -/
theorem witness_PaddingLoopWritesThreeWords :
    let s := { encAt .eWritingPadding 1 with outCap := 4#32 }
    s.fsm = .eWritingPadding ∧ s.outBase.toNat % 4 = 0 ∧ s.outCur.toNat = s.outBase.toNat + 1 ∧ 4 ≤ s.outCap.toNat
      ∧ ∀ j, j < 4 → 1 ≤ j → MayWrite s (s.outBase.toNat + j) 1 := by decide

/-- Values of 5 bits at width 5; payload lists of 0, 20 and 128 words. Also for `KernelSizesAndEndWidths`. -/
theorem witness_KernelInverts :
    (List.replicate 128 31#32).length = 128 ∧ (∀ w ∈ List.replicate 128 31#32, w.toNat < 2 ^ 5)
      ∧ (List.replicate 20 7#32).length = 4 * 5 ∧ ([] : List Word).length = 4 * 0 ∧ (List.replicate 128 7#32).length = 4 * 32 :=
  ⟨List.length_replicate, fun w hw => by rw [List.eq_of_mem_replicate hw]; decide, List.length_replicate, rfl, List.length_replicate⟩

/-- Widths 32 and 0, the ends of the range; the destination starts right after the source. -/
theorem witness_PackResult :
    PackReady ready 0x1000 0x1080 32 ∧ PackReady ready 0x1000 0x1080 0 ∧ PackReady ready 0x1000 0x1080 1 :=
  ⟨by decide +kernel, by decide +kernel, by decide +kernel⟩

/-- Widths 32 and 0; the source ends where the destination starts. -/
theorem witness_UnpackResult :
    UnpackReady ready 0x1000 0x1080 32 ∧ UnpackReady ready 0x1001 0x1080 0 ∧ UnpackReady ready 0x107C 0x1080 1 := by decide +kernel

/-- The miniblock of S4 at width 32, packed to 0x2000 and unpacked to 0x3000. -/
theorem witness_PackThenUnpackRestores_32 :
    let s := { ready with mem := memOf 0x1000 [0xFFFFFFFF#32] }
    PackReady s 0x1000 0x2000 32 ∧ MayRead s 0x2000 128 ∧ UnpackReady s 0x2000 0x3000 32
      ∧ ∀ w ∈ Memory.readWords s.mem 0x1000 128, w.toNat < 2 ^ 32 :=
  ⟨by decide +kernel, by decide +kernel, by decide +kernel, fun w _ => w.isLt⟩

/-- A miniblock of zeros at width 1, a width at which the kernel pair is open. -/
theorem witness_PackThenUnpackRestores_1 :
    PackReady ready 0x1000 0x2000 1 ∧ MayRead ready 0x2000 4 ∧ UnpackReady ready 0x2000 0x3000 1
      ∧ ∀ w ∈ Memory.readWords ready.mem 0x1000 128, w.toNat < 2 ^ 1 := by
  refine ⟨by decide +kernel, by decide +kernel, by decide +kernel, fun w hw => ?_⟩
  obtain ⟨j, -, rfl⟩ := List.mem_map.1 hw
  show (bytesWord 0#8 0#8 0#8 0#8).toNat < 2
  decide

/-- The last of 16 miniblocks at width 32. Also for the packing clause of `EPackResult`, with the capacity exactly used up. -/
theorem witness_SchedPackResult :
    let s := { encAt .ePackingPayload 8 with mbIdx := 15#5, mbCnt := 16#5, widths := Vector.replicate 16 32#8, outCap := 136#32 }
    s.fsm = .ePackingPayload ∧ s.mbIdx.toNat < s.mbCnt.toNat ∧ s.mbCnt.toNat ≤ 16
      ∧ PackReady s (s.inCur.toNat + 128 * s.mbIdx.toNat) s.outCur.toNat (nextWidth s) ∧ s.outCur.toNat ≤ Config.memWords
      ∧ s.outCur.toNat - s.outBase.toNat + 4 * nextWidth s ≤ s.outCap.toNat := by decide +kernel

/-- Width 0, with nothing to write. -/
theorem witness_SchedPackResult_zero :
    let s := { encAt .ePackingPayload 8 with mbCnt := 1#5 }
    s.fsm = .ePackingPayload ∧ s.mbIdx.toNat < s.mbCnt.toNat ∧ s.mbCnt.toNat ≤ 16
      ∧ PackReady s (s.inCur.toNat + 128 * s.mbIdx.toNat) s.outCur.toNat (nextWidth s) ∧ s.outCur.toNat ≤ Config.memWords := by
  decide +kernel

/-- One word short. -/
theorem witness_EPackResult_small :
    let s := { encAt .ePackingPayload 8 with mbCnt := 16#5, widths := widthsOf [32], outCap := 135#32 }
    s.fsm = .ePackingPayload ∧ s.mbIdx.toNat < s.mbCnt.toNat ∧ s.mbCnt.toNat ≤ 16
      ∧ s.outCap.toNat < s.outCur.toNat - s.outBase.toNat + 4 * nextWidth s := by decide

/-- Width 32, and the payload's last word just before the output region. Also for `DUnpackResult`. -/
theorem witness_SchedUnpackResult :
    let s := { decAt .dUnpackingPayload 8 with inCur := 0x2F80#33, mbCnt := 16#5, widths := widthsOf [32] }
    s.fsm = .dUnpackingPayload ∧ s.mbIdx.toNat < s.mbCnt.toNat ∧ s.mbCnt.toNat ≤ 16
      ∧ UnpackReady s s.inCur.toNat (s.outCur.toNat + 128 * s.mbIdx.toNat) (nextWidth s) := by
  decide +kernel

/-- Width 0, nothing to read. Also for `DUnpackResult`. -/
theorem witness_SchedUnpackResult_zero :
    let s := { decAt .dUnpackingPayload 8 with mbCnt := 1#5 }
    s.fsm = .dUnpackingPayload ∧ s.mbIdx.toNat < s.mbCnt.toNat ∧ s.mbCnt.toNat ≤ 16
      ∧ UnpackReady s s.inCur.toNat (s.outCur.toNat + 128 * s.mbIdx.toNat) (nextWidth s) := by
  decide +kernel

theorem witness_SchedEndResults :
    let s := { encAt .ePackingPayload 8 with mbIdx := 16#5, mbCnt := 16#5, inCur := 0xFFFFF800#33 }
    let t := { decAt .dUnpackingPayload 8 with mbIdx := 16#5, mbCnt := 16#5, outCur := 0xFFFFF800#33 }
    (s.mbIdx = s.mbCnt ∧ s.mbCnt.toNat ≤ 16 ∧ s.fsm = .ePackingPayload ∧ s.inCur.toNat + 128 * s.mbCnt.toNat ≤ Config.memWords)
      ∧ (t.mbIdx = t.mbCnt ∧ t.mbCnt.toNat ≤ 16 ∧ t.fsm = .dUnpackingPayload
        ∧ t.outCur.toNat + 128 * t.mbCnt.toNat ≤ Config.memWords) := by decide

/-- An output region that starts where the input ends; a bad length; and all of memory up to its last word. -/
theorem witness_EncodeStarts :
    EncodeAdmitted { ready with outBase := 0x1080#32 } ∧ fsmReady ready.fsm = true
      ∧ EncodeAdmitted { ready with inLen := 0xFFFFFFFF#32 }
      ∧ EncodeAdmitted { ready with inBase := 0xFFFFFF80#32, outCap := 8#32, outBase := 0xFFFFFF78#32 } := by decide

theorem witness_DecodeStarts : fsmReady ready.fsm = true ∧ ready.inBase.toNat % 4 = 0 := by decide

theorem witness_BusyWritesIgnored : busy (encAt .eCheckingLength 0) = true ∧ busy (decAt .dUnpackingPayload 8) = true := by decide

theorem witness_CommandWrites : (0#32 : Word) ≠ 1#32 ∧ (0#32 : Word) ≠ 2#32 ∧ (3#32 : Word) ≠ 1#32 ∧ (3#32 : Word) ≠ 2#32 := by decide

/-- P1 and P2; P5 with a last input word one past the top; P4 with a region that ends one word into the other. -/
theorem witness_BrokenPreconditionsRefused_encode :
    let p1 := { ready with inBase := 0x1003#32 }
    let p2 := { ready with outBase := 0x2001#32 }
    let p5 := { ready with inBase := 0xFFFFFF84#32 }
    let p4 := { ready with outBase := 0x107C#32 }
    (fsmReady p1.fsm = true ∧ p1.inBase.toNat % 4 ≠ 0)
      ∧ (fsmReady p2.fsm = true ∧ p2.inBase.toNat % 4 = 0 ∧ p2.outBase.toNat % 4 ≠ 0)
      ∧ (fsmReady p5.fsm = true ∧ p5.inBase.toNat % 4 = 0 ∧ p5.outBase.toNat % 4 = 0 ∧ 0 < p5.inLen.toNat
        ∧ p5.inLen.toNat % 128 = 0 ∧ ¬ EncodeInSpace p5)
      ∧ (fsmReady p4.fsm = true ∧ p4.inBase.toNat % 4 = 0 ∧ p4.outBase.toNat % 4 = 0 ∧ 0 < p4.inLen.toNat
        ∧ p4.inLen.toNat % 128 = 0 ∧ EncodeInSpace p4 ∧ ¬ EncodeApart p4) := by decide

/-- P4 behind the prefix, P3, and P5 with the last output word one past the top. -/
theorem witness_BrokenPreconditionsRefused_prefix :
    let p4 := { decS1 .dReadingPrefix 0 with outBase := 0x2004#32, outCur := 0x2004#33, outCap := 64#32 }
    let p3 := { decAt .dReadingPrefix 0 with mem := memOf 0x2000 [127#32] }
    let p5 := { decS1 .dReadingPrefix 0 with outBase := 0xFFFFFF84#32, outCur := 0xFFFFFF84#33 }
    (p4.fsm = .dReadingPrefix ∧ MayRead p4 p4.inCur.toNat 1 ∧ Memory.readWord p4.mem p4.inCur.toNat = 128#32 ∧ ¬ StreamApart p4 128)
      ∧ (p3.fsm = .dReadingPrefix ∧ MayRead p3 p3.inCur.toNat 1 ∧ Memory.readWord p3.mem p3.inCur.toNat = 127#32
        ∧ StreamApart p3 127 ∧ p3.outCur.toNat % 4 = 0 ∧ 127 ≤ p3.outCap.toNat ∧ 127 % 128 ≠ 0)
      ∧ (p5.fsm = .dReadingPrefix ∧ MayRead p5 p5.inCur.toNat 1 ∧ Memory.readWord p5.mem p5.inCur.toNat = 128#32
        ∧ StreamApart p5 128 ∧ p5.outCur.toNat % 4 = 0 ∧ 128 ≤ p5.outCap.toNat ∧ 128 % 128 = 0
        ∧ Config.memWords < p5.outBase.toNat + 128) := by decide +kernel

/-- A stream that passes the top at a header word, at a payload, and (in a state no run reaches, since `IN_BASE` is aligned) at a padding
word. -/
theorem witness_BrokenPreconditionsRefused_stream :
    let pad := { decAt .dSkippingPadding 0 with inCur := 0x100000001#33 }
    let hdr := { decAt .dReadingHeader 0 with inCur := 0x100000000#33 }
    let pay := { decAt .dUnpackingPayload 0 with inCur := 0xFFFFFFFC#33, mbCnt := 16#5, widths := widthsOf [2] }
    (Config.memWords < pad.inCur.toNat + 1 ∧ pad.fsm = .dSkippingPadding ∧ pad.inCur.toNat % 4 ≠ 0)
      ∧ (Config.memWords < hdr.inCur.toNat + 1 ∧ hdr.fsm = .dReadingHeader ∧ hdr.hdrIdx.toNat < 4)
      ∧ (pay.fsm = .dUnpackingPayload ∧ pay.mbIdx.toNat < pay.mbCnt.toNat ∧ pay.mbCnt.toNat ≤ 16 ∧ nextWidth pay ≤ 32
        ∧ pay.inCur.toNat % 4 = 0 ∧ pay.outCur.toNat % 4 = 0 ∧ Apart pay.inCur.toNat (4 * nextWidth pay) (blkOut pay) 128
        ∧ Config.memWords < pay.inCur.toNat + 4 * nextWidth pay) := by decide

/-- P6: the words at and beside the ends of an `ENCODE`'s input region, and an `ENCODE` of a bad length. -/
theorem witness_BrokenPreconditionsRefused_encodeInput :
    let s := encAt .eWritingPrefix 0
    let bad := { encAt .eCheckingLength 0 with len := 100#32 }
    s.fsm = .eWritingPrefix ∧ bad.fsm = .eCheckingLength ∧ 0x1080 + 1 ≤ Config.memWords
      ∧ OutsideEncode s 0xFFF 1 ∧ ¬ OutsideEncode s 0x1000 1 ∧ ¬ OutsideEncode s 0x107F 1 ∧ OutsideEncode s 0x1080 1
      ∧ OutsideEncode bad 0x1000 1 := by decide

/-- P6: the same of its output region (a capacity of 64 words). -/
theorem witness_BrokenPreconditionsRefused_encodeOutput :
    let s := encAt .eWritingPrefix 0
    s.fsm = .eWritingPrefix ∧ 0x2040 + 1 ≤ Config.memWords
      ∧ OutsideEncode s 0x1FFF 1 ∧ ¬ OutsideEncode s 0x2000 1 ∧ ¬ OutsideEncode s 0x203F 1 ∧ OutsideEncode s 0x2040 1 := by decide

/-- P6: the same of a `DECODE` of S1. -/
theorem witness_BrokenPreconditionsRefused_decodeWrite :
    let s := decS1 .dSkippingPadding 1
    s.fsm = .dSkippingPadding ∧ s.len.toNat = 128 ∧ 0x3080 + 1 ≤ Config.memWords
      ∧ ¬ OutsideDecode s 128 0x2007 1 ∧ OutsideDecode s 128 0x2008 1
      ∧ ¬ OutsideDecode s 128 0x307F 1 ∧ OutsideDecode s 128 0x3080 1 := by decide +kernel

/-- P6: a `DECODE` of S1 whose prefix is above the capacity keeps its input alone. -/
theorem witness_BrokenPreconditionsRefused_decodeSmall :
    let s := { decS1 .dReadingPrefix 0 with outCap := 127#32 }
    s.fsm = .dReadingPrefix ∧ (Memory.readWord s.mem s.inBase.toNat).toNat = 128
      ∧ ¬ OutsideDecode s 128 0x2007 1 ∧ OutsideDecode s 128 0x3000 1 := by decide +kernel

theorem witness_ECheckLenResult :
    (encAt .eCheckingLength 0).fsm = .eCheckingLength ∧ ({ encAt .eCheckingLength 0 with len := 0#32 }).len.toNat = 0
      ∧ ({ encAt .eCheckingLength 0 with len := 127#32 }).len.toNat % 128 ≠ 0
      ∧ 0 < (encAt .eCheckingLength 0).len.toNat ∧ (encAt .eCheckingLength 0).len.toNat % 128 = 0 := by decide

/-- Capacity 0 and capacity 1. -/
theorem witness_EPrefixResult :
    let s := { encAt .eWritingPrefix 0 with outCap := 0#32 }
    let t := { encAt .eWritingPrefix 0 with outCap := 1#32 }
    (s.fsm = .eWritingPrefix ∧ s.outCap.toNat < s.outCur.toNat - s.outBase.toNat + 1)
      ∧ (t.fsm = .eWritingPrefix ∧ t.outCur.toNat - t.outBase.toNat + 1 ≤ t.outCap.toNat ∧ MayWrite t t.outCur.toNat 1) := by decide

/-- Capacities 3 and 4 at the third padding word. Also for the encoder's clause of `PadWordResult`. -/
theorem witness_EPadResult :
    let s := { encAt .eWritingPadding 3 with outCap := 3#32 }
    let t := { encAt .eWritingPadding 3 with outCap := 4#32 }
    (s.fsm = .eWritingPadding ∧ s.outCur.toNat % 4 ≠ 0 ∧ s.outCap.toNat < s.outCur.toNat - s.outBase.toNat + 1)
      ∧ (t.fsm = .eWritingPadding ∧ t.outCur.toNat % 4 ≠ 0 ∧ t.outCur.toNat - t.outBase.toNat + 1 ≤ t.outCap.toNat
        ∧ MayWrite t t.outCur.toNat 1) := by decide

/-- Lengths 2048, 1920 and, with the whole input passed, 0 words remaining. -/
theorem witness_EPadDoneResult :
    let s := encAt .eWritingPadding 4
    let full := { s with len := 2048#32 }
    let part := { s with len := 1920#32 }
    let past := { s with inCur := 0x1080#33 }
    s.fsm = .eWritingPadding ∧ s.outCur.toNat % 4 = 0
      ∧ full.inCur.toNat + 2048 = full.inBase.toNat + full.len.toNat
      ∧ part.inCur.toNat + 1920 = part.inBase.toNat + part.len.toNat
      ∧ past.inCur.toNat + 0 = past.inBase.toNat + past.len.toNat := by decide

/-- The first of two miniblocks, and the last of sixteen. -/
theorem witness_EWidthResult :
    let s := { encAt .eComputingWidths 4 with mbCnt := 2#5 }
    let t := { encAt .eComputingWidths 4 with mbIdx := 15#5, mbCnt := 16#5 }
    (s.fsm = .eComputingWidths ∧ s.mbIdx.toNat < s.mbCnt.toNat ∧ s.mbCnt.toNat ≤ 16
        ∧ MayRead s (s.inCur.toNat + 128 * s.mbIdx.toNat) 128 ∧ s.mbIdx.toNat + 1 < s.mbCnt.toNat)
      ∧ (t.fsm = .eComputingWidths ∧ t.mbIdx.toNat < t.mbCnt.toNat ∧ t.mbCnt.toNat ≤ 16
        ∧ MayRead t (t.inCur.toNat + 128 * t.mbIdx.toNat) 128 ∧ t.mbIdx.toNat + 1 = t.mbCnt.toNat) := by decide +kernel

/-- Header words 0, 2 and 3; capacities 4 and 5 at word 0. Also for `StreamWordsAreMicroOperations`. -/
theorem witness_EHdrResult :
    let s := { encAt .eWritingHeader 4 with outCap := 4#32 }
    let t := { encAt .eWritingHeader 6 with hdrIdx := 2#3, outCap := 7#32 }
    let u := { encAt .eWritingHeader 7 with hdrIdx := 3#3, outCap := 8#32 }
    (s.fsm = .eWritingHeader ∧ s.hdrIdx.toNat < 4 ∧ s.outCap.toNat < s.outCur.toNat - s.outBase.toNat + 1)
      ∧ (t.fsm = .eWritingHeader ∧ t.hdrIdx.toNat < 3 ∧ t.outCur.toNat - t.outBase.toNat + 1 ≤ t.outCap.toNat
        ∧ MayWrite t t.outCur.toNat 1)
      ∧ (u.fsm = .eWritingHeader ∧ u.hdrIdx.toNat = 3 ∧ u.outCur.toNat - u.outBase.toNat + 1 ≤ u.outCap.toNat
        ∧ MayWrite u u.outCur.toNat 1) := by decide

/-- A partial block of 15; a full block with 0, 2048 and 1920 words after it. -/
theorem witness_EBlockEndResult :
    let part := { encAt .ePackingPayload 8 with mbIdx := 15#5, mbCnt := 15#5, len := 1920#32 }
    let full := { encAt .ePackingPayload 8 with mbIdx := 16#5, mbCnt := 16#5 }
    (part.fsm = .ePackingPayload ∧ part.mbIdx = part.mbCnt ∧ part.mbCnt.toNat < 16
        ∧ part.inCur.toNat + 128 * part.mbCnt.toNat ≤ Config.memWords
        ∧ part.inCur.toNat + 128 * part.mbCnt.toNat + 0 = part.inBase.toNat + part.len.toNat)
      ∧ (full.fsm = .ePackingPayload ∧ full.mbIdx = full.mbCnt ∧ full.mbCnt.toNat = 16
        ∧ full.inCur.toNat + 128 * full.mbCnt.toNat ≤ Config.memWords
        ∧ (∀ rem, rem = 0 ∨ rem = 1920 ∨ rem = 2048 →
          full.inCur.toNat + 128 * full.mbCnt.toNat + rem = full.inBase.toNat + ({ full with len := BitVec.ofNat 32 (2048 + rem) }).len.toNat)) := by
  refine ⟨by decide, by decide, by decide, by decide, by decide, ?_⟩
  rintro rem (rfl | rfl | rfl) <;> decide

theorem witness_EncoderStaysInCapacity :
    (encAt .eWritingPadding 1).outBase.toNat ≤ (encAt .eWritingPadding 1).outCur.toNat
      ∧ ∃ t, exec .ePad (encAt .eWritingPadding 1) = .next t := ⟨by decide, _, rfl⟩

/-- The three ends of `D_PREFIX`: misaligned output; one word too many; and exactly the capacity. -/
theorem witness_DPrefixResult :
    let mis := { decAt .dReadingPrefix 0 with mem := memOf 0x2000 [128#32], outCur := 0x3001#33 }
    let past := { decAt .dReadingPrefix 0 with mem := memOf 0x2000 [129#32] }
    let ok := { decAt .dReadingPrefix 0 with mem := memOf 0x2000 [128#32] }
    (mis.fsm = .dReadingPrefix ∧ MayRead mis mis.inCur.toNat 1 ∧ Memory.readWord mis.mem mis.inCur.toNat = 128#32
        ∧ StreamApart mis 128 ∧ mis.outCur.toNat % 4 ≠ 0)
      ∧ (past.fsm = .dReadingPrefix ∧ MayRead past past.inCur.toNat 1 ∧ Memory.readWord past.mem past.inCur.toNat = 129#32
        ∧ past.outCur.toNat % 4 = 0 ∧ StreamApart past 129 ∧ past.outCap.toNat < 129)
      ∧ (ok.fsm = .dReadingPrefix ∧ MayRead ok ok.inCur.toNat 1 ∧ Memory.readWord ok.mem ok.inCur.toNat = 128#32
        ∧ ok.outCur.toNat % 4 = 0 ∧ StreamApart ok 128 ∧ 128 ≤ ok.outCap.toNat ∧ 128 % 128 = 0
        ∧ ok.outBase.toNat + 128 ≤ Config.memWords) := by decide

/-- The same state as the last clause: `LEN` taken by the decoder. -/
theorem witness_LenWordResult :
    let s := decAt .dReadingPrefix 0
    s.fsm = .dReadingPrefix ∧ s.inCur.toNat + 1 ≤ Config.memWords ∧ s.outCur.toNat % 4 = 0
      ∧ StreamApart s 128 ∧ 128 ≤ s.outCap.toNat ∧ 128 % 128 = 0
      ∧ s.outBase.toNat + 128 ≤ Config.memWords := by decide

/-- Lengths 2048, 1920 and 0 with nothing written. -/
theorem witness_DPadDoneResult :
    let s := decAt .dSkippingPadding 4
    s.fsm = .dSkippingPadding ∧ s.inCur.toNat % 4 = 0 ∧ s.outCur.toNat = s.outBase.toNat + 0
      ∧ 0 + 2048 ≤ ({ s with len := 2048#32 }).len.toNat
      ∧ (0 < ({ s with len := 1920#32 }).len.toNat ∧ ({ s with len := 1920#32 }).len.toNat < 0 + 2048)
      ∧ ({ s with len := 0#32 }).len.toNat ≤ 0 := by decide

/-- The last header word. Also for `HdrWordResult` and `StreamWordsAreMicroOperations`. -/
theorem witness_DHdrResult :
    let s := { decAt .dReadingHeader 7 with hdrIdx := 3#3 }
    s.fsm = .dReadingHeader ∧ s.hdrIdx.toNat < 4 ∧ MayRead s s.inCur.toNat 1 ∧ s.inCur.toNat + 1 ≤ Config.memWords := by decide

/-- All sixteen widths 32; width 33 in the last miniblock of a full block. -/
theorem witness_DHdrCheckResult :
    let s := { decAt .dReadingHeader 8 with hdrIdx := 4#3, mbCnt := 16#5, widths := Vector.replicate 16 32#8 }
    let t := { s with widths := s.widths.setIfInBounds 15 33#8 }
    (s.fsm = .dReadingHeader ∧ s.hdrIdx.toNat = 4 ∧ s.mbCnt.toNat ≤ 16
        ∧ ∀ i, i < s.mbCnt.toNat → (widthAt s.widths i).toNat ≤ 32)
      ∧ (t.fsm = .dReadingHeader ∧ t.hdrIdx.toNat = 4 ∧ 15 < t.mbCnt.toNat ∧ 32 < (widthAt t.widths 15).toNat) := by decide

/-- A partial block of 15; a full block with 0, 2048 and 1920 words of the length after it. -/
theorem witness_DBlockEndResult :
    let part := { decAt .dUnpackingPayload 8 with mbIdx := 15#5, mbCnt := 15#5, len := 1920#32 }
    let full := { decAt .dUnpackingPayload 8 with mbIdx := 16#5, mbCnt := 16#5, len := 2048#32 }
    (part.fsm = .dUnpackingPayload ∧ part.mbIdx = part.mbCnt ∧ part.mbCnt.toNat < 16
        ∧ part.outCur.toNat + 128 * part.mbCnt.toNat ≤ Config.memWords
        ∧ part.outCur.toNat + 128 * part.mbCnt.toNat = part.outBase.toNat + 1920)
      ∧ (full.fsm = .dUnpackingPayload ∧ full.mbIdx = full.mbCnt ∧ full.mbCnt.toNat = 16
        ∧ full.outCur.toNat + 128 * full.mbCnt.toNat ≤ Config.memWords
        ∧ full.outCur.toNat + 128 * full.mbCnt.toNat = full.outBase.toNat + 2048
        ∧ full.len.toNat ≤ 2048
        ∧ 2048 + 2048 ≤ ({ full with len := 4096#32 }).len.toNat
        ∧ (2048 < ({ full with len := 3968#32 }).len.toNat ∧ ({ full with len := 3968#32 }).len.toNat < 2048 + 2048)) := by decide

/-- The encoder's clauses of `StreamWordsAreMicroOperations`, and its decoder clause on the length word. -/
theorem witness_StreamWordsAreMicroOperations :
    (decAt .dReadingPrefix 0).fsm = .dReadingPrefix ∧ MayRead (decAt .dReadingPrefix 0) (decAt .dReadingPrefix 0).inCur.toNat 1
      ∧ (encAt .eWritingPrefix 0).fsm = .eWritingPrefix
      ∧ (encAt .eWritingPadding 1).fsm = .eWritingPadding ∧ (encAt .eWritingPadding 1).outCur.toNat % 4 ≠ 0 := by decide

theorem witness_StepRunsEnabledMicroOperation :
    let s := { encAt .ePackingPayload 8 with mbIdx := 1#5, mbCnt := 1#5 }
    mover s = some .engine ∧ uopGuard s = some false ∧ decode (.uop false) ((fsmCode s.fsm).setWidth 32) = .ok .eBlockEnd
      ∧ s.turns = [] := by decide

/-- A stuck engine, alone and with a statement of the host pending. -/
theorem witness_StepRunsEnabledMicroOperation_stuck :
    let s := { encAt .eWritingPrefix 0 with writable := [], turns := [.engine] }
    uopGuard s = some true ∧ decode (.uop true) ((fsmCode s.fsm).setWidth 32) = .ok .ePrefix
      ∧ exec .ePrefix (popTurn s) = .fault .stuckWrite ∧ s.host = [] ∧ ({ s with host := [.wait] }).host = .wait :: [] := by
  refine ⟨by decide, by decide, rfl, by decide, by decide⟩

/-- The host's turn while the engine is busy, and a ready engine. -/
theorem witness_StepRunsHostStatement :
    let s := { encAt .eCheckingLength 0 with turns := [.host], host := [.wr 0 1#32] }
    let t := { ready with host := [.wr 0 2#32, .wait] }
    (mover s = some .host ∧ s.host = .wr 0 1#32 :: []) ∧ (mover t = some .host ∧ t.host = .wr 0 2#32 :: [.wait]) := by decide

/-- A state of the invariant in the middle of a full block's header, busy. Also for `EngineInvariantKept`. -/
theorem witness_EngineInv :
    let s := { encAt .eWritingHeader 6 with hdrIdx := 2#3, mbIdx := 16#5, mbCnt := 16#5, len := 2048#32, widths := Vector.replicate 16 32#8 }
    EngineInv s ∧ busy s = true ∧ ∃ t, step s = .next t := by
  refine ⟨⟨by decide, by decide, ⟨by decide, by decide, by decide⟩, ⟨by decide, by decide, by decide, by decide, by decide⟩,
    ⟨by decide, by decide⟩, by decide, by decide, by decide, ?_⟩, by decide, _, rfl⟩
  show ∀ i, i < 16 → (widthAt (Vector.replicate 16 32#8) i).toNat ≤ 32
  decide

/-- A state of the decoder that meets the invariant, busy. -/
theorem witness_EngineInv_decoder :
    EngineInv (decAt .dSkippingPadding 1) ∧ busy (decAt .dSkippingPadding 1) = true
      ∧ ∃ t, step (decAt .dSkippingPadding 1) = .next t :=
  ⟨⟨by decide, by decide, ⟨by decide, by decide, by decide⟩, ⟨by decide, by decide, by decide⟩, by decide, by decide, by decide⟩,
    by decide, _, rfl⟩

/-- An encoded operation that is not the one enabled. -/
theorem witness_RunningStateHasOneMicroOperation :
    encode .ePrefix = some (.uop true, 2#32) ∧ fetch (encAt .eWritingPadding 1) = some .ePad := by decide

theorem witness_MemoryStaysCanonical :
    CanonicalMemory { encAt .eWritingPrefix 0 with mem := memOf 0x1000 [1#32] }
      ∧ ∃ t, step { encAt .eWritingPrefix 0 with mem := memOf 0x1000 [1#32] } = .next t :=
  ⟨by unfold CanonicalMemory; decide, _, rfl⟩

/-- Hypotheses of `ErrorRegisterMatchesState`: a step that enters the error state. -/
theorem witness_ErrorRegisterMatchesState :
    let s := { encAt .eWritingPrefix 0 with outCap := 0#32 }
    ErrorRecorded s ∧ ∃ t, step s = .next t :=
  ⟨by unfold ErrorRecorded; decide, _, rfl⟩

/-- Hypotheses of `RegisterFrame`, `MemoryFrame` and `ArgumentsAndResultFrame`: a register the step does
not write and a byte outside the stored word. -/
theorem witness_Frames :
    (∃ t, exec .ePrefix (encAt .eWritingPrefix 0) = .next t) ∧ Reg.len ∉ writes .ePrefix
      ∧ outside (storeRegion .ePrefix (encAt .eWritingPrefix 0)) (4 * 0x2001)
      ∧ outside (storeRegion .ePrefix (encAt .eWritingPrefix 0)) (4 * 0x2000 - 1) :=
  ⟨⟨_, rfl⟩, by decide, .inr (by decide), .inl (by decide)⟩

end Sys2Proof.Tests
end

/-! Proof of `Obligations.EngineInvariantKept`. The invariant of R39 splits into bounds that hold in every state and what the
running command adds state by state; each micro-operation is enabled in one state only, so its proof starts from what the invariant
says there. -/

namespace Sys2Proof.Proofs.Invariant

open Sys2Proof.Machine Sys2Proof.Safety

/-! ### The invariant taken apart -/

/-- The part of `EngineInv` that does not look at the FSM state: cursors in the address space, indices in their ranges. -/
def Bounded (s : State) : Prop :=
  s.inCur.toNat ≤ Config.memWords ∧ s.outCur.toNat ≤ Config.memWords ∧ IndexRanges s

theorem engineInv_iff {s : State} : EngineInv s ↔ Bounded s ∧ RunningInv s := by
  simp only [EngineInv, Bounded, and_assoc]

theorem bounded_of_engineInv {s : State} (hs : EngineInv s) : Bounded s := (engineInv_iff.1 hs).1

/-- Where an operation is enabled, the running command is as the invariant says of that state. -/
theorem runningInv_of_enabled {s : State} {st : FsmState} {g : Bool} (hs : EngineInv s) (he : enabledAt st g s = true) :
    RunningInv { s with fsm := st } := by
  rw [← (enabledAt_iff.1 he).1]
  exact (engineInv_iff.1 hs).2

/-- A ready state has no running command, so the bounds are all of its invariant. -/
theorem engineInv_of_ready {s : State} (hb : Bounded s) (hr : fsmReady s.fsm = true) : EngineInv s := by
  refine engineInv_iff.2 ⟨hb, ?_⟩
  cases hf : s.fsm <;> simp_all [RunningInv, fsmReady]

/-- The way back: the bounds, and what the invariant says of the state the operation stays in. -/
theorem engineInv_of_fsm {s : State} {st : FsmState} (hf : s.fsm = st) (hb : Bounded s)
    (hr : RunningInv { s with fsm := st }) : EngineInv s := by
  subst hf
  exact engineInv_iff.2 ⟨hb, hr⟩

/-! ### What the updates of cursors and indices keep -/

theorem bounded_inCur {s : State} {n : Nat} (hb : Bounded s) (hn : n ≤ Config.memWords) :
    Bounded { s with inCur := BitVec.ofNat 33 n } :=
  ⟨(cursor_toNat hn).trans_le hn, hb.2⟩

theorem bounded_outCur {s : State} {n : Nat} (hb : Bounded s) (hn : n ≤ Config.memWords) :
    Bounded { s with outCur := BitVec.ofNat 33 n } :=
  ⟨hb.1, (cursor_toNat hn).trans_le hn, hb.2.2⟩

theorem bounded_indices {s : State} {h : BitVec 3} {m c : BitVec 5} (hb : Bounded s) (hh : h.toNat ≤ 4) (hm : m.toNat ≤ 16)
    (hc : c.toNat ≤ 16) : Bounded { s with hdrIdx := h, mbIdx := m, mbCnt := c } :=
  ⟨hb.1, hb.2.1, hh, hm, hc⟩

theorem encoderBases_outCur {s : State} {n : Nat} (h : EncoderBases s)
    (hn : s.outCur.toNat + n ≤ Config.memWords) :
    EncoderBases { s with outCur := BitVec.ofNat 33 (s.outCur.toNat + n) } := by
  obtain ⟨hin, hout, hic, hoc, hblk⟩ := h
  exact ⟨hin, hout, hic, by simp only [cursor_toNat hn]; omega, hblk⟩

/-- The encoder's input cursor moves by whole miniblocks (R163). -/
theorem encoderBases_inCur {s : State} {c : Nat} (h : EncoderBases s) (hn : s.inCur.toNat + 128 * c ≤ Config.memWords) :
    EncoderBases { s with inCur := BitVec.ofNat 33 (s.inCur.toNat + 128 * c) } := by
  obtain ⟨hin, hout, hic, hoc, hblk⟩ := h
  refine ⟨hin, hout, ?_, hoc, ?_⟩ <;> simp only [cursor_toNat hn] <;> omega

theorem decoderBases_inCur {s : State} {n : Nat} (h : DecoderBases s) (hn : s.inCur.toNat + n ≤ Config.memWords) :
    DecoderBases { s with inCur := BitVec.ofNat 33 (s.inCur.toNat + n) } := by
  obtain ⟨hin, hic, hoc⟩ := h
  exact ⟨hin, by simp only [cursor_toNat hn]; omega, hoc⟩

theorem decoderBases_outCur {s : State} {n : Nat} (h : DecoderBases s) (hn : s.outCur.toNat + n ≤ Config.memWords) :
    DecoderBases { s with outCur := BitVec.ofNat 33 (s.outCur.toNat + n) } := by
  obtain ⟨hin, hic, hoc⟩ := h
  exact ⟨hin, hic, by simp only [cursor_toNat hn]; omega⟩

/-- The decoder's output cursor moves by whole miniblocks (R164). -/
theorem decoderLength_outCur {s : State} {c : Nat} (h : DecoderLength s) (hb : s.outBase.toNat ≤ s.outCur.toNat)
    (hn : s.outCur.toNat + 128 * c ≤ Config.memWords) :
    DecoderLength { s with outCur := BitVec.ofNat 33 (s.outCur.toNat + 128 * c) } := by
  obtain ⟨hout, hlen, hblk⟩ := h
  refine ⟨hout, hlen, ?_⟩
  simp only [cursor_toNat hn]; omega

/-- A payload of whole alignment units keeps the cursor's alignment. -/
theorem aligned_add {n b : Nat} (h : n % 4 = 0) (hn : n + 4 * b ≤ Config.memWords) :
    (BitVec.ofNat 33 (n + 4 * b)).toNat % 4 = 0 := by
  rw [cursor_toNat hn]; omega

/-! ### Indices -/

theorem mbIdx_succ {x : BitVec 5} (h : x.toNat < 16) : (x + 1#5).toNat = x.toNat + 1 :=
  BitVec.toNat_add_of_lt (by simp; omega)

theorem mbIdx_succ_le {x c : BitVec 5} (h : x.toNat < c.toNat) (hc : c.toNat ≤ 16) : (x + 1#5).toNat ≤ c.toNat :=
  (mbIdx_succ (h.trans_le hc)).trans_le h

theorem hdrIdx_succ {x : BitVec 3} (h : x.toNat < 4) : (x + 1#3).toNat = x.toNat + 1 :=
  BitVec.toNat_add_of_lt (by simp; omega)

/-- A partial block has fewer than sixteen miniblocks, so their number fits `mb_cnt` (R186, R215). -/
theorem partialCount_toNat {n : Nat} (h : n < 2048) : (BitVec.ofNat 5 (n / 128)).toNat = n / 128 := by
  rw [BitVec.toNat_ofNat, Nat.mod_eq_of_lt (by omega)]

theorem lt_mbCnt_of_loopGuard {s : State} (h : loopGuard s = some true) : s.mbIdx.toNat < s.mbCnt.toNat := by
  unfold loopGuard at h
  split_ifs at h with _ hlt
  · exact hlt
  · cases h

theorem lt_four_of_enabled_dReadingHeader {s : State} (he : enabledAt .dReadingHeader true s = true) : s.hdrIdx.toNat < 4 := by
  obtain ⟨hf, hg⟩ := enabledAt_iff.1 he
  simp only [uopGuard, hf] at hg
  split_ifs at hg with hlt
  · exact hlt
  · cases hg

theorem eq_four_of_enabled_dReadingHeader {s : State} (he : enabledAt .dReadingHeader false s = true) :
    s.hdrIdx.toNat = 4 := by
  obtain ⟨hf, hg⟩ := enabledAt_iff.1 he
  simp only [uopGuard, hf] at hg
  split_ifs at hg with _ hfour
  · cases hg
  · exact hfour

/-- While the payload loop is enabled, a miniblock of the block is left (R189, R218). -/
theorem lt_mbCnt_of_enabled {s : State} {st : FsmState} (hst : st = .ePackingPayload ∨ st = .dUnpackingPayload)
    (he : enabledAt st true s = true) : s.mbIdx.toNat < s.mbCnt.toNat := by
  obtain ⟨hf, hg⟩ := enabledAt_iff.1 he
  refine lt_mbCnt_of_loopGuard ?_
  obtain rfl | rfl := hst <;> simpa only [uopGuard, hf] using hg

/-- The encoder's padding is done when the output cursor is aligned (R185). -/
theorem outCur_aligned_of_enabled {s : State} (he : enabledAt .eWritingPadding false s = true) : s.outCur.toNat % 4 = 0 := by
  obtain ⟨hf, hg⟩ := enabledAt_iff.1 he
  simp only [uopGuard, hf, Option.some.injEq] at hg
  exact needsPadAt_eq_false.1 hg

/-- The decoder's padding is done when the input cursor is aligned (R214). -/
theorem inCur_aligned_of_enabled {s : State} (he : enabledAt .dSkippingPadding false s = true) : s.inCur.toNat % 4 = 0 := by
  obtain ⟨hf, hg⟩ := enabledAt_iff.1 he
  simp only [uopGuard, hf, Option.some.injEq] at hg
  exact needsPadAt_eq_false.1 hg

/-! ### Widths -/

theorem widthsLegal_zero (s : State) : WidthsLegal s 0 := fun _ h => absurd h (Nat.not_lt_zero _)

/-- The width just computed is legal, and so are those before it (R130). -/
theorem widthsLegal_succ {s : State} {v : List Word} {k : Nat} (hk : k < 16) (h : WidthsLegal s k) :
    WidthsLegal { s with widths := s.widths.setIfInBounds k (BitVec.ofNat 8 (maxbitsOf v)) } (k + 1) := by
  intro i hi
  simp only [widthAt_setIfInBounds _ _ _ _ hk]
  split
  · have hmax := maxbitsOf_le v
    rw [BitVec.toNat_ofNat, Nat.mod_eq_of_lt (by omega)]
    exact hmax
  · exact h i (by omega)

/-! ### Block selection -/

/-- `enc_select` opens a block at an aligned output cursor (R186): a positive length in whole miniblocks leaves at least one. -/
theorem encSelect_engineInv {s : State} (hb : Bounded s) (hbase : EncoderBases s) (hlen : EncoderLength s)
    (hal : s.outCur.toNat % 4 = 0) : EngineInv (encSelect s) := by
  have ⟨_, _, hic, _, hblk⟩ := hbase
  have ⟨_, hlen128⟩ := hlen
  have ⟨_, _, hh, _, _⟩ := hb
  unfold encSelect
  split_ifs with hfull hpart
  · have hb' := bounded_indices (m := 0#5) (c := 16#5) hb hh (by decide) (by decide)
    exact engineInv_iff.2 ⟨hb', hbase, hlen, hal, by simp, widthsLegal_zero _⟩
  · have hcnt := partialCount_toNat (Nat.not_le.1 hfull)
    have hone : 0 < inRemaining s / 128 := by unfold inRemaining at *; omega
    have hmany : inRemaining s / 128 ≤ 16 := Nat.div_le_of_le_mul (Nat.not_le.1 hfull).le
    have hb' := bounded_indices (m := 0#5) hb hh (by decide) (hcnt.trans_le hmany)
    exact engineInv_iff.2 ⟨hb', hbase, hlen, hal, hone.trans_eq hcnt.symm, widthsLegal_zero _⟩
  · exact engineInv_of_ready hb rfl

/-- `dec_select` opens a block at an aligned input cursor (R215). -/
theorem decSelect_engineInv {s : State} (hb : Bounded s) (hbase : DecoderBases s) (hlen : DecoderLength s)
    (hal : s.inCur.toNat % 4 = 0) : EngineInv (decSelect s) := by
  have ⟨_, _, _, hm, _⟩ := hb
  unfold decSelect
  split_ifs with hfull hpart
  · have hb' := bounded_indices (h := 0#3) (c := 16#5) hb (by decide) hm (by decide)
    exact engineInv_iff.2 ⟨hb', hbase, hlen, hal⟩
  · have hleft : s.len.toNat - outUsed s < 2048 := by simp only [Config.blockWords] at hfull; omega
    have hmany : (s.len.toNat - outUsed s) / 128 ≤ 16 := Nat.div_le_of_le_mul hleft.le
    have hb' := bounded_indices (h := 0#3) hb (by decide) hm ((partialCount_toNat hleft).trans_le hmany)
    exact engineInv_iff.2 ⟨hb', hbase, hlen, hal⟩
  · exact engineInv_of_ready hb rfl

/-! ### The micro-operations of the encoder -/

theorem eCheckLen_keeps {s t : State} (hs : EngineInv s) (h : exec .eCheckLen s = .next t) : EngineInv t := by
  have hb := bounded_of_engineInv hs
  obtain ⟨he, ⟨-, rfl⟩ | ⟨hok, rfl⟩⟩ := eCheckLen_next h
  · exact engineInv_of_ready hb rfl
  · have hbase : EncoderBases s := runningInv_of_enabled hs he
    have hlen : EncoderLength s := by simpa [badLength, EncoderLength, Nat.pos_iff_ne_zero] using hok
    exact engineInv_iff.2 ⟨hb, hbase, hlen⟩

theorem ePrefix_keeps {s t : State} (hs : EngineInv s) (h : exec .ePrefix s = .next t) : EngineInv t := by
  have hb := bounded_of_engineInv hs
  obtain ⟨he, h⟩ := ePrefix_next h
  obtain ⟨-, rfl⟩ | ⟨-, hn, rfl⟩ := emit_next (k := fun u => { u with fsm := .eWritingPadding }) h
  · exact engineInv_of_ready hb rfl
  · obtain ⟨hbase, hlen⟩ : EncoderBases s ∧ EncoderLength s := runningInv_of_enabled hs he
    have hb' := bounded_outCur hb hn
    have hbase' := encoderBases_outCur hbase hn
    exact engineInv_iff.2 ⟨hb', hbase', hlen⟩

theorem ePad_keeps {s t : State} (hs : EngineInv s) (h : exec .ePad s = .next t) : EngineInv t := by
  have hb := bounded_of_engineInv hs
  obtain ⟨he, h⟩ := ePad_next h
  obtain ⟨-, rfl⟩ | ⟨-, hn, rfl⟩ := emitPad_next h
  · exact engineInv_of_ready hb rfl
  · obtain ⟨hbase, hlen⟩ : EncoderBases s ∧ EncoderLength s := runningInv_of_enabled hs he
    have hb' := bounded_outCur hb hn
    have hbase' := encoderBases_outCur hbase hn
    exact engineInv_of_fsm (enabledAt_iff.1 he).1 hb' ⟨hbase', hlen⟩

theorem ePadDone_keeps {s t : State} (hs : EngineInv s) (h : exec .ePadDone s = .next t) : EngineInv t := by
  obtain ⟨he, rfl⟩ := ePadDone_next h
  obtain ⟨hbase, hlen⟩ : EncoderBases s ∧ EncoderLength s := runningInv_of_enabled hs he
  exact encSelect_engineInv (bounded_of_engineInv hs) hbase hlen (outCur_aligned_of_enabled he)

theorem eWidth_keeps {s t : State} (hs : EngineInv s) (h : exec .eWidth s = .next t) : EngineInv t := by
  have hb := bounded_of_engineInv hs
  have ⟨_, _, hh, _, hc⟩ := hb
  obtain ⟨he, v, rfl⟩ := eWidth_next h
  obtain ⟨hbase, hlen, hal, hlt, hw⟩ : EncoderBases s ∧ EncoderLength s ∧ s.outCur.toNat % 4 = 0
    ∧ s.mbIdx.toNat < s.mbCnt.toNat ∧ WidthsLegal s s.mbIdx.toNat := runningInv_of_enabled hs he
  have hidx : (s.mbIdx + 1#5).toNat = s.mbIdx.toNat + 1 := mbIdx_succ (hlt.trans_le hc)
  have hidx' : (s.mbIdx + 1#5).toNat ≤ s.mbCnt.toNat := hidx.trans_le hlt
  have hw' := widthsLegal_succ (v := v) (hlt.trans_le hc) hw
  rw [← hidx] at hw'
  unfold nextWidthState
  split
  case isTrue hlast =>
    have hall : (s.mbIdx + 1#5).toNat = s.mbCnt.toNat := hidx.trans hlast
    have hb' := bounded_indices (h := 0#3) hb (by decide) (hidx'.trans hc) hc
    rw [hall] at hw'
    exact engineInv_iff.2 ⟨hb', hbase, hlen, hal, by simp, hidx', hw'⟩
  case isFalse hmore =>
    have hmore' : (s.mbIdx + 1#5).toNat < s.mbCnt.toNat := lt_of_le_of_ne hidx' fun hall => hmore (hidx.symm.trans hall)
    have hb' := bounded_indices hb hh (hidx'.trans hc) hc
    exact engineInv_of_fsm (enabledAt_iff.1 he).1 hb' ⟨hbase, hlen, hal, hmore', hw'⟩

theorem eHdr_keeps {s t : State} (hs : EngineInv s) (h : exec .eHdr s = .next t) : EngineInv t := by
  have hb := bounded_of_engineInv hs
  have ⟨_, _, _, hm, hc⟩ := hb
  obtain ⟨he, h⟩ := eHdr_next h
  obtain ⟨-, rfl⟩ | ⟨-, hn, rfl⟩ := emit_next (k := nextHeader) h
  · exact engineInv_of_ready hb rfl
  obtain ⟨hbase, hlen, hal, hh, hle, hw⟩ : EncoderBases s ∧ EncoderLength s ∧ s.outCur.toNat % 4 = s.hdrIdx.toNat % 4
    ∧ s.hdrIdx.toNat < 4 ∧ s.mbIdx.toNat ≤ s.mbCnt.toNat ∧ WidthsLegal s s.mbCnt.toNat := runningInv_of_enabled hs he
  have hidx : (s.hdrIdx + 1#3).toNat = s.hdrIdx.toNat + 1 := hdrIdx_succ hh
  have hidx' : (s.hdrIdx + 1#3).toNat ≤ 4 := hidx.trans_le hh
  have hbase' := encoderBases_outCur hbase hn
  have hal' : (BitVec.ofNat 33 (s.outCur.toNat + 1)).toNat % 4 = (s.hdrIdx + 1#3).toNat % 4 := by
    rw [cursor_toNat hn, hidx]; omega
  unfold nextHeader
  split
  case isTrue hlast =>
    have hfour : (s.hdrIdx + 1#3).toNat = 4 := hidx.trans hlast
    have hb' := bounded_indices (m := 0#5) (bounded_outCur hb hn) hidx' (by decide) hc
    rw [hfour] at hal'
    exact engineInv_iff.2 ⟨hb', hbase', hlen, hal', Nat.zero_le _, hw⟩
  case isFalse hmore =>
    have hmore' : (s.hdrIdx + 1#3).toNat < 4 := lt_of_le_of_ne hidx' fun hfour => hmore (hidx.symm.trans hfour)
    have hb' := bounded_indices (bounded_outCur hb hn) hidx' hm hc
    exact engineInv_of_fsm (enabledAt_iff.1 he).1 hb' ⟨hbase', hlen, hal', hmore', hle, hw⟩

theorem ePack_keeps {s t : State} (hs : EngineInv s) (h : exec .ePack s = .next t) : EngineInv t := by
  have hb := bounded_of_engineInv hs
  have ⟨_, _, hh, _, hc⟩ := hb
  obtain ⟨he, ⟨-, h⟩ | ⟨-, rfl⟩⟩ := ePack_next h
  · obtain ⟨-, hn, u, -, rfl⟩ := schedPackBody_next h
    obtain ⟨hbase, hlen, hal, -, hw⟩ : EncoderBases s ∧ EncoderLength s ∧ s.outCur.toNat % 4 = 0
      ∧ s.mbIdx.toNat ≤ s.mbCnt.toNat ∧ WidthsLegal s s.mbCnt.toNat := runningInv_of_enabled hs he
    have hidx := mbIdx_succ_le (lt_mbCnt_of_enabled (.inl rfl) he) hc
    have hb' := bounded_indices (bounded_outCur hb hn) hh (hidx.trans hc) hc
    have hbase' := encoderBases_outCur hbase hn
    exact engineInv_of_fsm (enabledAt_iff.1 he).1 hb' ⟨hbase', hlen, aligned_add hal hn, hidx, hw⟩
  · exact engineInv_of_ready hb rfl

theorem eBlockEnd_keeps {s t : State} (hs : EngineInv s) (h : exec .eBlockEnd s = .next t) : EngineInv t := by
  obtain ⟨he, hn, u, rfl, h⟩ := eBlockEnd_next h
  have hb' := bounded_inCur (bounded_of_engineInv hs) hn
  obtain ⟨-, rfl⟩ | ⟨-, rfl⟩ := h
  · obtain ⟨hbase, hlen, hal, -, -⟩ : EncoderBases s ∧ EncoderLength s ∧ s.outCur.toNat % 4 = 0
      ∧ s.mbIdx.toNat ≤ s.mbCnt.toNat ∧ WidthsLegal s s.mbCnt.toNat := runningInv_of_enabled hs he
    exact encSelect_engineInv hb' (encoderBases_inCur hbase hn) hlen hal
  · exact engineInv_of_ready hb' rfl

/-! ### The micro-operations of the decoder -/

theorem dPrefix_keeps {s t : State} (hs : EngineInv s) (h : exec .dPrefix s = .next t) : EngineInv t := by
  obtain ⟨he, h⟩ := dPrefix_next h
  obtain ⟨hn, u, rfl, h⟩ := consumeLen_next h
  have hb' := bounded_inCur (bounded_of_engineInv hs) hn
  obtain ⟨-, rfl⟩ | ⟨-, rfl⟩ | ⟨hal, -, hlen, -, rfl⟩ := h
  · exact engineInv_of_ready hb' rfl
  · exact engineInv_of_ready hb' rfl
  · obtain ⟨hbase, hout⟩ : DecoderBases s ∧ s.outCur.toNat = s.outBase.toNat := runningInv_of_enabled hs he
    have hbase' := decoderBases_inCur hbase hn
    have hused : (s.outCur.toNat - s.outBase.toNat) % 128 = 0 := by omega
    exact engineInv_iff.2 ⟨hb', hbase', hout ▸ hal, hlen, hused⟩

theorem dPad_keeps {s t : State} (hs : EngineInv s) (h : exec .dPad s = .next t) : EngineInv t := by
  obtain ⟨he, h⟩ := dPad_next h
  obtain ⟨hn, h⟩ := consumePad_next h
  have hb' := bounded_inCur (bounded_of_engineInv hs) hn
  obtain ⟨-, rfl⟩ | ⟨-, rfl⟩ := h
  · obtain ⟨hbase, hlen⟩ : DecoderBases s ∧ DecoderLength s := runningInv_of_enabled hs he
    have hbase' := decoderBases_inCur hbase hn
    exact engineInv_of_fsm (enabledAt_iff.1 he).1 hb' ⟨hbase', hlen⟩
  · exact engineInv_of_ready hb' rfl

theorem dPadDone_keeps {s t : State} (hs : EngineInv s) (h : exec .dPadDone s = .next t) : EngineInv t := by
  obtain ⟨he, rfl⟩ := dPadDone_next h
  obtain ⟨hbase, hlen⟩ : DecoderBases s ∧ DecoderLength s := runningInv_of_enabled hs he
  exact decSelect_engineInv (bounded_of_engineInv hs) hbase hlen (inCur_aligned_of_enabled he)

theorem dHdr_keeps {s t : State} (hs : EngineInv s) (h : exec .dHdr s = .next t) : EngineInv t := by
  have hb := bounded_of_engineInv hs
  have ⟨_, _, _, hm, hc⟩ := hb
  obtain ⟨he, a, b, c, d, h⟩ := dHdr_next h
  obtain ⟨hn, rfl⟩ := consumeHdr_next h
  obtain ⟨hbase, hlen, hal⟩ : DecoderBases s ∧ DecoderLength s ∧ s.inCur.toNat % 4 = s.hdrIdx.toNat % 4 :=
    runningInv_of_enabled hs he
  have hlt := lt_four_of_enabled_dReadingHeader he
  have hidx : (s.hdrIdx + 1#3).toNat = s.hdrIdx.toNat + 1 := hdrIdx_succ hlt
  have hb' := bounded_indices (bounded_inCur hb hn) (hidx.trans_le hlt) hm hc
  have hbase' := decoderBases_inCur hbase hn
  have hal' : (BitVec.ofNat 33 (s.inCur.toNat + 1)).toNat % 4 = (s.hdrIdx + 1#3).toNat % 4 := by
    rw [cursor_toNat hn, hidx]; omega
  exact engineInv_of_fsm (enabledAt_iff.1 he).1 hb' ⟨hbase', hlen, hal'⟩

theorem dHdrCheck_keeps {s t : State} (hs : EngineInv s) (h : exec .dHdrCheck s = .next t) : EngineInv t := by
  have hb := bounded_of_engineInv hs
  have ⟨_, _, hh, _, hc⟩ := hb
  obtain ⟨he, ⟨hok, rfl⟩ | ⟨-, rfl⟩⟩ := dHdrCheck_next h
  · obtain ⟨hbase, hlen, hal⟩ : DecoderBases s ∧ DecoderLength s ∧ s.inCur.toNat % 4 = s.hdrIdx.toNat % 4 :=
      runningInv_of_enabled hs he
    rw [eq_four_of_enabled_dReadingHeader he] at hal
    have hw : WidthsLegal s s.mbCnt.toNat := fun i hi => (widthOk_iff _ _).1 hok i (hi.trans_le hc) hi
    have hb' := bounded_indices (m := 0#5) hb hh (by decide) hc
    exact engineInv_iff.2 ⟨hb', hbase, hlen, hal, Nat.zero_le _, hw⟩
  · exact engineInv_of_ready hb rfl

theorem dUnpack_keeps {s t : State} (hs : EngineInv s) (h : exec .dUnpack s = .next t) : EngineInv t := by
  have hb := bounded_of_engineInv hs
  have ⟨_, _, hh, _, hc⟩ := hb
  obtain ⟨he, h⟩ := dUnpack_next h
  obtain ⟨-, hn, u, -, rfl⟩ := schedUnpackBody_next h
  obtain ⟨hbase, hlen, hal, -, hw⟩ : DecoderBases s ∧ DecoderLength s ∧ s.inCur.toNat % 4 = 0
    ∧ s.mbIdx.toNat ≤ s.mbCnt.toNat ∧ WidthsLegal s s.mbCnt.toNat := runningInv_of_enabled hs he
  have hidx := mbIdx_succ_le (lt_mbCnt_of_enabled (.inr rfl) he) hc
  have hb' := bounded_indices (bounded_inCur hb hn) hh (hidx.trans hc) hc
  have hbase' := decoderBases_inCur hbase hn
  exact engineInv_of_fsm (enabledAt_iff.1 he).1 hb' ⟨hbase', hlen, aligned_add hal hn, hidx, hw⟩

theorem dBlockEnd_keeps {s t : State} (hs : EngineInv s) (h : exec .dBlockEnd s = .next t) : EngineInv t := by
  obtain ⟨he, hn, u, rfl, h⟩ := dBlockEnd_next h
  have hb' := bounded_outCur (bounded_of_engineInv hs) hn
  obtain ⟨-, rfl⟩ | ⟨-, rfl⟩ := h
  · obtain ⟨hbase, hlen, hal, -, -⟩ : DecoderBases s ∧ DecoderLength s ∧ s.inCur.toNat % 4 = 0
      ∧ s.mbIdx.toNat ≤ s.mbCnt.toNat ∧ WidthsLegal s s.mbCnt.toNat := runningInv_of_enabled hs he
    have ⟨_, _, hout⟩ := hbase
    exact decSelect_engineInv hb' (decoderBases_outCur hbase hn) (decoderLength_outCur hlen hout hn) hal
  · exact engineInv_of_ready hb' rfl

/-! ### The engine's step -/

/-- What the decoder reads from a state code is a micro-operation, not a step body or a word of another channel (R105). -/
theorem encode_of_decodeUop {g : Bool} {w : Word} {i : Instr} (h : decodeUop g w = .ok i) :
    ∃ g' w', encode i = some (.uop g', w') := by
  unfold decodeUop at h
  split at h
  case h_16 => split_ifs at h
  all_goals cases h; exact ⟨_, _, rfl⟩

theorem encode_of_fetch {s : State} {i : Instr} (h : fetch s = some i) : ∃ g w, encode i = some (.uop g, w) := by
  unfold fetch at h
  split at h
  · cases h
  · split at h <;> cases h
    exact encode_of_decodeUop (by assumption)

/-- Every micro-operation keeps the invariant. -/
theorem uop_keeps {i : Instr} {g : Bool} {w : Word} (hi : encode i = some (.uop g, w)) {s t : State} (hs : EngineInv s)
    (h : exec i s = .next t) : EngineInv t := by
  cases i
  case eCheckLen => exact eCheckLen_keeps hs h
  case ePrefix => exact ePrefix_keeps hs h
  case ePad => exact ePad_keeps hs h
  case ePadDone => exact ePadDone_keeps hs h
  case eWidth => exact eWidth_keeps hs h
  case eHdr => exact eHdr_keeps hs h
  case ePack => exact ePack_keeps hs h
  case eBlockEnd => exact eBlockEnd_keeps hs h
  case dPrefix => exact dPrefix_keeps hs h
  case dPad => exact dPad_keeps hs h
  case dPadDone => exact dPadDone_keeps hs h
  case dHdr => exact dHdr_keeps hs h
  case dHdrCheck => exact dHdrCheck_keeps hs h
  case dUnpack => exact dUnpack_keeps hs h
  case dBlockEnd => exact dBlockEnd_keeps hs h
  all_goals simp [encode] at hi

theorem engineStep_keeps {s t : State} (hs : EngineInv s) (h : engineStep s = .next t) : EngineInv t := by
  unfold engineStep at h
  split at h
  · rename_i i hf
    obtain ⟨g, w, hi⟩ := encode_of_fetch hf
    exact uop_keeps hi hs h
  · cases h

/-! ### The host's step -/

theorem startCommand_bounded {op : BitVec 1} {st : FsmState} {s : State} (hb : Bounded s) : Bounded (startCommand op st s) := by
  have hi := s.inBase.isLt
  have ho := s.outBase.isLt
  refine ⟨?_, ?_, hb.2.2⟩ <;> simp only [startCommand_inCur, startCommand_outCur, base_toNat, Config.memWords] <;> omega

/-- An accepted `ENCODE` starts with both cursors at aligned bases (R181). -/
theorem encode_keeps {s t : State} (hs : EngineInv s) (h : exec .encode s = .next t) : EngineInv t := by
  obtain ⟨-, hpre, rfl⟩ | ⟨-, rfl⟩ := encode_next h
  · obtain ⟨hin, hout⟩ := encodePrecondition_aligned hpre
    have hb' := startCommand_bounded (op := 0#1) (st := .eCheckingLength) (bounded_of_engineInv hs)
    have hic := base_toNat s.inBase
    have hoc := base_toNat s.outBase
    exact engineInv_iff.2 ⟨hb', needsPadAt_eq_false.1 hin, needsPadAt_eq_false.1 hout, hic.ge, hoc.ge,
      by simp [hic]⟩
  · exact hs

/-- An accepted `DECODE` starts with both cursors at their bases, the input base aligned (R211). -/
theorem decode_keeps {s t : State} (hs : EngineInv s) (h : exec .decode s = .next t) : EngineInv t := by
  obtain ⟨-, hpre, rfl⟩ | ⟨-, rfl⟩ := decode_next h
  · have hin := needsPadAt_eq_false.1 (decodePrecondition_aligned hpre)
    have hic := base_toNat s.inBase
    have hoc := base_toNat s.outBase
    exact engineInv_iff.2 ⟨startCommand_bounded (bounded_of_engineInv hs), ⟨hin, hic.ge, hoc.ge⟩, hoc⟩
  · exact hs

theorem writeCmd_keeps {s t : State} {v : Word} (hs : EngineInv s) (h : writeCmd s v = .next t) : EngineInv t := by
  simp only [writeCmd, decode, decodeCommand] at h
  split_ifs at h
  · exact encode_keeps hs h
  · exact decode_keeps hs h
  · cases h; exact hs

/-- Argument registers are written in a ready state only, where the invariant does not speak of them (R242). -/
theorem writeArg_keeps {s : State} {r : Nat} {v : Word} (hs : EngineInv s) : EngineInv (writeArg s r v) := by
  unfold writeArg
  split
  case isTrue => exact hs
  case isFalse hbusy =>
    have hready : fsmReady s.fsm = true := by simpa [busy] using hbusy
    have hb := bounded_of_engineInv hs
    split <;> exact engineInv_of_ready hb hready

theorem writeReg_keeps {s t : State} {r : Nat} {v : Word} (hs : EngineInv s) (h : writeReg s r v = .next t) : EngineInv t := by
  cases r with
  | zero => exact writeCmd_keeps hs h
  | succ r => cases h; exact writeArg_keeps hs

/-- A host write to memory touches no register. -/
theorem hostWriteMem_keeps {s t : State} {a : Nat} {ws : List Word} (hs : EngineInv s) (h : hostWriteMem s a ws = .next t) :
    EngineInv t := by
  unfold hostWriteMem at h
  split_ifs at h
  cases h
  exact hs

theorem resetEngine_engineInv (s : State) : EngineInv (resetEngine s) :=
  engineInv_of_ready ⟨by simp [State.reset], by simp [State.reset], by simp [IndexRanges, State.reset]⟩ rfl

theorem hostExec_keeps {s t : State} {stmt : HostStmt} (hs : EngineInv s) (h : hostExec stmt s = .next t) : EngineInv t := by
  cases stmt with
  | mem a ws => exact hostWriteMem_keeps hs h
  | fill a n w => exact hostWriteMem_keeps hs h
  | wr r v => exact writeReg_keeps hs h
  | rd r => cases h; exact hs
  | encodeCmd i l o c => cases h; exact hs
  | decodeCmd i o c => cases h; exact hs
  | wait => cases h; exact hs
  | expectReg r v => cases h; exact hs
  | expectMem a vs =>
    simp only [hostExec] at h
    split_ifs at h
    cases h
    exact hs
  | reset => cases h; exact resetEngine_engineInv s

theorem hostStep_keeps {s t : State} (hs : EngineInv s) (h : hostStep s = .next t) : EngineInv t := by
  unfold hostStep at h
  split at h
  · cases h; exact hs
  · rename_i rest _
    exact hostExec_keeps (s := { s with host := rest }) hs h

/-- Settles O56: a step is the engine's micro-operation, the host's statement, or nothing, and each keeps the invariant. -/
theorem engineInvariantKept : Obligations.EngineInvariantKept := by
  intro s t hs h
  obtain ⟨-, h⟩ | ⟨-, h⟩ | ⟨-, rfl⟩ := step_eq_next h
  · exact engineStep_keeps (s := popTurn s) hs h
  · exact hostStep_keeps (s := popTurn s) hs h
  · exact hs

end Sys2Proof.Proofs.Invariant

/-! Proofs of `Obligations.RegisterFrame` and `Obligations.MemoryFrame`. Both frames of an operation are proved together: first for
the shared bodies, then for each of the 36 operations from what Laws/Meanings says it has done. -/

namespace Sys2Proof.Proofs.Frames

open Sys2Proof.Machine Sys2Proof.Safety

/-! ### Frames of a pair of states -/

/-- From `s` to `t` only the registers `ws` and the words `[r.1, r.1 + r.2)` may have changed. -/
structure Frame (ws : List Reg) (r : Nat × Nat) (s t : State) : Prop where
  regs : ∀ reg : Reg, reg ∉ ws → sameReg reg s t
  bytes : ∀ x : Nat, outside r x → Memory.readByte t.mem x = Memory.readByte s.mem x

/-- A state that keeps memory keeps the bytes outside any region. That the unlisted registers keep their values is checked
register by register, on the equations of Laws/State. -/
theorem Frame.of_mem_eq {ws : List Reg} {r : Nat × Nat} {s t : State} (hmem : t.mem = s.mem)
    (hregs : ∀ reg : Reg, reg ∉ ws → sameReg reg s t := by intro reg; cases reg <;> simp [sameReg, writes]) :
    Frame ws r s t :=
  ⟨hregs, fun _ _ => by rw [hmem]⟩

/-- A store of `n` words at `a` changes bytes of these words only. -/
theorem Frame.of_mem_store {ws : List Reg} {s t : State} {a n : Nat} {vs : List Word}
    (hmem : t.mem = Memory.storeWords s.mem a vs) (hn : vs.length = n)
    (hregs : ∀ reg : Reg, reg ∉ ws → sameReg reg s t := by intro reg; cases reg <;> simp [sameReg, writes]) :
    Frame ws (a, n) s t := by
  subst hn
  exact ⟨hregs, fun x hx => by rw [hmem]; exact Memory.readByte_storeWords_outside hx⟩

/-- More registers may be allowed to change. -/
theorem Frame.mono {ws ws' : List Reg} {r : Nat × Nat} {s t : State} (h : Frame ws r s t) (hsub : ws ⊆ ws') : Frame ws' r s t :=
  ⟨fun reg hreg => h.regs reg fun hmem => hreg (hsub hmem), h.bytes⟩

theorem Frame.refl {ws : List Reg} {r : Nat × Nat} {s : State} : Frame ws r s s :=
  .of_mem_eq rfl

/-! ### The shared bodies -/

theorem raise_frame {k : ErrKind} {r : Nat × Nat} {s : State} : Frame [.err, .fsm] r s (raise k s) :=
  .of_mem_eq rfl

theorem startCommand_frame {op : BitVec 1} {st : FsmState} {r : Nat × Nat} {s : State} :
    Frame [.inCur, .outCur, .err, .lastOp, .fsm] r s (startCommand op st s) :=
  .of_mem_eq rfl

theorem startEncode_frame {r : Nat × Nat} {s : State} :
    Frame [.inCur, .outCur, .err, .lastOp, .fsm, .len] r s { startCommand 0#1 .eCheckingLength s with len := s.inLen } :=
  .of_mem_eq rfl

theorem encSelect_frame {r : Nat × Nat} {s : State} : Frame [.mbCnt, .mbIdx, .widths, .nvalue, .fsm] r s (encSelect s) :=
  .of_mem_eq (encSelect_mem s)

theorem decSelect_frame {r : Nat × Nat} {s : State} : Frame [.mbCnt, .hdrIdx, .nvalue, .fsm] r s (decSelect s) :=
  .of_mem_eq (decSelect_mem s)

theorem emitLen_frame {s t : State} {l : Word} (h : emitLen s l = .next t) :
    Frame [.outCur, .err, .fsm] (s.outCur.toNat, 1) s t := by
  obtain ⟨-, rfl⟩ | ⟨-, -, rfl⟩ := emit_next (k := fun u => { u with fsm := .eWritingPadding }) h
  · exact raise_frame.mono (by simp)
  · exact .of_mem_store rfl rfl

theorem emitPad_frame {s t : State} (h : emitPad s = .next t) : Frame [.outCur, .err, .fsm] (s.outCur.toNat, 1) s t := by
  obtain ⟨-, rfl⟩ | ⟨-, -, rfl⟩ := emitPad_next h
  · exact raise_frame.mono (by simp)
  · exact .of_mem_store rfl rfl

theorem emitHdr_frame {s t : State} {w : Word} (h : emitHdr s w = .next t) :
    Frame [.outCur, .hdrIdx, .mbIdx, .err, .fsm] (s.outCur.toNat, 1) s t := by
  obtain ⟨-, rfl⟩ | ⟨-, -, rfl⟩ := emit_next (k := nextHeader) h
  · exact raise_frame.mono (by simp)
  · exact .of_mem_store (nextHeader_mem _) rfl

theorem consumePad_frame {r : Nat × Nat} {s t : State} {w : Word} (h : consumePad s w = .next t) :
    Frame [.inCur, .err, .fsm] r s t := by
  obtain ⟨-, ⟨-, rfl⟩ | ⟨-, rfl⟩⟩ := consumePad_next h
  all_goals exact .of_mem_eq rfl

theorem consumeHdr_frame {r : Nat × Nat} {s t : State} {a b c d : Byte} (h : consumeHdr s a b c d = .next t) :
    Frame [.inCur, .widths, .hdrIdx] r s t := by
  obtain ⟨-, rfl⟩ := consumeHdr_next h
  exact .of_mem_eq rfl

theorem consumeLen_frame {r : Nat × Nat} {s t : State} {l : Word} (h : consumeLen s l = .next t) :
    Frame [.len, .inCur, .err, .fsm] r s t := by
  obtain ⟨-, u, rfl, ⟨-, rfl⟩ | ⟨-, rfl⟩ | ⟨-, -, -, -, rfl⟩⟩ := consumeLen_next h
  all_goals exact .of_mem_eq rfl

/-! ### Dispatches -/

/-- A payload of width `b` has `4·b` words (R151). -/
theorem kernelPack_length {b : Nat} {v : List Word} (hv : v.length = 128) : (kernelPack b v).length = 4 * b := by
  unfold kernelPack
  split_ifs with h0 h32
  · rw [h0]; rfl
  · rw [hv, h32]
  · exact Vector.length_toList
  · exact Vector.length_toList

/-- An unpacked miniblock has 128 words (R152). -/
theorem kernelUnpack_length {b : Nat} {ws : List Word} (hws : ws.length = 4 * b) : (kernelUnpack b ws).length = 128 := by
  unfold kernelUnpack
  split_ifs with h0 h32
  · exact List.length_replicate
  · rw [hws, h32]
  · exact ungroup_length _ _

theorem dispatchPack_frame {s t : State} {src dst b : Nat} (h : dispatchPack s src dst b = .next t) :
    Frame [] (dst, 4 * b) s t := by
  obtain ⟨-, ⟨-, rfl⟩ | ⟨-, rfl⟩⟩ := dispatchPack_next h
  · exact .refl
  · exact .of_mem_store rfl (kernelPack_length (Memory.readWords_length _ _ _))

theorem dispatchUnpack_frame {s t : State} {src dst b : Nat} (h : dispatchUnpack s src dst b = .next t) :
    Frame [] (dst, 128) s t := by
  obtain ⟨-, -, rfl⟩ := dispatchUnpack_next h
  exact .of_mem_store rfl (kernelUnpack_length (Memory.readWords_length _ _ _))

theorem schedPackBody_frame {s t : State} (h : schedPackBody s = .next t) :
    Frame [.outCur, .mbIdx] (s.outCur.toNat, 4 * nextWidth s) s t := by
  obtain ⟨-, -, u, hu, rfl⟩ := schedPackBody_next h
  exact ⟨fun reg => by cases reg <;> simp [sameReg], (dispatchPack_frame hu).bytes⟩

theorem schedUnpackBody_frame {s t : State} (h : schedUnpackBody s = .next t) :
    Frame [.inCur, .mbIdx] (blkOut s, 128) s t := by
  obtain ⟨-, -, u, hu, rfl⟩ := schedUnpackBody_next h
  exact ⟨fun reg => by cases reg <;> simp [sameReg], (dispatchUnpack_frame hu).bytes⟩

/-! ### The stream words, which store in the encoder's states only -/

theorem len_frame {l : Word} {s t : State} (h : exec (.len l) s = .next t) :
    Frame (writes (.len l)) (storeRegion (.len l) s) s t := by
  obtain ⟨-, h⟩ | ⟨he, -, h⟩ := len_next h
  · exact (consumeLen_frame h).mono (by simp [writes])
  · simp only [storeRegion, (enabledAt_iff.1 he).1, if_true]
    exact (emitLen_frame h).mono (by simp [writes])

theorem pad_frame {s t : State} (h : exec .pad s = .next t) : Frame (writes .pad) (storeRegion .pad s) s t := by
  obtain ⟨-, h⟩ | ⟨he, h⟩ := pad_next h
  · exact (consumePad_frame h).mono (by simp [writes])
  · simp only [storeRegion, (enabledAt_iff.1 he).1, if_true]
    exact (emitPad_frame h).mono (by simp [writes])

theorem hdr_frame {a b c d : Byte} {s t : State} (h : exec (.hdr a b c d) s = .next t) :
    Frame (writes (.hdr a b c d)) (storeRegion (.hdr a b c d) s) s t := by
  obtain ⟨-, h⟩ | ⟨he, h⟩ := hdr_next h
  · exact (consumeHdr_frame h).mono (by simp [writes])
  · simp only [storeRegion, (enabledAt_iff.1 he).1, if_true]
    exact (emitHdr_frame h).mono (by simp [writes])

/-! ### All operations -/

/-- The frame of each of the 36 operations: its listed registers and its own words. -/
theorem exec_frame {i : Instr} {s t : State} (h : exec i s = .next t) : Frame (writes i) (storeRegion i s) s t := by
  cases i with
  | encode =>
    obtain ⟨-, -, rfl⟩ | ⟨-, rfl⟩ := encode_next h
    · exact startEncode_frame
    · exact .refl
  | decode =>
    obtain ⟨-, -, rfl⟩ | ⟨-, rfl⟩ := decode_next h
    · exact startCommand_frame
    · exact .refl
  | needsPad a => cases h; exact .of_mem_eq rfl
  | maxbits v => cases h; exact .of_mem_eq rfl
  | hdrPack k => cases h; exact .of_mem_eq rfl
  | hdrUnpack k w => cases h; exact .of_mem_eq rfl
  | widthCheck =>
    obtain rfl | rfl := widthCheck_next h
    all_goals exact .of_mem_eq rfl
  | padEmit =>
    obtain ⟨-, -, rfl⟩ := padEmit_next h
    exact .of_mem_store rfl rfl
  | padSkip => exact consumePad_frame (padSkip_next h).2
  | pack bits src dst => exact dispatchPack_frame h
  | unpack bits src dst => exact dispatchUnpack_frame h
  | schedPack => exact schedPackBody_frame (schedPack_next h).2
  | schedUnpack => exact schedUnpackBody_frame (schedUnpack_next h).2
  | schedEndEnc =>
    obtain ⟨-, -, rfl⟩ := schedEndEnc_next h
    exact .of_mem_eq rfl
  | schedEndDec =>
    obtain ⟨-, -, rfl⟩ := schedEndDec_next h
    exact .of_mem_eq rfl
  | eStart =>
    obtain ⟨-, -, rfl⟩ := eStart_next h
    exact startEncode_frame
  | eCheckLen =>
    obtain ⟨-, ⟨-, rfl⟩ | ⟨-, rfl⟩⟩ := eCheckLen_next h
    · exact raise_frame
    · exact .of_mem_eq rfl
  | ePrefix => exact emitLen_frame (ePrefix_next h).2
  | ePad => exact emitPad_frame (ePad_next h).2
  | ePadDone =>
    obtain ⟨-, rfl⟩ := ePadDone_next h
    exact encSelect_frame
  | eWidth =>
    obtain ⟨-, v, rfl⟩ := eWidth_next h
    exact .of_mem_eq (nextWidthState_mem _)
  | eHdr => exact emitHdr_frame (eHdr_next h).2
  | ePack =>
    obtain ⟨-, ⟨-, h⟩ | ⟨-, rfl⟩⟩ := ePack_next h
    · exact (schedPackBody_frame h).mono (by simp [writes])
    · exact raise_frame.mono (by simp [writes])
  | eBlockEnd =>
    obtain ⟨-, -, u, rfl, ⟨-, rfl⟩ | ⟨-, rfl⟩⟩ := eBlockEnd_next h
    · exact .of_mem_eq (encSelect_mem _)
    · exact .of_mem_eq rfl
  | dStart =>
    obtain ⟨-, -, rfl⟩ := dStart_next h
    exact startCommand_frame
  | dPrefix => exact consumeLen_frame (dPrefix_next h).2
  | dPad => exact consumePad_frame (dPad_next h).2
  | dPadDone =>
    obtain ⟨-, rfl⟩ := dPadDone_next h
    exact decSelect_frame
  | dHdr =>
    obtain ⟨-, a, b, c, d, h⟩ := dHdr_next h
    exact consumeHdr_frame h
  | dHdrCheck =>
    obtain ⟨-, ⟨-, rfl⟩ | ⟨-, rfl⟩⟩ := dHdrCheck_next h
    · exact .of_mem_eq rfl
    · exact raise_frame.mono (by simp [writes])
  | dUnpack => exact schedUnpackBody_frame (dUnpack_next h).2
  | dBlockEnd =>
    obtain ⟨-, -, u, rfl, ⟨-, rfl⟩ | ⟨-, rfl⟩⟩ := dBlockEnd_next h
    · exact .of_mem_eq (decSelect_mem _)
    · exact .of_mem_eq rfl
  | len l => exact len_frame h
  | pad => exact pad_frame h
  | hdr a b c d => exact hdr_frame h
  | payload data => cases h; exact .refl

/-- Settles O58: the register half of the frame of each operation. -/
theorem registerFrame : Obligations.RegisterFrame :=
  fun _ _ _ h => (exec_frame h).regs

/-- Settles O59: the memory half of the frame of each operation. -/
theorem memoryFrame : Obligations.MemoryFrame :=
  fun _ _ _ h => (exec_frame h).bytes

end Sys2Proof.Proofs.Frames

/-! Proof of `Obligations.ErrorRegisterMatchesState`. A running engine has no error recorded; its micro-operation raises one, which
writes `ERR` and `Error` together, or leaves `ERR` alone and does not enter `Error`. The host changes the two only by a command or a
reset. -/

namespace Sys2Proof.Proofs.ErrorRegister

open Sys2Proof.Machine Sys2Proof.Safety Sys2Proof.Proofs.Invariant

/-! ### The engine's step -/

/-- What a micro-operation does to `ERR`: it raises an error, or it leaves `ERR` alone and does not enter `Error` (R266). -/
def RaisesOrKeepsErr (s t : State) : Prop :=
  (∃ k u, k ≠ .none ∧ t = raise k u) ∨ (t.err = s.err ∧ t.fsm ≠ .error)

theorem raisesOrKeepsErr_raise {s u : State} {k : ErrKind} (hk : k ≠ .none) : RaisesOrKeepsErr s (raise k u) :=
  .inl ⟨k, u, hk, rfl⟩

/-- In a state other than `Error` no error is recorded, so leaving `ERR` alone records none. -/
theorem RaisesOrKeepsErr.errorRecorded {s t : State} (h : RaisesOrKeepsErr s t) (hs : ErrorRecorded s)
    (hf : s.fsm ≠ .error) : ErrorRecorded t := by
  obtain ⟨k, u, hk, rfl⟩ | ⟨he, ht⟩ := h
  · simpa [ErrorRecorded] using hk
  · have hnone : s.err = .none := not_not.1 fun herr => hf (hs.1 herr)
    simp [ErrorRecorded, he, hnone, ht]

theorem nextWidthState_fsm_ne_error {s : State} (hf : s.fsm ≠ .error) : (nextWidthState s).fsm ≠ .error := by
  unfold nextWidthState; split
  · simp
  · exact hf

theorem nextHeader_fsm_ne_error {s : State} (hf : s.fsm ≠ .error) : (nextHeader s).fsm ≠ .error := by
  unfold nextHeader; split
  · simp
  · exact hf

/-- Block selection of the encoder keeps `ERR` and does not enter `Error` (R186). -/
theorem raisesOrKeepsErr_encSelect {s u : State} (he : u.err = s.err) : RaisesOrKeepsErr s (encSelect u) := by
  refine .inr ⟨(encSelect_err u).trans he, ?_⟩
  obtain h | h := encSelect_fsm u <;> simp [h]

/-- Block selection of the decoder keeps `ERR` and does not enter `Error` (R215). -/
theorem raisesOrKeepsErr_decSelect {s u : State} (he : u.err = s.err) : RaisesOrKeepsErr s (decSelect u) := by
  refine .inr ⟨(decSelect_err u).trans he, ?_⟩
  obtain h | h := decSelect_fsm u <;> simp [h]

theorem raisesOrKeepsErr_finish {s u : State} {n : Nat} (he : u.err = s.err) : RaisesOrKeepsErr s (finish n u) :=
  .inr ⟨he, by simp⟩

theorem uop_raisesOrKeepsErr {i : Instr} {g : Bool} {w : Word} (hi : encode i = some (.uop g, w)) {s t : State}
    (hf : s.fsm ≠ .error) (h : exec i s = .next t) : RaisesOrKeepsErr s t := by
  cases i
  case eCheckLen =>
    obtain ⟨-, ⟨-, rfl⟩ | ⟨-, rfl⟩⟩ := eCheckLen_next h
    · exact raisesOrKeepsErr_raise (by decide)
    · exact .inr ⟨rfl, by simp⟩
  case ePrefix =>
    obtain ⟨-, rfl⟩ | ⟨-, -, rfl⟩ := emit_next (k := fun u => { u with fsm := .eWritingPadding }) (ePrefix_next h).2
    · exact raisesOrKeepsErr_raise (by decide)
    · exact .inr ⟨rfl, by simp⟩
  case ePad =>
    obtain ⟨-, rfl⟩ | ⟨-, -, rfl⟩ := emitPad_next (ePad_next h).2
    · exact raisesOrKeepsErr_raise (by decide)
    · exact .inr ⟨rfl, hf⟩
  case ePadDone =>
    obtain ⟨-, rfl⟩ := ePadDone_next h
    exact raisesOrKeepsErr_encSelect rfl
  case eWidth =>
    obtain ⟨-, v, rfl⟩ := eWidth_next h
    exact .inr ⟨nextWidthState_err _, nextWidthState_fsm_ne_error hf⟩
  case eHdr =>
    obtain ⟨-, rfl⟩ | ⟨-, -, rfl⟩ := emit_next (k := nextHeader) (eHdr_next h).2
    · exact raisesOrKeepsErr_raise (by decide)
    · exact .inr ⟨nextHeader_err _, nextHeader_fsm_ne_error hf⟩
  case ePack =>
    obtain ⟨-, ⟨-, h⟩ | ⟨-, rfl⟩⟩ := ePack_next h
    · obtain ⟨-, -, u, -, rfl⟩ := schedPackBody_next h
      exact .inr ⟨rfl, hf⟩
    · exact raisesOrKeepsErr_raise (by decide)
  case eBlockEnd =>
    obtain ⟨-, -, u, rfl, ⟨-, rfl⟩ | ⟨-, rfl⟩⟩ := eBlockEnd_next h
    · exact raisesOrKeepsErr_encSelect rfl
    · exact raisesOrKeepsErr_finish rfl
  case dPrefix =>
    obtain ⟨-, u, rfl, ⟨-, rfl⟩ | ⟨-, rfl⟩ | ⟨-, -, -, -, rfl⟩⟩ := consumeLen_next (dPrefix_next h).2
    · exact raisesOrKeepsErr_raise (by decide)
    · exact raisesOrKeepsErr_raise (by decide)
    · exact .inr ⟨rfl, by simp⟩
  case dPad =>
    obtain ⟨-, ⟨-, rfl⟩ | ⟨-, rfl⟩⟩ := consumePad_next (dPad_next h).2
    · exact .inr ⟨rfl, hf⟩
    · exact raisesOrKeepsErr_raise (by decide)
  case dPadDone =>
    obtain ⟨-, rfl⟩ := dPadDone_next h
    exact raisesOrKeepsErr_decSelect rfl
  case dHdr =>
    obtain ⟨-, a, b, c, d, h⟩ := dHdr_next h
    obtain ⟨-, rfl⟩ := consumeHdr_next h
    exact .inr ⟨rfl, hf⟩
  case dHdrCheck =>
    obtain ⟨-, ⟨-, rfl⟩ | ⟨-, rfl⟩⟩ := dHdrCheck_next h
    · exact .inr ⟨rfl, by simp⟩
    · exact raisesOrKeepsErr_raise (by decide)
  case dUnpack =>
    obtain ⟨-, -, u, -, rfl⟩ := schedUnpackBody_next (dUnpack_next h).2
    exact .inr ⟨rfl, hf⟩
  case dBlockEnd =>
    obtain ⟨-, -, u, rfl, ⟨-, rfl⟩ | ⟨-, rfl⟩⟩ := dBlockEnd_next h
    · exact raisesOrKeepsErr_decSelect rfl
    · exact raisesOrKeepsErr_finish rfl
  all_goals simp [encode] at hi

theorem engineStep_keeps_errorRecorded {s t : State} (hs : ErrorRecorded s) (hb : busy s = true) (h : engineStep s = .next t) :
    ErrorRecorded t := by
  have hf : s.fsm ≠ .error := by intro hf; simp [busy, fsmReady, hf] at hb
  unfold engineStep at h
  split at h
  · rename_i i hi
    obtain ⟨g, w, hi⟩ := encode_of_fetch hi
    exact (uop_raisesOrKeepsErr hi hf h).errorRecorded hs hf
  · cases h

/-! ### The host's step -/

theorem errorRecorded_reset : ErrorRecorded State.reset := by simp [ErrorRecorded, State.reset]

/-- An accepted command clears `ERR` and leaves `Error` (R268); an ignored one changes nothing. -/
theorem writeCmd_keeps_errorRecorded {s t : State} {v : Word} (hs : ErrorRecorded s) (h : writeCmd s v = .next t) :
    ErrorRecorded t := by
  simp only [writeCmd, decode, decodeCommand] at h
  split_ifs at h
  · obtain ⟨-, -, rfl⟩ | ⟨-, rfl⟩ := encode_next h
    · simp [ErrorRecorded]
    · exact hs
  · obtain ⟨-, -, rfl⟩ | ⟨-, rfl⟩ := decode_next h
    · simp [ErrorRecorded]
    · exact hs
  · cases h; exact hs

/-- A host write to memory changes memory and nothing else. -/
theorem hostWriteMem_next {s t : State} {a : Nat} {ws : List Word} (h : hostWriteMem s a ws = .next t) :
    t = { s with mem := Memory.storeWords s.mem a ws } := by
  unfold hostWriteMem at h
  split_ifs at h
  cases h
  rfl

theorem writeArg_err_fsm (s : State) (r : Nat) (v : Word) : (writeArg s r v).err = s.err ∧ (writeArg s r v).fsm = s.fsm := by
  unfold writeArg
  repeat' split
  all_goals exact ⟨rfl, rfl⟩

/-- What a host statement can do to `ERR` and `fsm_state`: a command, a reset, or nothing. -/
theorem hostExec_err_fsm {stmt : HostStmt} {s t : State} (h : hostExec stmt s = .next t) :
    (∃ v, writeCmd s v = .next t) ∨ t = resetEngine s ∨ (t.err = s.err ∧ t.fsm = s.fsm) := by
  cases stmt with
  | mem a ws => obtain rfl := hostWriteMem_next h; exact .inr (.inr ⟨rfl, rfl⟩)
  | fill a n w => obtain rfl := hostWriteMem_next h; exact .inr (.inr ⟨rfl, rfl⟩)
  | wr r v =>
    cases r with
    | zero => exact .inl ⟨v, h⟩
    | succ r => cases h; exact .inr (.inr (writeArg_err_fsm s (r + 1) v))
  | rd r => cases h; exact .inr (.inr ⟨rfl, rfl⟩)
  | encodeCmd i l o c => cases h; exact .inr (.inr ⟨rfl, rfl⟩)
  | decodeCmd i o c => cases h; exact .inr (.inr ⟨rfl, rfl⟩)
  | wait => cases h; exact .inr (.inr ⟨rfl, rfl⟩)
  | expectReg r v => cases h; exact .inr (.inr ⟨rfl, rfl⟩)
  | expectMem a vs =>
    simp only [hostExec] at h
    split_ifs at h
    cases h
    exact .inr (.inr ⟨rfl, rfl⟩)
  | reset => cases h; exact .inr (.inl rfl)

theorem hostExec_keeps_errorRecorded {s t : State} {stmt : HostStmt} (hs : ErrorRecorded s) (h : hostExec stmt s = .next t) :
    ErrorRecorded t := by
  obtain ⟨v, h⟩ | rfl | ⟨he, hf⟩ := hostExec_err_fsm h
  · exact writeCmd_keeps_errorRecorded hs h
  · exact errorRecorded_reset
  · rwa [ErrorRecorded, he, hf]

theorem hostStep_keeps_errorRecorded {s t : State} (hs : ErrorRecorded s) (h : hostStep s = .next t) : ErrorRecorded t := by
  unfold hostStep at h
  split at h
  · cases h; exact hs
  · rename_i rest _
    exact hostExec_keeps_errorRecorded (s := { s with host := rest }) hs h

/-- Settles O55: a running engine records an error only by raising it; the host clears one only by a command or a reset. -/
theorem errorRegisterMatchesState : Obligations.ErrorRegisterMatchesState := by
  intro s t hs h
  obtain ⟨hm, h⟩ | ⟨-, h⟩ | ⟨-, rfl⟩ := step_eq_next h
  · exact engineStep_keeps_errorRecorded (s := popTurn s) hs (mover_engine (s := s) hm) h
  · exact hostStep_keeps_errorRecorded (s := popTurn s) hs h
  · exact hs

end Sys2Proof.Proofs.ErrorRegister

/-! Proof of `Obligations.ArgumentsAndResultFrame`. What only the host writes is gathered in one projection, which each of the 36
operations keeps; for `NVALUE` the register frame leaves the four operations that select a block or end one. -/

namespace Sys2Proof.Proofs.HostSide

open Sys2Proof.Machine Sys2Proof.Safety

/-! ### What belongs to the host: argument registers, allocation, script (R28, R66, R106) -/

/-- The fields of the state that only the host writes. -/
def hostSide (s : State) :
    Word × Word × Word × Word × List Region × List Region × List HostStmt × List Agent × Word × Nat :=
  (s.inBase, s.inLen, s.outBase, s.outCap, s.readable, s.writable, s.host, s.turns, s.rdata, s.mismatches)

theorem nextHeader_hostSide (s : State) : hostSide (nextHeader s) = hostSide s := by simp [hostSide]

theorem nextWidthState_hostSide (s : State) : hostSide (nextWidthState s) = hostSide s := by simp [hostSide]

theorem encSelect_hostSide (s : State) : hostSide (encSelect s) = hostSide s := by simp [hostSide]

theorem decSelect_hostSide (s : State) : hostSide (decSelect s) = hostSide s := by simp [hostSide]

theorem emitLen_hostSide {s t : State} {l : Word} (h : emitLen s l = .next t) : hostSide t = hostSide s := by
  obtain ⟨-, rfl⟩ | ⟨-, -, rfl⟩ := emit_next (k := fun u => { u with fsm := .eWritingPadding }) h
  all_goals rfl

theorem emitPad_hostSide {s t : State} (h : emitPad s = .next t) : hostSide t = hostSide s := by
  obtain ⟨-, rfl⟩ | ⟨-, -, rfl⟩ := emitPad_next h
  all_goals rfl

theorem emitHdr_hostSide {s t : State} {w : Word} (h : emitHdr s w = .next t) : hostSide t = hostSide s := by
  obtain ⟨-, rfl⟩ | ⟨-, -, rfl⟩ := emit_next (k := nextHeader) h
  · rfl
  · exact nextHeader_hostSide _

theorem consumeLen_hostSide {s t : State} {l : Word} (h : consumeLen s l = .next t) : hostSide t = hostSide s := by
  obtain ⟨-, u, rfl, ⟨-, rfl⟩ | ⟨-, rfl⟩ | ⟨-, -, -, -, rfl⟩⟩ := consumeLen_next h
  all_goals rfl

theorem consumePad_hostSide {s t : State} {w : Word} (h : consumePad s w = .next t) : hostSide t = hostSide s := by
  obtain ⟨-, ⟨-, rfl⟩ | ⟨-, rfl⟩⟩ := consumePad_next h
  all_goals rfl

theorem consumeHdr_hostSide {s t : State} {a b c d : Byte} (h : consumeHdr s a b c d = .next t) :
    hostSide t = hostSide s := by
  obtain ⟨-, rfl⟩ := consumeHdr_next h
  rfl

theorem dispatchPack_hostSide {s t : State} {src dst b : Nat} (h : dispatchPack s src dst b = .next t) :
    hostSide t = hostSide s := by
  obtain ⟨-, ⟨-, rfl⟩ | ⟨-, rfl⟩⟩ := dispatchPack_next h
  all_goals rfl

theorem dispatchUnpack_hostSide {s t : State} {src dst b : Nat} (h : dispatchUnpack s src dst b = .next t) :
    hostSide t = hostSide s := by
  obtain ⟨-, -, rfl⟩ := dispatchUnpack_next h
  rfl

theorem schedPackBody_hostSide {s t : State} (h : schedPackBody s = .next t) : hostSide t = hostSide s := by
  obtain ⟨-, -, u, -, rfl⟩ := schedPackBody_next h
  rfl

theorem schedUnpackBody_hostSide {s t : State} (h : schedUnpackBody s = .next t) : hostSide t = hostSide s := by
  obtain ⟨-, -, u, -, rfl⟩ := schedUnpackBody_next h
  rfl

/-- No operation writes what belongs to the host. -/
theorem exec_hostSide {i : Instr} {s t : State} (h : exec i s = .next t) : hostSide t = hostSide s := by
  cases i with
  | encode =>
    obtain ⟨-, -, rfl⟩ | ⟨-, rfl⟩ := encode_next h
    all_goals rfl
  | decode =>
    obtain ⟨-, -, rfl⟩ | ⟨-, rfl⟩ := decode_next h
    all_goals rfl
  | needsPad a => cases h; rfl
  | maxbits v => cases h; rfl
  | hdrPack k => cases h; rfl
  | hdrUnpack k w => cases h; rfl
  | widthCheck =>
    obtain rfl | rfl := widthCheck_next h
    all_goals rfl
  | padEmit =>
    obtain ⟨-, -, rfl⟩ := padEmit_next h
    rfl
  | padSkip => exact consumePad_hostSide (padSkip_next h).2
  | pack bits src dst => exact dispatchPack_hostSide h
  | unpack bits src dst => exact dispatchUnpack_hostSide h
  | schedPack => exact schedPackBody_hostSide (schedPack_next h).2
  | schedUnpack => exact schedUnpackBody_hostSide (schedUnpack_next h).2
  | schedEndEnc =>
    obtain ⟨-, -, rfl⟩ := schedEndEnc_next h
    rfl
  | schedEndDec =>
    obtain ⟨-, -, rfl⟩ := schedEndDec_next h
    rfl
  | eStart =>
    obtain ⟨-, -, rfl⟩ := eStart_next h
    rfl
  | eCheckLen =>
    obtain ⟨-, ⟨-, rfl⟩ | ⟨-, rfl⟩⟩ := eCheckLen_next h
    all_goals rfl
  | ePrefix => exact emitLen_hostSide (ePrefix_next h).2
  | ePad => exact emitPad_hostSide (ePad_next h).2
  | ePadDone =>
    obtain ⟨-, rfl⟩ := ePadDone_next h
    exact encSelect_hostSide _
  | eWidth =>
    obtain ⟨-, v, rfl⟩ := eWidth_next h
    exact nextWidthState_hostSide _
  | eHdr => exact emitHdr_hostSide (eHdr_next h).2
  | ePack =>
    obtain ⟨-, ⟨-, h⟩ | ⟨-, rfl⟩⟩ := ePack_next h
    · exact schedPackBody_hostSide h
    · rfl
  | eBlockEnd =>
    obtain ⟨-, -, u, rfl, ⟨-, rfl⟩ | ⟨-, rfl⟩⟩ := eBlockEnd_next h
    · exact encSelect_hostSide _
    · rfl
  | dStart =>
    obtain ⟨-, -, rfl⟩ := dStart_next h
    rfl
  | dPrefix => exact consumeLen_hostSide (dPrefix_next h).2
  | dPad => exact consumePad_hostSide (dPad_next h).2
  | dPadDone =>
    obtain ⟨-, rfl⟩ := dPadDone_next h
    exact decSelect_hostSide _
  | dHdr =>
    obtain ⟨-, a, b, c, d, h⟩ := dHdr_next h
    exact consumeHdr_hostSide h
  | dHdrCheck =>
    obtain ⟨-, ⟨-, rfl⟩ | ⟨-, rfl⟩⟩ := dHdrCheck_next h
    all_goals rfl
  | dUnpack => exact schedUnpackBody_hostSide (dUnpack_next h).2
  | dBlockEnd =>
    obtain ⟨-, -, u, rfl, ⟨-, rfl⟩ | ⟨-, rfl⟩⟩ := dBlockEnd_next h
    · exact decSelect_hostSide _
    · rfl
  | len l =>
    obtain ⟨-, h⟩ | ⟨-, -, h⟩ := len_next h
    · exact consumeLen_hostSide h
    · exact emitLen_hostSide h
  | pad =>
    obtain ⟨-, h⟩ | ⟨-, h⟩ := pad_next h
    · exact consumePad_hostSide h
    · exact emitPad_hostSide h
  | hdr a b c d =>
    obtain ⟨-, h⟩ | ⟨-, h⟩ := hdr_next h
    · exact consumeHdr_hostSide h
    · exact emitHdr_hostSide h
  | payload data => cases h; rfl

/-! ### `NVALUE` (R25) -/

/-- Block selection writes `NVALUE` only when it finishes the command (R186). -/
theorem encSelect_nvalue (s : State) : (encSelect s).nvalue = s.nvalue ∨ (encSelect s).fsm = .done := by
  unfold encSelect
  split_ifs
  · exact .inl rfl
  · exact .inl rfl
  · exact .inr rfl

/-- Block selection writes `NVALUE` only when it finishes the command (R215). -/
theorem decSelect_nvalue (s : State) : (decSelect s).nvalue = s.nvalue ∨ (decSelect s).fsm = .done := by
  unfold decSelect
  split_ifs
  · exact .inl rfl
  · exact .inl rfl
  · exact .inr rfl

/-- Only the four operations that may end a command are listed as writing `NVALUE`, and they write it on reaching `Done`. -/
theorem exec_nvalue {i : Instr} {s t : State} (h : exec i s = .next t) : t.nvalue = s.nvalue ∨ t.fsm = .done := by
  by_cases hw : Reg.nvalue ∈ writes i
  · cases i
    case ePadDone =>
      obtain ⟨-, rfl⟩ := ePadDone_next h
      exact encSelect_nvalue s
    case eBlockEnd =>
      obtain ⟨-, -, u, rfl, ⟨-, rfl⟩ | ⟨-, rfl⟩⟩ := eBlockEnd_next h
      · exact encSelect_nvalue _
      · exact .inr rfl
    case dPadDone =>
      obtain ⟨-, rfl⟩ := dPadDone_next h
      exact decSelect_nvalue s
    case dBlockEnd =>
      obtain ⟨-, -, u, rfl, ⟨-, rfl⟩ | ⟨-, rfl⟩⟩ := dBlockEnd_next h
      · exact decSelect_nvalue _
      · exact .inr rfl
    all_goals simp [writes] at hw
  · exact .inl (Frames.registerFrame i s t h .nvalue hw)

/-- Settles O60: what belongs to the host is kept, and `NVALUE` is written on reaching `Done`. -/
theorem argumentsAndResultFrame : Obligations.ArgumentsAndResultFrame := by
  intro i s t h
  have hside := exec_hostSide h
  simp only [hostSide, Prod.mk.injEq] at hside
  obtain ⟨hib, hil, hob, hoc, hrd, hwr, hho, htu, hda, hmi⟩ := hside
  exact ⟨hib, hil, hob, hoc, hrd, hwr, hho, htu, hda, hmi, exec_nvalue h⟩

end Sys2Proof.Proofs.HostSide

/-! Proofs about the words and the registers the host sees: `Obligations.SpecWordsDecode`, `Obligations.StatusAndErrWords`,
`Obligations.ResetLeavesRegisters`, `Obligations.InvariantsHoldAtReset` and `Obligations.RegisterWindow`. -/

namespace Sys2Proof.Proofs.Registers

open Sys2Proof.Machine Sys2Proof.Safety

/-! ### Words the spec writes out -/

/-- Settles O3: each word is decoded as the spec reads it. -/
theorem specWordsDecode : Obligations.SpecWordsDecode :=
  ⟨rfl, rfl, rfl, rfl, rfl, rfl, rfl, rfl, rfl, rfl, rfl, rfl⟩

/-! ### `STATUS` and `ERR` (R23, R24) -/

theorem statusWord_reset : statusWord State.reset = 0#32 := by decide

/-- The bits of `STATUS` (R23). -/
theorem statusWord_getLsbD (s : State) (i : Nat) : (statusWord s).getLsbD i =
    match i with
    | 0 => busy s
    | 1 => doneBit s
    | 2 => errorBit s
    | 3 => s.lastOp.getLsbD 0
    | i + 4 => (fsmCode s.fsm).getLsbD i := by
  rw [statusWord]
  iterate 5 rw [BitVec.getLsbD_append]
  obtain _ | _ | _ | _ | i := i
  case succ.succ.succ.succ =>
    have hhigh : 4 ≤ i → (fsmCode s.fsm).getLsbD i = false := BitVec.getLsbD_of_ge _ _
    by_cases hi : i < 4
    · simp [hi]
    · simp [hi, hhigh (not_lt.1 hi)]
  all_goals simp

theorem statusWord_state (s : State) : (statusWord s).extractLsb' 4 4 = fsmCode s.fsm := by
  ext i hi
  rw [BitVec.getElem_extractLsb', Nat.add_comm, statusWord_getLsbD s (i + 4)]
  exact BitVec.getLsbD_eq_getElem hi

/-- Bits 31:8 are 0, the state code having four bits. -/
theorem statusWord_lt (s : State) : (statusWord s).toNat < 256 := by
  refine Nat.lt_pow_two_of_testBit (n := 8) _ fun i hi => ?_
  obtain ⟨i, rfl⟩ := Nat.exists_eq_add_of_le' hi
  rw [BitVec.testBit_toNat, statusWord_getLsbD s (i + 8)]
  exact BitVec.getLsbD_of_ge _ _ (by omega)

theorem busy_iff {s : State} : busy s = true ↔ s.fsm ≠ .idle ∧ s.fsm ≠ .done ∧ s.fsm ≠ .error := by
  cases hf : s.fsm <;> simp [busy, fsmReady, hf]

/-- Settles O7: each field of `STATUS` is read off its bits, each code of `ERR` by its kind. -/
theorem statusAndErrWords : Obligations.StatusAndErrWords := by
  refine ⟨statusWord_reset, fun s => ⟨?_, ?_, ?_, ?_, statusWord_state s, statusWord_lt s, ?_⟩⟩
  · rw [statusWord_getLsbD, busy_iff]
  · rw [statusWord_getLsbD, doneBit, beq_iff_eq]
  · rw [statusWord_getLsbD, errorBit, beq_iff_eq]
  · rw [statusWord_getLsbD]
    obtain hop | hop := BitVec.eq_zero_or_eq_one s.lastOp <;> simp [hop]
  · cases he : s.err <;> simp [errWord, errCode, he]

/-! ### Reset (R40) -/

/-- Settles O5: a host reset writes the reset value of every register, and takes memory over. -/
theorem resetLeavesRegisters : Obligations.ResetLeavesRegisters := by
  refine fun s => ⟨rfl, resetEngine_mem s, ?_⟩
  rintro t (rfl | rfl)
  all_goals exact ⟨rfl, rfl, rfl, rfl, rfl, rfl, rfl, rfl, rfl, rfl, rfl, rfl, rfl, rfl, statusWord_reset⟩

/-- Settles O57: reset memory lists no byte, no error is recorded, and no command runs. -/
theorem invariantsHoldAtReset : Obligations.InvariantsHoldAtReset :=
  ⟨⟨.nil, by simp [State.reset]⟩, ErrorRegister.errorRecorded_reset, Invariant.resetEngine_engineInv State.reset⟩

/-! ### The register window (R21, R28) -/

theorem cursorWord_toNat {c : Cursor} (h : c.toNat < Config.memWords) : (cursorWord c).toNat = c.toNat := by
  rw [cursorWord, if_pos h, BitVec.toNat_setWidth, Nat.mod_eq_of_lt h]

theorem readReg_reserved (s : State) {r : Nat} (h : 10 ≤ r) : readReg s r = 0#32 := by
  unfold readReg
  split
  case h_10 => rfl
  all_goals omega

theorem writeArg_readOnly (s : State) {r : Nat} (v : Word) (h : 5 ≤ r) : writeArg s r v = s := by
  unfold writeArg
  split
  · rfl
  · split
    case h_5 => rfl
    all_goals omega

/-- Settles O8: each register number in turn; the numbers from 5 on are read-only or reserved. -/
theorem registerWindow : Obligations.RegisterWindow := by
  intro s
  refine ⟨rfl, rfl, rfl, rfl, rfl, rfl, rfl, rfl, cursorWord_toNat, cursorWord_toNat, fun r => readReg_reserved s,
    fun hready v => ?_⟩
  have hstored {t : State} : (.next (if busy s then s else t) : Out) = .next t := by simp [hready]
  refine ⟨hstored, hstored, hstored, hstored, fun r hr => ?_⟩
  cases r with
  | zero => omega
  | succ r => exact congrArg _ (writeArg_readOnly s v hr)

end Sys2Proof.Proofs.Registers

/-! Proof of `Obligations.StepRunsEnabledMicroOperation`. The engine is stuck when its own step would answer a stuck fault, and then
it does not move; no statement of the host answers one. -/

namespace Sys2Proof.Proofs.Stepping

open Sys2Proof.Machine

theorem fetch_eq_some {s : State} {g : Bool} {i : Instr} (hg : uopGuard s = some g)
    (hi : decode (.uop g) ((fsmCode s.fsm).setWidth 32) = .ok i) : fetch s = some i := by
  simp only [fetch, hg, hi]

theorem engineStep_of_fetch {s : State} {i : Instr} (h : fetch s = some i) : engineStep s = exec i s := by
  simp only [engineStep, h]

theorem popTurn_of_turns_nil {s : State} (h : s.turns = []) : popTurn s = s := by
  cases s
  simp_all [popTurn]

theorem stuck_eq (s : State) : stuck s = isStuck (engineStep s) := by
  unfold stuck engineStep
  split <;> rfl

/-- The start of a command accesses no memory. -/
theorem startEncode_not_stuck (s : State) : isStuck (startEncode s) = false := by
  unfold startEncode
  split <;> rfl

theorem startDecode_not_stuck (s : State) : isStuck (startDecode s) = false := by
  unfold startDecode
  split <;> rfl

theorem writeCmd_not_stuck (s : State) (v : Word) : isStuck (writeCmd s v) = false := by
  simp only [writeCmd, decode, decodeCommand]
  split_ifs
  · simp only [exec, execEncode]
    split
    · exact startEncode_not_stuck s
    · rfl
  · simp only [exec, execDecode]
    split
    · exact startDecode_not_stuck s
    · rfl
  · rfl

theorem hostWriteMem_not_stuck (s : State) (a : Nat) (ws : List Word) : isStuck (hostWriteMem s a ws) = false := by
  unfold hostWriteMem
  split_ifs <;> rfl

theorem hostExec_not_stuck (stmt : HostStmt) (s : State) : isStuck (hostExec stmt s) = false := by
  cases stmt with
  | mem a ws => exact hostWriteMem_not_stuck _ _ _
  | fill a n w => exact hostWriteMem_not_stuck _ _ _
  | wr r v =>
    cases r with
    | zero => exact writeCmd_not_stuck s v
    | succ r => rfl
  | rd r => rfl
  | encodeCmd i l o c => rfl
  | decodeCmd i o c => rfl
  | wait => rfl
  | expectReg r v => rfl
  | expectMem a vs => simp only [hostExec]; split <;> rfl
  | reset => rfl

theorem hostStep_not_stuck (s : State) : isStuck (hostStep s) = false := by
  unfold hostStep
  split
  · rfl
  · exact hostExec_not_stuck _ _

theorem step_not_stuck (s : State) : isStuck (step s) = false := by
  unfold step
  split
  case h_1 hm => rw [← stuck_eq]; exact mover_engine_not_stuck hm
  case h_2 => exact hostStep_not_stuck _
  case h_3 => rfl

/-- Settles O51: an engine that moves runs what it fetches; a stuck one leaves the step to the host. -/
theorem stepRunsEnabledMicroOperation : Obligations.StepRunsEnabledMicroOperation := by
  refine ⟨?_, ?_, ?_⟩
  · intro s g i hm hg hi
    have hf := fetch_eq_some hg hi
    exact ⟨(step_engine hm).trans (engineStep_of_fetch (s := popTurn s) hf), popTurn_of_turns_nil⟩
  · intro s
    have h := step_not_stuck s
    exact not_or.1 fun hs => by simp [isStuck_iff.2 hs] at h
  · intro s g i hg hi hfault
    have hf := fetch_eq_some hg hi
    have hstuck : stuck (popTurn s) = true := by
      rw [stuck_eq, engineStep_of_fetch (s := popTurn s) hf]
      exact isStuck_iff.2 hfault
    exact ⟨step_stuck_alone hstuck, fun _ _ => step_stuck_host hstuck⟩

end Sys2Proof.Proofs.Stepping

/-! Proof of `Obligations.MemoryStaysCanonical`. A step, of the engine or of the host, leaves memory as it is or stores one run of
words that lies inside the address space (P5 of R301, R60), and such a store keeps the canonical form. -/

namespace Sys2Proof.Proofs.MemoryForm

open Sys2Proof.Machine Sys2Proof.Safety Sys2Proof.Proofs.Invariant

/-! ### What a step does to memory -/

/-- The memory `m'` is `m`, or `m` with words stored inside the address space. -/
inductive StoresInside (m m' : List Host.Cell) : Prop
  | kept (h : m' = m)
  | stored {a : Nat} {ws : List Word} (hin : a + ws.length ≤ Config.memWords) (h : m' = Memory.storeWords m a ws)

theorem StoresInside.wf {m m' : List Host.Cell} (h : StoresInside m m') (hm : Memory.wf m) : Memory.wf m' := by
  cases h with
  | kept h => exact h ▸ hm
  | stored hin h => exact h ▸ Memory.wf_storeWords hm hin

/-! ### The shared bodies -/

/-- The encoder emits one word under the capacity test, and what follows leaves memory alone (R183, R188). -/
theorem emit_storesInside {s t : State} {w : Word} {k : State → State} (hk : ∀ u, (k u).mem = u.mem)
    (h : withCapacity s 1 (andThen (emitWord s w) fun u => .next (k u)) = .next t) : StoresInside s.mem t.mem := by
  obtain ⟨-, rfl⟩ | ⟨-, hin, rfl⟩ := emit_next h
  · exact .kept rfl
  · exact .stored (ws := [w]) hin (hk _)

theorem emitPad_storesInside {s t : State} (h : emitPad s = .next t) : StoresInside s.mem t.mem := by
  obtain ⟨-, rfl⟩ | ⟨-, hin, rfl⟩ := emitPad_next h
  · exact .kept rfl
  · exact .stored (ws := [Config.cookie]) hin rfl

theorem consumePad_mem {s t : State} {w : Word} (h : consumePad s w = .next t) : t.mem = s.mem := by
  obtain ⟨-, ⟨-, rfl⟩ | ⟨-, rfl⟩⟩ := consumePad_next h
  all_goals rfl

theorem consumeHdr_mem {s t : State} {a b c d : Byte} (h : consumeHdr s a b c d = .next t) : t.mem = s.mem := by
  obtain ⟨-, rfl⟩ := consumeHdr_next h
  rfl

theorem consumeLen_mem {s t : State} {l : Word} (h : consumeLen s l = .next t) : t.mem = s.mem := by
  obtain ⟨-, u, rfl, ⟨-, rfl⟩ | ⟨-, rfl⟩ | ⟨-, -, -, -, rfl⟩⟩ := consumeLen_next h
  all_goals rfl

theorem schedPackBody_storesInside {s t : State} (h : schedPackBody s = .next t) : StoresInside s.mem t.mem := by
  obtain ⟨-, -, u, hu, rfl⟩ := schedPackBody_next h
  obtain ⟨-, ⟨-, rfl⟩ | ⟨hin, rfl⟩⟩ := dispatchPack_next hu
  · exact .kept rfl
  · exact .stored hin rfl

theorem schedUnpackBody_storesInside {s t : State} (h : schedUnpackBody s = .next t) : StoresInside s.mem t.mem := by
  obtain ⟨-, -, u, hu, rfl⟩ := schedUnpackBody_next h
  obtain ⟨-, hin, rfl⟩ := dispatchUnpack_next hu
  exact .stored hin rfl

/-! ### The engine's step -/

theorem eBlockEnd_mem {s t : State} (h : exec .eBlockEnd s = .next t) : t.mem = s.mem := by
  obtain ⟨-, -, u, rfl, ⟨-, rfl⟩ | ⟨-, rfl⟩⟩ := eBlockEnd_next h
  · exact encSelect_mem _
  · rfl

theorem dBlockEnd_mem {s t : State} (h : exec .dBlockEnd s = .next t) : t.mem = s.mem := by
  obtain ⟨-, -, u, rfl, ⟨-, rfl⟩ | ⟨-, rfl⟩⟩ := dBlockEnd_next h
  · exact decSelect_mem _
  · rfl

/-- Of the micro-operations, four of the encoder and `D_UNPACK` store (R61). -/
theorem uop_storesInside {i : Instr} {g : Bool} {w : Word} (hi : encode i = some (.uop g, w)) {s t : State}
    (h : exec i s = .next t) : StoresInside s.mem t.mem := by
  cases i
  case eCheckLen =>
    obtain ⟨-, ⟨-, rfl⟩ | ⟨-, rfl⟩⟩ := eCheckLen_next h
    all_goals exact .kept rfl
  case ePrefix => exact emit_storesInside (k := fun u => { u with fsm := .eWritingPadding }) (fun _ => rfl) (ePrefix_next h).2
  case ePad => exact emitPad_storesInside (ePad_next h).2
  case ePadDone =>
    obtain ⟨-, rfl⟩ := ePadDone_next h
    exact .kept (encSelect_mem s)
  case eWidth =>
    obtain ⟨-, v, rfl⟩ := eWidth_next h
    exact .kept (nextWidthState_mem _)
  case eHdr => exact emit_storesInside nextHeader_mem (eHdr_next h).2
  case ePack =>
    obtain ⟨-, ⟨-, h⟩ | ⟨-, rfl⟩⟩ := ePack_next h
    · exact schedPackBody_storesInside h
    · exact .kept rfl
  case eBlockEnd => exact .kept (eBlockEnd_mem h)
  case dPrefix => exact .kept (consumeLen_mem (dPrefix_next h).2)
  case dPad => exact .kept (consumePad_mem (dPad_next h).2)
  case dPadDone =>
    obtain ⟨-, rfl⟩ := dPadDone_next h
    exact .kept (decSelect_mem s)
  case dHdr =>
    obtain ⟨-, a, b, c, d, h⟩ := dHdr_next h
    exact .kept (consumeHdr_mem h)
  case dHdrCheck =>
    obtain ⟨-, ⟨-, rfl⟩ | ⟨-, rfl⟩⟩ := dHdrCheck_next h
    all_goals exact .kept rfl
  case dUnpack => exact schedUnpackBody_storesInside (dUnpack_next h).2
  case dBlockEnd => exact .kept (dBlockEnd_mem h)
  all_goals simp [encode] at hi

theorem engineStep_storesInside {s t : State} (h : engineStep s = .next t) : StoresInside s.mem t.mem := by
  unfold engineStep at h
  split at h
  · rename_i i hf
    obtain ⟨g, w, hi⟩ := encode_of_fetch hf
    exact uop_storesInside hi h
  · cases h

/-! ### The host's step -/

/-- A word past the top does not exist, so what the host writes lies inside the space (R60). -/
theorem hostWriteMem_storesInside {s t : State} {a : Nat} {ws : List Word} (h : hostWriteMem s a ws = .next t) :
    StoresInside s.mem t.mem := by
  unfold hostWriteMem at h
  split_ifs at h with htop
  cases h
  exact .stored (Nat.le_of_not_lt htop) rfl

theorem writeCmd_mem {s t : State} {v : Word} (h : writeCmd s v = .next t) : t.mem = s.mem := by
  simp only [writeCmd, decode, decodeCommand] at h
  split_ifs at h
  · obtain ⟨-, -, rfl⟩ | ⟨-, rfl⟩ := encode_next h
    all_goals rfl
  · obtain ⟨-, -, rfl⟩ | ⟨-, rfl⟩ := decode_next h
    all_goals rfl
  · cases h; rfl

theorem writeArg_mem (s : State) (r : Nat) (v : Word) : (writeArg s r v).mem = s.mem := by
  unfold writeArg
  repeat' split
  all_goals rfl

/-- The statements `MEM` and `FILL` store; no other one does, reset included (R106, R291). -/
theorem hostExec_storesInside {stmt : HostStmt} {s t : State} (h : hostExec stmt s = .next t) : StoresInside s.mem t.mem := by
  cases stmt with
  | mem a ws => exact hostWriteMem_storesInside h
  | fill a n w => exact hostWriteMem_storesInside h
  | wr r v =>
    cases r with
    | zero => exact .kept (writeCmd_mem h)
    | succ r => cases h; exact .kept (writeArg_mem s (r + 1) v)
  | rd r => cases h; exact .kept rfl
  | encodeCmd i l o c => cases h; exact .kept rfl
  | decodeCmd i o c => cases h; exact .kept rfl
  | wait => cases h; exact .kept rfl
  | expectReg r v => cases h; exact .kept rfl
  | expectMem a vs =>
    simp only [hostExec] at h
    split_ifs at h
    cases h
    exact .kept rfl
  | reset => cases h; exact .kept (resetEngine_mem s)

theorem hostStep_storesInside {s t : State} (h : hostStep s = .next t) : StoresInside s.mem t.mem := by
  unfold hostStep at h
  split at h
  · cases h; exact .kept rfl
  · rename_i rest _
    exact hostExec_storesInside (s := { s with host := rest }) h

theorem step_storesInside {s t : State} (h : step s = .next t) : StoresInside s.mem t.mem := by
  obtain ⟨-, h⟩ | ⟨-, h⟩ | ⟨-, rfl⟩ := step_eq_next h
  · exact engineStep_storesInside (s := popTurn s) h
  · exact hostStep_storesInside (s := popTurn s) h
  · exact .kept rfl

/-- Settles O54: a step stores nothing, or words inside the address space, which keeps the canonical form. -/
theorem memoryStaysCanonical : Obligations.MemoryStaysCanonical :=
  fun _ _ hs h => (step_storesInside h).wf hs

end Sys2Proof.Proofs.MemoryForm

/-! Proofs of `Obligations.DecodeOfEncodeIsInstruction` and `Obligations.EncodeOfDecodeIsWord`. Only two formats carry fields, the
dispatch word (R103) and the header word (R95): each is taken apart and put together again by a lemma of its own. On every other
channel an operation has one fixed word, or its operand is the word. -/

namespace Sys2Proof.Proofs.Codec

/-! ### The header word (R95) -/

/-- The four bytes of a word, put together in the order of `HDR`, are the word. -/
theorem encodeHdr_byteFields (w : Word) :
    encodeHdr (byteField w 3) (byteField w 2) (byteField w 1) (byteField w 0) = w :=
  Machine.bytesWord_wordBytes w

/-- The fields of a header word are read back, each behind the ones below it. -/
theorem decodeHdr_encodeHdr (a b c d : Byte) : decodeHdr (encodeHdr a b c d) = .hdr a b c d := by
  have ha : byteField (encodeHdr a b c d) 3 = a := by
    rw [byteField, encodeHdr]
    iterate 2 rw [BitVec.extractLsb'_append_eq_of_le (by decide)]
    exact BitVec.extractLsb'_append_eq_left
  have hb : byteField (encodeHdr a b c d) 2 = b := by
    rw [byteField, encodeHdr]
    iterate 2 rw [BitVec.extractLsb'_append_eq_of_le (by decide)]
    exact BitVec.extractLsb'_append_eq_right
  have hc : byteField (encodeHdr a b c d) 1 = c := by
    rw [byteField, encodeHdr, BitVec.extractLsb'_append_eq_of_le (by decide)]
    exact BitVec.extractLsb'_append_eq_right
  have hd : byteField (encodeHdr a b c d) 0 = d := BitVec.extractLsb'_append_eq_right
  rw [decodeHdr, ha, hb, hc, hd]

/-! ### The dispatch word (R103) -/

/-- A 7-bit dispatch word with a legal width is read as its two fields say. -/
theorem decodeDispatch_of_fields {w : Word} {bits : BitVec 6} (src dst : Word) (hw : w.toNat < 2 ^ 7)
    (hf : w.extractLsb' 0 6 = bits) (hb : bits.toNat ≤ Config.maxWidth) :
    decodeDispatch src dst w = .ok (if w.getLsbD 6 then .unpack bits src dst else .pack bits src dst) := by
  have hlt : ¬ 128 ≤ w.toNat := not_le.2 hw
  simp only [decodeDispatch, hf, if_neg hlt, if_neg (not_lt.2 hb)]
  split <;> rfl

/-- A legal width is read back from the `PACK` word, whose bit 6 is 0. -/
theorem decodeDispatch_packWord {bits : BitVec 6} (src dst : Word) (hb : bits.toNat ≤ Config.maxWidth) :
    decodeDispatch src dst (bits.setWidth 32) = .ok (.pack bits src dst) := by
  have hf : (bits.setWidth 32).extractLsb' 0 6 = bits := by
    rw [BitVec.extractLsb'_setWidth_of_le (by decide), BitVec.extractLsb'_eq_self]
  have hkop : (bits.setWidth 32).getLsbD 6 = false := by simp
  rw [decodeDispatch_of_fields src dst (Laws.Codec.packWord_lt bits) hf hb, hkop]
  rfl

/-- A legal width is read back from the `UNPACK` word, whose bit 6 is 1. -/
theorem decodeDispatch_unpackWord {bits : BitVec 6} (src dst : Word) (hb : bits.toNat ≤ Config.maxWidth) :
    decodeDispatch src dst (0x40#32 ||| bits.setWidth 32) = .ok (.unpack bits src dst) := by
  have hf : (0x40#32 ||| bits.setWidth 32).extractLsb' 0 6 = bits := by
    rw [BitVec.extractLsb'_or, BitVec.extractLsb'_setWidth_of_le (by decide), BitVec.extractLsb'_eq_self]
    exact BitVec.zero_or
  have hkop : (0x40#32 ||| bits.setWidth 32).getLsbD 6 = true := by simp
  rw [decodeDispatch_of_fields src dst (Laws.Codec.unpackWord_lt bits) hf hb, hkop]
  rfl

/-- A 7-bit word is its `kop` bit above its `bits` field. -/
theorem toNat_eq_kop_add_bits {w : Word} (h : w.toNat < 128) :
    w.toNat = 2 ^ 6 * (w.getLsbD 6).toNat + (w.extractLsb' 0 6).toNat := by
  have hkop : (w.getLsbD 6).toNat = w.toNat / 2 ^ 6 % 2 := Nat.toNat_testBit w.toNat 6
  have hbits : (w.extractLsb' 0 6).toNat = w.toNat % 2 ^ 6 := BitVec.extractLsb'_toNat 0 6 w
  omega

/-- An accepted dispatch word is the encoding of what it means: no bit of it is ignored. -/
theorem encode_of_decodeDispatch {src dst w : Word} {i : Instr} (h : decodeDispatch src dst w = .ok i) :
    encode i = some (.dispatch src dst, w) := by
  simp only [decodeDispatch] at h
  have hbits : ((w.extractLsb' 0 6).setWidth 32).toNat = (w.extractLsb' 0 6).toNat := BitVec.toNat_setWidth_of_le (by decide)
  split_ifs at h with hlt _ hkop
  · have hsum := toNat_eq_kop_add_bits (not_le.1 hlt)
    have hword : 0x40#32 ||| (w.extractLsb' 0 6).setWidth 32 = w := by
      refine BitVec.eq_of_toNat_eq ?_
      rw [BitVec.toNat_or, hbits, hsum, hkop]
      exact (Nat.two_pow_add_eq_or_of_lt (w.extractLsb' 0 6).isLt 1).symm
    cases h
    simp only [encode, hword]
  · have hsum := toNat_eq_kop_add_bits (not_le.1 hlt)
    have hword : (w.extractLsb' 0 6).setWidth 32 = w := by
      refine BitVec.eq_of_toNat_eq ?_
      rw [hbits, hsum, Bool.eq_false_of_not_eq_true hkop]
      exact (Nat.zero_add _).symm
    cases h
    simp only [encode, hword]

/-! ### State codes (R104, R105) -/

theorem ofNat_eq_of_toNat {w : Word} {n : Nat} (h : w.toNat = n) : BitVec.ofNat 32 n = w :=
  BitVec.eq_of_toNat_eq (by simp [← h])

theorem encode_of_decodeUop {g : Bool} {w : Word} {i : Instr} (h : decodeUop g w = .ok i) :
    encode i = some (.uop g, w) := by
  unfold decodeUop at h
  split at h
  case h_16 => split_ifs at h
  all_goals
    cases h
    rw [← ofNat_eq_of_toNat ‹w.toNat = _›]
    rfl

theorem encode_of_decodeBody {g : Bool} {w : Word} {i : Instr} (h : decodeBody g w = .ok i) :
    encode i = some (.body g, w) := by
  unfold decodeBody at h
  split at h
  case h_7 => split_ifs at h
  all_goals
    cases h
    rw [← ofNat_eq_of_toNat ‹w.toNat = _›]
    rfl

/-! ### The other channels -/

theorem encode_of_decodeCommand {w : Word} {i : Instr} (h : decodeCommand w = .ok i) : encode i = some (.command, w) := by
  unfold decodeCommand at h
  split_ifs at h <;> cases h <;> subst w <;> rfl

theorem encode_of_decodeStart {w : Word} {i : Instr} (h : decodeStart w = .ok i) : encode i = some (.start, w) := by
  unfold decodeStart at h
  split_ifs at h <;> cases h <;> subst w <;> rfl

theorem encode_of_decodeStream {pos : StreamPos} {w : Word} {i : Instr} (h : decodeStream pos w = .ok i) :
    encode i = some (.stream pos, w) := by
  cases pos with
  | lenWord => cases h; rfl
  | padWord =>
    simp only [decodeStream] at h
    split_ifs at h with hw
    cases h
    rw [hw]
    rfl
  | hdrWord =>
    cases h
    simp only [decodeHdr, encode, encodeHdr_byteFields]
  | payloadWord => cases h; rfl

/-! ### Both directions -/

/-- Settles O1: the dispatch and header words are read back field by field; every other word is fixed, or is the operand. -/
theorem decodeOfEncodeIsInstruction : Obligations.DecodeOfEncodeIsInstruction := by
  intro i c w hwf h
  cases i
  case needsPad | maxbits | hdrPack | hdrUnpack | widthCheck => cases h
  case pack bits src dst =>
    cases h
    exact decodeDispatch_packWord src dst (of_decide_eq_true hwf)
  case unpack bits src dst =>
    cases h
    exact decodeDispatch_unpackWord src dst (of_decide_eq_true hwf)
  case hdr a b c d =>
    cases h
    exact congrArg _ (decodeHdr_encodeHdr a b c d)
  all_goals
    cases h
    rfl

/-- Settles O2, channel by channel. -/
theorem encodeOfDecodeIsWord : Obligations.EncodeOfDecodeIsWord := by
  intro c w i h
  cases c with
  | command => exact encode_of_decodeCommand h
  | start => exact encode_of_decodeStart h
  | uop g => exact encode_of_decodeUop h
  | body g => exact encode_of_decodeBody h
  | dispatch src dst => exact encode_of_decodeDispatch h
  | stream pos => exact encode_of_decodeStream h

end Sys2Proof.Proofs.Codec

/-! Proofs about the words of a stream: `Obligations.StreamWordsAreMicroOperations`, `Obligations.LenWordResult`,
`Obligations.PadWordResult`, `Obligations.HdrWordResult` and `Obligations.PayloadWordResult`. A stream word is executed in the state
that stands at its position (R92): there it is the decoder's consumption of the word, or the encoder's emission of it (log 16). -/

namespace Sys2Proof.Proofs.StreamWords

open Sys2Proof.Machine Sys2Proof.Safety

/-! ### The state at a position -/

theorem enabledAt_dReadingPrefix {s : State} (hf : s.fsm = .dReadingPrefix) : enabledAt .dReadingPrefix true s = true :=
  enabledAt_iff.2 ⟨hf, by simp only [uopGuard, hf]⟩

theorem enabledAt_eWritingPrefix {s : State} (hf : s.fsm = .eWritingPrefix) : enabledAt .eWritingPrefix true s = true :=
  enabledAt_iff.2 ⟨hf, by simp only [uopGuard, hf]⟩

theorem enabledAt_dSkippingPadding {s : State} (hf : s.fsm = .dSkippingPadding) (hp : s.inCur.toNat % 4 ≠ 0) :
    enabledAt .dSkippingPadding true s = true :=
  enabledAt_iff.2 ⟨hf, by simp only [uopGuard, hf, needsPadAt_eq_true.2 hp]⟩

theorem enabledAt_eWritingPadding {s : State} (hf : s.fsm = .eWritingPadding) (hp : s.outCur.toNat % 4 ≠ 0) :
    enabledAt .eWritingPadding true s = true :=
  enabledAt_iff.2 ⟨hf, by simp only [uopGuard, hf, needsPadAt_eq_true.2 hp]⟩

theorem enabledAt_dReadingHeader {s : State} (hf : s.fsm = .dReadingHeader) (hk : s.hdrIdx.toNat < 4) :
    enabledAt .dReadingHeader true s = true :=
  enabledAt_iff.2 ⟨hf, by simp only [uopGuard, hf, if_pos hk]⟩

theorem enabledAt_eWritingHeader {s : State} (hf : s.fsm = .eWritingHeader) (hk : s.hdrIdx.toNat < 4) :
    enabledAt .eWritingHeader true s = true :=
  enabledAt_iff.2 ⟨hf, by simp only [uopGuard, hf, if_pos hk]⟩

/-- What is enabled in one state is not enabled in another. -/
theorem not_enabledAt {s : State} {st st' : FsmState} {g : Bool} (h : enabledAt st g s = true) (hne : st ≠ st') :
    ¬ enabledAt st' g s = true :=
  fun h' => hne ((enabledAt_iff.1 h).1.symm.trans (enabledAt_iff.1 h').1)

/-! ### A stream word at its position (log 16) -/

theorem len_taken {l : Word} {s : State} (h : enabledAt .dReadingPrefix true s = true) : exec (.len l) s = consumeLen s l :=
  if_pos h

theorem len_emitted {s : State} (h : enabledAt .eWritingPrefix true s = true) : exec (.len s.len) s = emitLen s s.len :=
  (if_neg (not_enabledAt h (by decide))).trans (if_pos ⟨h, rfl⟩)

theorem pad_taken {s : State} (h : enabledAt .dSkippingPadding true s = true) : exec .pad s = consumePad s Config.cookie :=
  if_pos h

theorem pad_emitted {s : State} (h : enabledAt .eWritingPadding true s = true) : exec .pad s = emitPad s :=
  (if_neg (not_enabledAt h (by decide))).trans (if_pos h)

theorem hdr_taken {a b c d : Byte} {s : State} (h : enabledAt .dReadingHeader true s = true) :
    exec (.hdr a b c d) s = consumeHdr s a b c d :=
  if_pos h

theorem hdr_emitted {a b c d : Byte} {s : State} (h : enabledAt .eWritingHeader true s = true)
    (hw : encodeHdr a b c d = hdrWordOf s.widths s.hdrIdx.toNat) : exec (.hdr a b c d) s = emitHdr s (encodeHdr a b c d) :=
  (if_neg (not_enabledAt h (by decide))).trans (if_pos ⟨h, hw⟩)

/-! ### The micro-operations of the decoder on the word at the input cursor -/

theorem dPrefix_consumes {s : State} (h : enabledAt .dReadingPrefix true s = true) (hr : MayRead s s.inCur.toNat 1) :
    exec .dPrefix s = consumeLen s (Memory.readWord s.mem s.inCur.toNat) :=
  (fire_enabled h).trans (readMem_ok hr.1 hr.2)

theorem dPad_consumes {s : State} (h : enabledAt .dSkippingPadding true s = true) (hr : MayRead s s.inCur.toNat 1) :
    exec .dPad s = consumePad s (Memory.readWord s.mem s.inCur.toNat) :=
  (fire_enabled h).trans (readMem_ok hr.1 hr.2)

/-- `D_HDR` consumes the four bytes of the word (R134, R216). -/
theorem dHdr_consumes {s : State} {w : Word} (h : enabledAt .dReadingHeader true s = true) (hr : MayRead s s.inCur.toNat 1)
    (hw : Memory.readWord s.mem s.inCur.toNat = w) :
    exec .dHdr s = consumeHdr s (byteField w 3) (byteField w 2) (byteField w 1) (byteField w 0) := by
  refine ((fire_enabled h).trans (readMem_ok hr.1 hr.2)).trans ?_
  simp only [hdrField_eq_extract, Memory.readWords_one, hw]
  rfl

/-! ### Words taken and emitted where the preconditions hold -/

theorem overlaps_of_apart {a n b m : Nat} (h : Apart a n b m) : overlaps a n b m = false :=
  overlaps_eq_false.2 (h.imp_right (Or.imp_right Or.symm))

/-- A length word that keeps P3, P4 and P5 and meets no error is taken (R212). -/
theorem consumeLen_ok {s : State} {l : Word} (hin : s.inCur.toNat + 1 ≤ Config.memWords) (hal : s.outCur.toNat % 4 = 0)
    (hap : StreamApart s l.toNat) (hcap : l.toNat ≤ s.outCap.toNat) (hmul : l.toNat % 128 = 0)
    (hout : s.outBase.toNat + l.toNat ≤ Config.memWords) :
    consumeLen s l = .next { s with
      len := l
      inCur := BitVec.ofNat 33 (s.inCur.toNat + 1)
      fsm := .dSkippingPadding } := by
  have hadv := advanceIn_ok (s := { s with len := l }) hin
  have hmeet : decodeRegionsMeet { s with len := l, inCur := BitVec.ofNat 33 (s.inCur.toNat + 1) } = false :=
    overlaps_of_apart hap
  exact andThen_eq_next.2
    ⟨_, hadv, checkLen_eq_next.2 ⟨hmeet, .inr ⟨needsPadAt_eq_false.2 hal, .inr ⟨hcap, hmul, hout, rfl⟩⟩⟩⟩

theorem consumePad_ok {s : State} (hin : s.inCur.toNat + 1 ≤ Config.memWords) :
    consumePad s Config.cookie = .next { s with inCur := BitVec.ofNat 33 (s.inCur.toNat + 1) } := by
  rw [consumePad, advanceIn_ok hin, andThen_next, if_pos rfl]

theorem consumeHdr_ok {s : State} {a b c d : Byte} (hin : s.inCur.toNat + 1 ≤ Config.memWords) :
    consumeHdr s a b c d = .next { s with
      widths := setFields s.widths s.hdrIdx.toNat a b c d
      inCur := BitVec.ofNat 33 (s.inCur.toNat + 1)
      hdrIdx := s.hdrIdx + 1#3 } := by
  rw [consumeHdr, advanceIn_ok hin, andThen_next]

/-- With room and the word writable, the sentinel is emitted (R184). -/
theorem emitPad_ok {s : State} (hcap : s.outCur.toNat - s.outBase.toNat + 1 ≤ s.outCap.toNat) (hw : MayWrite s s.outCur.toNat 1) :
    emitPad s = .next { s with
      mem := Memory.storeWords s.mem s.outCur.toNat [Config.cookie]
      outCur := BitVec.ofNat 33 (s.outCur.toNat + 1) } :=
  withCapacity_eq_next.2 (.inl ⟨decide_eq_true hcap, emitWord_eq_next.2 ⟨hw.1, hw.2, rfl⟩⟩)

/-! ### The statements -/

/-- Settles O46: on both sides the operation and the word it moves come to the same consumption or emission. -/
theorem streamWordsAreMicroOperations : Obligations.StreamWordsAreMicroOperations := by
  intro s
  refine ⟨?_, ?_, ?_, ?_, ?_, ?_⟩
  · intro hf hr
    have he := enabledAt_dReadingPrefix hf
    exact ⟨_, rfl, (dPrefix_consumes he hr).trans (len_taken he).symm⟩
  · intro hf hp hr i hi
    have he := enabledAt_dSkippingPadding hf hp
    simp only [decode, decodeStream] at hi
    split_ifs at hi with hw
    cases hi
    rw [dPad_consumes he hr, pad_taken he, hw]
  · intro hf hk hr
    have he := enabledAt_dReadingHeader hf hk
    exact ⟨_, rfl, (dHdr_consumes he hr rfl).trans (hdr_taken he).symm⟩
  · intro hf
    have he := enabledAt_eWritingPrefix hf
    exact (fire_enabled he).trans (len_emitted he).symm
  · intro hf hp
    have he := enabledAt_eWritingPadding hf hp
    exact (fire_enabled he).trans (pad_emitted he).symm
  · intro hf hk
    have he := enabledAt_eWritingHeader hf hk
    have hw := Codec.encodeHdr_byteFields (hdrWordOf s.widths s.hdrIdx.toNat)
    refine ⟨_, rfl, ?_⟩
    rw [decodeHdr, hdr_emitted he hw, hw]
    exact fire_enabled he

/-- Settles O47. -/
theorem lenWordResult : Obligations.LenWordResult := by
  intro l s hf hin hal hap hcap hmul hout
  rw [len_taken (enabledAt_dReadingPrefix hf), consumeLen_ok hin hal hap hcap hmul hout]

/-- Settles O48: the decoder's side, then the encoder's. -/
theorem padWordResult : Obligations.PadWordResult := by
  refine fun s => ⟨fun hf hp hin => ?_, fun hf hp hcap hw => ?_⟩
  · rw [pad_taken (enabledAt_dSkippingPadding hf hp), consumePad_ok hin]
  · rw [pad_emitted (enabledAt_eWritingPadding hf hp), emitPad_ok hcap hw]

/-- Settles O49: the entries are those `setFields` writes, at an index below 4. -/
theorem hdrWordResult : Obligations.HdrWordResult := by
  intro a b c d s hf hk hin
  have hnext : BitVec.ofNat 3 (s.hdrIdx.toNat + 1) = s.hdrIdx + 1#3 := by
    rw [BitVec.ofNat_add, BitVec.ofNat_toNat, BitVec.setWidth_eq]
  refine ⟨setFields s.widths s.hdrIdx.toNat a b c d, ?_, fun i => widthAt_setFields _ _ i a b c d hk⟩
  rw [hdr_taken (enabledAt_dReadingHeader hf hk), consumeHdr_ok hin, hnext]

/-- Settles O50. -/
theorem payloadWordResult : Obligations.PayloadWordResult := fun _ _ => rfl

end Sys2Proof.Proofs.StreamWords

/-! Proof of `Obligations.StepRunsHostStatement`. -/

namespace Sys2Proof.Proofs.HostSteps

open Sys2Proof.Machine

/-- The host's step takes its first pending statement from the list and runs it (R106). -/
theorem hostStep_cons {s : State} {h : HostStmt} {rest : List HostStmt} (hh : s.host = h :: rest) :
    hostStep s = hostExec h { s with host := rest } := by
  simp only [hostStep, hh]

/-- A written 1 is `ENCODE` (R102, R240). -/
theorem hostExec_wr_encode (s : State) : hostExec (.wr 0 1#32) s = exec .encode s := rfl

/-- A written 2 is `DECODE` (R102, R241). -/
theorem hostExec_wr_decode (s : State) : hostExec (.wr 0 2#32) s = exec .decode s := rfl

/-- Settles O52: the step of a host that moves is its statement, and a command is the statement that writes it. -/
theorem stepRunsHostStatement : Obligations.StepRunsHostStatement := by
  intro s h rest hm hh
  have hstep : step s = hostExec h { popTurn s with host := rest } := (step_host hm).trans (hostStep_cons hh)
  refine ⟨hstep, ?_, ?_⟩
  · rintro rfl
    rw [hstep, hostExec_wr_encode]
  · rintro rfl
    rw [hstep, hostExec_wr_decode]

end Sys2Proof.Proofs.HostSteps

/-! Proofs of the statements about padding: `Obligations.NeedsPadResult`, `Obligations.PadEmitResult`, `Obligations.PadSkipResult` and
`Obligations.PaddingLoopWritesThreeWords`. A padding step is enabled on a cursor that is not aligned (R122, R123); the loop is an
induction on the number of sentinels already written. -/

namespace Sys2Proof.Proofs.Padding

open Sys2Proof.Machine Sys2Proof.Safety Sys2Proof.Proofs.StreamWords

/-! ### The guard of the padding steps (R120) -/

theorem needsPadAt_eq_decide (a : Nat) : needsPadAt a = decide (a % 4 ≠ 0) :=
  Bool.eq_iff_iff.2 (needsPadAt_eq_true.trans decide_eq_true_iff.symm)

/-- `PAD_EMIT` and `E_PAD` never fire on an aligned cursor (R122, R184). -/
theorem outCur_unaligned_of_enabled {s : State} (he : enabledAt .eWritingPadding true s = true) : s.outCur.toNat % 4 ≠ 0 := by
  obtain ⟨hf, hg⟩ := enabledAt_iff.1 he
  simp only [uopGuard, hf, Option.some.injEq] at hg
  exact needsPadAt_eq_true.1 hg

/-- `PAD_SKIP` and `D_PAD` never fire on an aligned cursor (R123, R213). -/
theorem inCur_unaligned_of_enabled {s : State} (he : enabledAt .dSkippingPadding true s = true) : s.inCur.toNat % 4 ≠ 0 := by
  obtain ⟨hf, hg⟩ := enabledAt_iff.1 he
  simp only [uopGuard, hf, Option.some.injEq] at hg
  exact needsPadAt_eq_true.1 hg

/-! ### One padding word -/

/-- `E_PAD` is `PAD_EMIT` under the capacity test (R184, R191). -/
theorem ePad_emits {s : State} (he : enabledAt .eWritingPadding true s = true)
    (hcap : s.outCur.toNat - s.outBase.toNat + 1 ≤ s.outCap.toNat) (hw : MayWrite s s.outCur.toNat 1) :
    exec .ePad s = .next { s with
      mem := Memory.storeWords s.mem s.outCur.toNat [Config.cookie]
      outCur := BitVec.ofNat 33 (s.outCur.toNat + 1) } :=
  (fire_enabled he).trans (emitPad_ok hcap hw)

/-- `PAD_SKIP` and the micro-operation whose body it is consume the same word (R213). -/
theorem padSkip_eq_dPad (s : State) : exec .padSkip s = exec .dPad s := rfl

/-- A word that is not the sentinel is passed before the error is raised (R123). -/
theorem consumePad_corrupt {s : State} {w : Word} (hin : s.inCur.toNat + 1 ≤ Config.memWords) (hw : w ≠ Config.cookie) :
    consumePad s w = .next (raise .streamCorrupt { s with inCur := BitVec.ofNat 33 (s.inCur.toNat + 1) }) := by
  rw [consumePad, advanceIn_ok hin, andThen_next, if_neg hw]

/-! ### The padding loop of the encoder (R121, R125) -/

/-- A word stored behind a run of words lengthens the run by that word. -/
theorem readWords_storeWords_snoc (m : List Host.Cell) (a n : Nat) (w : Word) :
    Memory.readWords (Memory.storeWords m (a + n) [w]) a (n + 1) = Memory.readWords m a n ++ [w] := by
  have hrun : Memory.readWords (Memory.storeWords m (a + n) [w]) a n = Memory.readWords m a n :=
    Memory.readWords_storeWords_apart (.inl (Nat.le_refl _))
  have hlast : Memory.readWord (Memory.storeWords m (a + n) [w]) (a + n) = w :=
    Memory.readWord_storeWords_inside (j := 0) Nat.zero_lt_one
  rw [← hrun]
  simp [Memory.readWords, List.range_succ, hlast]

/-- The encoder's padding loop with `k` sentinels written behind the length word at `base`, and room for all three. -/
structure SentinelsWritten (base k : Nat) (s : State) : Prop where
  inState : s.fsm = .eWritingPadding
  outBase_eq : s.outBase.toNat = base
  base_aligned : base % 4 = 0
  outCur_eq : s.outCur.toNat = base + 1 + k
  room : 4 ≤ s.outCap.toNat
  mayWrite : ∀ j, 1 ≤ j → j < 4 → MayWrite s (base + j) 1
  written : Memory.readWords s.mem (base + 1) k = List.replicate k Config.cookie

/-- Until three sentinels stand, `E_PAD` fires and writes the next one. -/
theorem SentinelsWritten.ePad_succ {base k : Nat} {s : State} (h : SentinelsWritten base k s) (hk : k < 3) :
    ∃ t, exec .ePad s = .next t ∧ SentinelsWritten base (k + 1) t := by
  obtain ⟨hf, hb, hal, hcur, hroom, hmay, hread⟩ := h
  have he : enabledAt .eWritingPadding true s = true := enabledAt_eWritingPadding hf (by omega)
  have hw : MayWrite s s.outCur.toNat 1 := by
    rw [hcur, Nat.add_assoc]
    exact hmay (1 + k) (by omega) (by omega)
  have hnext : (BitVec.ofNat 33 (s.outCur.toNat + 1)).toNat = base + 1 + (k + 1) := by
    rw [cursor_toNat hw.1, hcur, Nat.add_assoc]
  refine ⟨_, ePad_emits he (by omega) hw, hf, hb, hal, hnext, hroom, hmay, ?_⟩
  rw [hcur, readWords_storeWords_snoc, hread, List.replicate_succ']

/-- After the third sentinel the cursor is aligned and `E_PAD` is not enabled (R184; log 14). -/
theorem SentinelsWritten.ePad_refused {base : Nat} {s : State} (h : SentinelsWritten base 3 s) :
    exec .ePad s = .refused .notEnabled :=
  fire_disabled fun he => outCur_unaligned_of_enabled he (by have := h.base_aligned; have := h.outCur_eq; omega)

/-! ### The statements -/

/-- Settles O16: three steps of the loop, each from the count the step before it reached. -/
theorem paddingLoopWritesThreeWords : Obligations.PaddingLoopWritesThreeWords := by
  intro s hf hal hcur hroom hmay
  have hs : SentinelsWritten s.outBase.toNat 0 s := ⟨hf, rfl, hal, hcur, hroom, hmay, rfl⟩
  obtain ⟨t, hst, ht⟩ := hs.ePad_succ (by decide)
  obtain ⟨u, htu, hu⟩ := ht.ePad_succ (by decide)
  obtain ⟨v, huv, hv⟩ := hu.ePad_succ (by decide)
  exact ⟨t, u, v, hst, htu, huv, hv.written, hv.outCur_eq, hv.ePad_refused⟩

/-- Settles O9. -/
theorem needsPadResult : Obligations.NeedsPadResult := by
  intro a s
  rw [← needsPadAt_eq_decide]
  rfl

/-- Settles O14. -/
theorem padEmitResult : Obligations.PadEmitResult := by
  refine fun s hf => ⟨fun hal => ?_, fun hp hw => ?_⟩
  · exact fire_disabled fun he => outCur_unaligned_of_enabled he hal
  · exact (fire_enabled (enabledAt_eWritingPadding hf hp)).trans (emitWord_eq_next.2 ⟨hw.1, hw.2, rfl⟩)

/-- Settles O15: the word under the cursor is consumed, and it is the sentinel or it is not. -/
theorem padSkipResult : Obligations.PadSkipResult := by
  refine fun s hf => ⟨fun hal => ?_, fun hp hr => ?_⟩
  · exact fire_disabled fun he => inCur_unaligned_of_enabled he hal
  · have hconsume := (padSkip_eq_dPad s).trans (dPad_consumes (enabledAt_dSkippingPadding hf hp) hr)
    refine ⟨fun hw => ?_, fun hw => ?_⟩
    · rw [hconsume, hw]
      exact consumePad_ok hr.1
    · exact hconsume.trans (consumePad_corrupt hr.1 hw)

end Sys2Proof.Proofs.Padding

/-! Proofs of the statements about the width_header family: `Obligations.HeaderFieldsRoundTrip`, `Obligations.MaxbitsIsLeastWidth`,
`Obligations.HdrPackResult`, `Obligations.HdrUnpackResult` and `Obligations.WidthCheckResult`. A header word packed by shifts (R132)
is the word of the `HDR` format (R95), and a field of it is a byte of that format, so both round trips are the format's own. -/

namespace Sys2Proof.Proofs.WidthHeader

open Sys2Proof.Machine Sys2Proof.Proofs.Codec

/-! ### Header words (R132, R134) -/

/-- `hdr_word` is the `HDR` word of its four entries (R95). -/
theorem hdrWordOf_eq_encodeHdr (b : Vector Byte 16) (k : Nat) :
    hdrWordOf b k =
      encodeHdr (widthAt b (4 * k)) (widthAt b (4 * k + 1)) (widthAt b (4 * k + 2)) (widthAt b (4 * k + 3)) := by
  have happend := BitVec.setWidth_append_append_append_eq_shiftLeft_setWidth_or (w'''' := 32)
    (b := widthAt b (4 * k)) (b' := widthAt b (4 * k + 1)) (b'' := widthAt b (4 * k + 2)) (b''' := widthAt b (4 * k + 3))
  rw [BitVec.setWidth_eq] at happend
  exact happend.symm

/-- The four components of `hdr_fields` are the bytes of the `HDR` format, the first on top. -/
theorem byteField_eq_hdrField (w : Word) (k : Nat) : byteField w k = hdrField w (8 * k) := (hdrField_eq_extract w (8 * k)).symm

/-- What `hdr_fields` gives for an `HDR` word are the fields it was made of (R135). -/
theorem hdrField_encodeHdr (a b c d : Byte) :
    hdrField (encodeHdr a b c d) 24 = a ∧ hdrField (encodeHdr a b c d) 16 = b
      ∧ hdrField (encodeHdr a b c d) 8 = c ∧ hdrField (encodeHdr a b c d) 0 = d := by
  have h := decodeHdr_encodeHdr a b c d
  simp only [decodeHdr, byteField_eq_hdrField] at h
  exact Instr.hdr.inj h

/-- Every word is the `HDR` word of its fields (R135). -/
theorem encodeHdr_hdrFields (w : Word) :
    encodeHdr (hdrField w 24) (hdrField w 16) (hdrField w 8) (hdrField w 0) = w := by
  have h := encodeHdr_byteFields w
  simp only [byteField_eq_hdrField] at h
  exact h

/-- The entries of header word `k` are the fields just set there. -/
theorem widthAt_setFields_inside (v : Vector Byte 16) {k : Nat} (a b c d : Byte) (hk : k < 4) :
    widthAt (setFields v k a b c d) (4 * k) = a ∧ widthAt (setFields v k a b c d) (4 * k + 1) = b
      ∧ widthAt (setFields v k a b c d) (4 * k + 2) = c ∧ widthAt (setFields v k a b c d) (4 * k + 3) = d := by
  simp [widthAt_setFields _ _ _ _ _ _ _ hk]

/-- Every entry of another header word stays. -/
theorem widthAt_setFields_outside (v : Vector Byte 16) {k i : Nat} (a b c d : Byte) (hk : k < 4)
    (hi : i < 4 * k ∨ 4 * k + 4 ≤ i) : widthAt (setFields v k a b c d) i = widthAt v i := by
  rw [widthAt_setFields _ _ _ _ _ _ _ hk, if_neg (by omega), if_neg (by omega), if_neg (by omega), if_neg (by omega)]

/-- The header word of four entries just set is the `HDR` word of their values. -/
theorem hdrWordOf_setFields (v : Vector Byte 16) {k : Nat} (a b c d : Byte) (hk : k < 4) :
    hdrWordOf (setFields v k a b c d) k = encodeHdr a b c d := by
  obtain ⟨ha, hb, hc, hd⟩ := widthAt_setFields_inside v a b c d hk
  rw [hdrWordOf_eq_encodeHdr, ha, hb, hc, hd]

/-- Putting a byte below a word shifts the word up by 256. -/
theorem toNat_append_byte {n : Nat} (x : BitVec n) (y : Byte) : (x ++ y).toNat = x.toNat * 2 ^ 8 + y.toNat := by
  rw [BitVec.toNat_append, ← Nat.shiftLeft_add_eq_or_of_lt y.isLt, Nat.shiftLeft_eq]

theorem toNat_encodeHdr (a b c d : Byte) :
    (encodeHdr a b c d).toNat = a.toNat * 2 ^ 24 + b.toNat * 2 ^ 16 + c.toNat * 2 ^ 8 + d.toNat := by
  rw [encodeHdr, toNat_append_byte, toNat_append_byte, toNat_append_byte]
  omega

theorem toNat_hdrField (w : Word) (n : Nat) : (hdrField w n).toNat = w.toNat / 2 ^ n % 256 := by
  rw [hdrField_eq_extract, BitVec.extractLsb'_toNat, Nat.shiftRight_eq_div_pow]

/-! ### The width of a miniblock (R130) -/

theorem maxbitsOf_le_iff_maxWord {v : List Word} {c : Nat} : maxbitsOf v ≤ c ↔ maxWord v < 2 ^ c := by
  unfold maxbitsOf
  split
  case isTrue h => simp [h]
  case isFalse h => exact Nat.log2_lt h

/-- The maximum is below a positive bound exactly when every value is. -/
theorem maxWord_lt_iff {v : List Word} {m : Nat} (hm : 0 < m) : maxWord v < m ↔ ∀ w ∈ v, w.toNat < m := by
  refine ⟨fun h w hw => (le_maxWord hw).trans_lt h, fun h => ?_⟩
  obtain h0 | ⟨w, hw, hmax⟩ := maxWord_mem v
  · rwa [h0]
  · rw [hmax]
    exact h w hw

/-- A width is at least `maxbits` exactly when every value fits in it. -/
theorem maxbitsOf_le_iff {v : List Word} {c : Nat} : maxbitsOf v ≤ c ↔ ∀ w ∈ v, w.toNat < 2 ^ c :=
  maxbitsOf_le_iff_maxWord.trans (maxWord_lt_iff (Nat.two_pow_pos c))

/-! ### The judgement of the present widths (R136) -/

/-- A judgement that holds changes the answer only. -/
theorem widthCheck_of_ok {s : State} (h : widthOk s.widths s.mbCnt.toNat = true) :
    exec .widthCheck s = .next { s with funcOut := .bit true } :=
  if_pos h

/-- A judgement that fails enters the error state (R266). -/
theorem widthCheck_of_not_ok {s : State} (h : ¬ widthOk s.widths s.mbCnt.toNat = true) :
    exec .widthCheck s = .next { s with funcOut := .bit false, err := .streamCorrupt, fsm := .error } :=
  if_neg h

/-! ### The statements -/

/-- Settles O4: both laws are those of the `HDR` format. -/
theorem headerFieldsRoundTrip : Obligations.HeaderFieldsRoundTrip := by
  refine ⟨fun b k _ => ?_, fun b w k hk => ?_⟩
  · rw [hdrWordOf_eq_encodeHdr]
    exact hdrField_encodeHdr _ _ _ _
  · rw [hdrWordOf_setFields _ _ _ _ _ hk, encodeHdr_hdrFields]

/-- Settles O10: the least bound is `maxbits` itself, because it is at most a width exactly when the values fit in that width. -/
theorem maxbitsIsLeastWidth : Obligations.MaxbitsIsLeastWidth :=
  fun v _ => ⟨maxbitsOf v.toList, rfl, maxbitsOf_le v.toList, maxbitsOf_le_iff.1 le_rfl, fun _ => maxbitsOf_le_iff.2⟩

/-- Settles O11. -/
theorem hdrPackResult : Obligations.HdrPackResult := by
  refine fun k s => ⟨hdrWordOf s.widths k, rfl, ?_⟩
  rw [hdrWordOf_eq_encodeHdr, toNat_encodeHdr]

/-- Settles O12: the fields are the bytes of the word, and the entries are those `setFields` writes. -/
theorem hdrUnpackResult : Obligations.HdrUnpackResult := by
  intro k w s
  have htop : (hdrField w 24).toNat = w.toNat / 2 ^ 24 := by
    have := w.isLt
    rw [toNat_hdrField]
    omega
  have hlow : (hdrField w 0).toNat = w.toNat % 256 := by
    rw [toNat_hdrField, pow_zero, Nat.div_one]
  obtain ⟨ha, hb, hc, hd⟩ :=
    widthAt_setFields_inside s.widths (hdrField w 24) (hdrField w 16) (hdrField w 8) (hdrField w 0) k.isLt
  exact ⟨_, _, _, _, _, rfl, htop, toNat_hdrField w 16, toNat_hdrField w 8, hlow, ha, hb, hc, hd,
    fun _ => widthAt_setFields_outside _ _ _ _ _ k.isLt⟩

/-- Settles O13: an index below `mb_cnt` is below 16, so the judgement examines it. -/
theorem widthCheckResult : Obligations.WidthCheckResult := by
  refine fun s hcnt => ⟨fun h => ?_, fun i hi hwide => ?_⟩
  · exact widthCheck_of_ok ((widthOk_iff _ _).2 fun i _ => h i)
  · exact widthCheck_of_not_ok fun hok => hwide.not_ge ((widthOk_iff _ _).1 hok i (hi.trans_le hcnt) hi)

end Sys2Proof.Proofs.WidthHeader

/-! Proofs of the statements about the kernel pair, the two dispatches and the miniblock scheduler: `Obligations.KernelSizesAndEndWidths`,
`Obligations.KernelInverts`, `Obligations.PackResult`, `Obligations.UnpackResult`, `Obligations.PackThenUnpackRestores`,
`Obligations.SchedPackResult`, `Obligations.SchedUnpackResult` and `Obligations.SchedEndResults`. The kernel pair is taken at its three
kinds of width, 0, 32 and between; between, the permutation cancels and the regrouping of bits is left. A dispatch whose conditions
hold has its effect, and a step of the scheduler is such a dispatch and the advance of one cursor and of the index. -/

namespace Sys2Proof.Proofs.MiniblockScheduler

open Sys2Proof.Machine Sys2Proof.Safety Sys2Proof.Proofs.Frames Sys2Proof.Proofs.StreamWords

/-! ### The kernel pair at its three kinds of width (R150 to R157) -/

theorem fitsWidth_iff {b : Nat} {v : List Word} : fitsWidth b v = true ↔ ∀ w ∈ v, w.toNat < 2 ^ b := by
  simp [fitsWidth]

theorem kernelPack_zero (v : List Word) : kernelPack 0 v = [] := rfl

theorem kernelPack_full (v : List Word) : kernelPack 32 v = v := rfl

theorem kernelPack_between {b : Nat} {v : List Word} (h0 : b ≠ 0) (h32 : b ≠ 32) (hf : fitsWidth b v = true) :
    kernelPack b v = (Config.payloadPerm b (regroup b v)).toList := by
  rw [kernelPack, if_neg h0, if_neg h32, if_pos hf]

theorem kernelUnpack_zero (ws : List Word) : kernelUnpack 0 ws = List.replicate 128 0#32 := if_pos rfl

theorem kernelUnpack_full (ws : List Word) : kernelUnpack 32 ws = ws := rfl

/-- Between the end widths a payload is a vector of `4·b` words, and `K.unpack` undoes the permutation on it. -/
theorem kernelUnpack_between {b : Nat} (h0 : b ≠ 0) (h32 : b ≠ 32) (x : Vector Word (4 * b)) :
    kernelUnpack b x.toList = ungroup b ((Config.payloadPerm b).symm x) := by
  have hx : (Vector.ofFn fun j : Fin (4 * b) => x.toList.getD j.val 0#32) = x := by
    ext j hj : 1
    rw [Vector.getElem_ofFn, List.getD_eq_getElem _ _ (by simpa using hj), Vector.getElem_toList]
  rw [kernelUnpack, if_neg h0, if_neg h32, hx]

/-- Words as many as a payload has are the words of a payload vector. -/
theorem exists_vector_of_length {n : Nat} {ws : List Word} (h : ws.length = n) : ∃ x : Vector Word n, x.toList = ws :=
  ⟨⟨ws.toArray, h⟩, rfl⟩

/-! ### The kernel pair is inverse both ways (R156) -/

/-- Values of no bits are zeros. -/
theorem eq_replicate_zero {v : List Word} (hv : v.length = 128) (hf : ∀ w ∈ v, w.toNat < 2 ^ 0) :
    v = List.replicate 128 0#32 :=
  List.eq_replicate_iff.2 ⟨hv, fun w hw => BitVec.eq_of_toNat_eq (Nat.lt_one_iff.1 (hf w hw))⟩

theorem kernelUnpack_kernelPack {b : Nat} {v : List Word} (hv : v.length = 128) (hf : ∀ w ∈ v, w.toNat < 2 ^ b) :
    kernelUnpack b (kernelPack b v) = v := by
  by_cases h0 : b = 0
  · subst h0
    rw [kernelUnpack_zero, eq_replicate_zero hv hf]
  by_cases h32 : b = 32
  · subst h32
    rw [kernelPack_full, kernelUnpack_full]
  have hfit := fitsWidth_iff.2 hf
  rw [kernelPack_between h0 h32 hfit, kernelUnpack_between h0 h32, Equiv.symm_apply_apply,
    ungroup_regroup b v (Nat.pos_of_ne_zero h0) hv hfit]

theorem kernelUnpack_fits {b : Nat} {ws : List Word} (hws : ws.length = 4 * b) : ∀ w ∈ kernelUnpack b ws, w.toNat < 2 ^ b := by
  by_cases h0 : b = 0
  · subst h0
    intro w hw
    rw [List.eq_of_mem_replicate hw]
    decide
  by_cases h32 : b = 32
  · subst h32
    exact fun w _ => w.isLt
  obtain ⟨x, rfl⟩ := exists_vector_of_length hws
  rw [kernelUnpack_between h0 h32]
  exact fitsWidth_iff.1 (fitsWidth_ungroup b _)

theorem kernelPack_kernelUnpack {b : Nat} {ws : List Word} (hb : b ≤ 32) (hws : ws.length = 4 * b) :
    kernelPack b (kernelUnpack b ws) = ws := by
  by_cases h0 : b = 0
  · subst h0
    rw [kernelPack_zero, List.eq_nil_of_length_eq_zero hws]
  by_cases h32 : b = 32
  · subst h32
    rw [kernelUnpack_full, kernelPack_full]
  obtain ⟨x, rfl⟩ := exists_vector_of_length hws
  rw [kernelUnpack_between h0 h32, kernelPack_between h0 h32 (fitsWidth_ungroup b _), regroup_ungroup b _ hb,
    Equiv.apply_symm_apply]

/-! ### Dispatches whose conditions hold (R151, R152) -/

theorem dispatchPack_ok {s : State} {src dst b : Nat} (h : PackReady s src dst b) :
    dispatchPack s src dst b = .next { s with mem := packedMem s src dst b } := by
  obtain ⟨hb, hmove⟩ := h
  refine dispatchPack_eq_next.2 ⟨hb, ?_⟩
  by_cases h0 : b = 0
  · exact .inl ⟨h0, by rw [packedMem, if_pos h0]⟩
  · obtain ⟨hsrc, hdst, hap, ⟨hin, hread⟩, hout, hwrite⟩ := hmove h0
    have hlen : (kernelPack b (Memory.readWords s.mem src 128)).length = 4 * b :=
      kernelPack_length (Memory.readWords_length _ _ _)
    refine .inr ⟨h0, needsPadAt_eq_false.2 hsrc, needsPadAt_eq_false.2 hdst, overlaps_of_apart hap, hin, hread, ?_⟩
    rw [packedMem, if_neg h0]
    exact writeMem_ok (by rwa [hlen]) (by rwa [hlen])

theorem dispatchUnpack_ok {s : State} {src dst b : Nat} (h : UnpackReady s src dst b) :
    dispatchUnpack s src dst b = .next { s with mem := unpackedMem s src dst b } := by
  obtain ⟨hb, hsrc, hdst, hap, ⟨hin, hread⟩, hout, hwrite⟩ := h
  have hlen : (kernelUnpack b (Memory.readWords s.mem src (4 * b))).length = 128 :=
    kernelUnpack_length (Memory.readWords_length _ _ _)
  have hsrc' : b = 0 ∨ needsPadAt src = false := or_iff_not_imp_left.2 fun h0 => needsPadAt_eq_false.2 (hsrc h0)
  refine dispatchUnpack_eq_next.2 ⟨hb, hsrc', needsPadAt_eq_false.2 hdst, overlaps_of_apart hap, hin, hread, ?_⟩
  exact writeMem_ok (by rwa [hlen]) (by rwa [hlen])

/-- The payload stands at the destination of a `PACK`; at width 0 it has no words. -/
theorem readWords_packedMem (s : State) (src dst b : Nat) :
    Memory.readWords (packedMem s src dst b) dst (4 * b) = kernelPack b (Memory.readWords s.mem src 128) := by
  by_cases h0 : b = 0
  · subst h0
    rfl
  · have hlen : (kernelPack b (Memory.readWords s.mem src 128)).length = 4 * b :=
      kernelPack_length (Memory.readWords_length _ _ _)
    rw [packedMem, if_neg h0, ← hlen, Memory.readWords_storeWords]

/-- The miniblock stands at the destination of an `UNPACK`. -/
theorem readWords_unpackedMem (s : State) (src dst b : Nat) :
    Memory.readWords (unpackedMem s src dst b) dst 128 = kernelUnpack b (Memory.readWords s.mem src (4 * b)) := by
  have hlen : (kernelUnpack b (Memory.readWords s.mem src (4 * b))).length = 128 :=
    kernelUnpack_length (Memory.readWords_length _ _ _)
  rw [unpackedMem, ← hlen, Memory.readWords_storeWords]

/-! ### The loop over the miniblocks of a block (R161 to R164) -/

theorem loopGuard_of_lt {s : State} (hlt : s.mbIdx.toNat < s.mbCnt.toNat) (hcnt : s.mbCnt.toNat ≤ 16) :
    loopGuard s = some true := by
  rw [loopGuard, if_neg hcnt.not_gt, if_pos hlt]

theorem loopGuard_of_eq {s : State} (heq : s.mbIdx = s.mbCnt) (hcnt : s.mbCnt.toNat ≤ 16) : loopGuard s = some false := by
  rw [loopGuard, if_neg hcnt.not_gt, if_neg (by rw [heq]; exact Nat.lt_irrefl _), if_pos heq]

theorem enabledAt_ePackingPayload {s : State} {g : Bool} (hf : s.fsm = .ePackingPayload) (hg : loopGuard s = some g) :
    enabledAt .ePackingPayload g s = true :=
  enabledAt_iff.2 ⟨hf, by simp only [uopGuard, hf, hg]⟩

theorem enabledAt_dUnpackingPayload {s : State} {g : Bool} (hf : s.fsm = .dUnpackingPayload) (hg : loopGuard s = some g) :
    enabledAt .dUnpackingPayload g s = true :=
  enabledAt_iff.2 ⟨hf, by simp only [uopGuard, hf, hg]⟩

/-- The index the scheduler's step leaves, on naturals (R13). -/
theorem ofNat_mbIdx_succ (x : BitVec 5) : BitVec.ofNat 5 (x.toNat + 1) = x + 1#5 := by
  rw [BitVec.ofNat_add, BitVec.ofNat_toNat, BitVec.setWidth_eq]

/-- The body of `SCHED_PACK` where the dispatch is admitted; at width 0 the dispatch bounds no payload, so the cursor must. -/
theorem schedPackBody_ok {s : State} (hr : PackReady s (blkIn s) s.outCur.toNat (nextWidth s))
    (hcur : s.outCur.toNat ≤ Config.memWords) :
    schedPackBody s = .next { s with
      mem := packedMem s (blkIn s) s.outCur.toNat (nextWidth s)
      outCur := BitVec.ofNat 33 (s.outCur.toNat + 4 * nextWidth s)
      mbIdx := BitVec.ofNat 5 (s.mbIdx.toNat + 1) } := by
  have hend : s.outCur.toNat + 4 * nextWidth s ≤ Config.memWords := by
    by_cases h0 : nextWidth s = 0
    · rwa [h0]
    · obtain ⟨-, -, -, -, hout, -⟩ := hr.2 h0
      exact hout
  rw [ofNat_mbIdx_succ]
  exact schedPackBody_eq_next.2 ⟨_, dispatchPack_ok hr, hend, rfl⟩

/-- The body of `SCHED_UNPACK` where the dispatch is admitted. -/
theorem schedUnpackBody_ok {s : State} (hr : UnpackReady s s.inCur.toNat (blkOut s) (nextWidth s)) :
    schedUnpackBody s = .next { s with
      mem := unpackedMem s s.inCur.toNat (blkOut s) (nextWidth s)
      inCur := BitVec.ofNat 33 (s.inCur.toNat + 4 * nextWidth s)
      mbIdx := BitVec.ofNat 5 (s.mbIdx.toNat + 1) } := by
  have ⟨_, _, _, _, ⟨hend, _⟩, _⟩ := hr
  rw [ofNat_mbIdx_succ]
  exact schedUnpackBody_eq_next.2 ⟨_, dispatchUnpack_ok hr, hend, rfl⟩

/-! ### The statements -/

/-- Settles O17. -/
theorem kernelSizesAndEndWidths : Obligations.KernelSizesAndEndWidths :=
  ⟨fun _ _ _ hv => kernelPack_length hv, fun _ _ _ hws => kernelUnpack_length hws,
    fun v _ => ⟨kernelPack_zero v, kernelPack_full v⟩, kernelUnpack_zero [], fun ws _ => kernelUnpack_full ws⟩

/-- Settles O18. -/
theorem kernelInverts : Obligations.KernelInverts :=
  ⟨fun _ _ _ hv hf => kernelUnpack_kernelPack hv hf, fun _ _ _ hws => kernelUnpack_fits hws,
    fun _ _ hb hws => kernelPack_kernelUnpack hb hws⟩

/-- Settles O19. -/
theorem packResult : Obligations.PackResult := fun _ _ _ _ hr => dispatchPack_ok hr

/-- Settles O20. -/
theorem unpackResult : Obligations.UnpackResult := fun _ _ _ _ hr => dispatchUnpack_ok hr

/-- Settles O21: what `UNPACK` reads is the payload `PACK` wrote, and the kernel pair is inverse on values that fit. -/
theorem packThenUnpackRestores : Obligations.PackThenUnpackRestores := by
  intro bits src dst out s hp _ hu hf
  refine ⟨_, _, dispatchPack_ok hp, dispatchUnpack_ok hu, ?_⟩
  rw [readWords_unpackedMem, readWords_packedMem, kernelUnpack_kernelPack (Memory.readWords_length _ _ _) hf]

/-- Settles O22. -/
theorem schedPackResult : Obligations.SchedPackResult := by
  intro s hf hlt hcnt hr hcur
  have he := enabledAt_ePackingPayload hf (loopGuard_of_lt hlt hcnt)
  exact (fire_enabled he).trans (schedPackBody_ok hr hcur)

/-- Settles O23. -/
theorem schedUnpackResult : Obligations.SchedUnpackResult := by
  intro s hf hlt hcnt hr
  have he := enabledAt_dUnpackingPayload hf (loopGuard_of_lt hlt hcnt)
  exact (fire_enabled he).trans (schedUnpackBody_ok hr)

/-- Settles O24. -/
theorem schedEndResults : Obligations.SchedEndResults := by
  intro s heq hcnt
  have hg := loopGuard_of_eq heq hcnt
  refine ⟨fun hf hend => ?_, fun hf hend => ?_⟩
  · exact (fire_enabled (enabledAt_ePackingPayload hf hg)).trans (advanceIn_ok hend)
  · exact (fire_enabled (enabledAt_dUnpackingPayload hf hg)).trans (advanceOut_ok hend)

end Sys2Proof.Proofs.MiniblockScheduler

/-! Proof of `Obligations.EncoderStaysInCapacity`. The four micro-operations of the encoder that write stand under the capacity test of
R191: where it fails they write nothing, and where it passes the words of their frame end below the capacity. -/

namespace Sys2Proof.Proofs.EncoderCapacity

open Sys2Proof.Machine Sys2Proof.Safety Sys2Proof.Proofs.Frames

theorem capOk_iff {s : State} {n : Nat} : capOk s n = true ↔ s.outCur.toNat - s.outBase.toNat + n ≤ s.outCap.toNat :=
  decide_eq_true_iff

/-- A body under the capacity test runs only with room; else memory is as it was (R191). -/
theorem capOk_or_mem_eq {st : FsmState} {g : Bool} {s t : State} {n : Nat} {body : Out}
    (h : fire st g s (withCapacity s n body) = .next t) : capOk s n = true ∨ t.mem = s.mem := by
  obtain ⟨hc, -⟩ | ⟨-, rfl⟩ := withCapacity_eq_next.1 (fire_eq_next.1 h).2
  · exact .inl hc
  · exact .inr rfl

/-- A word outside the words an operation may store to keeps its four bytes. -/
theorem readWord_eq_of_frame {ws : List Reg} {b n a : Nat} {s t : State} (h : Frame ws (b, n) s t) (ha : b + n ≤ a) :
    Memory.readWord t.mem a = Memory.readWord s.mem a := by
  unfold Memory.readWord
  congr 1 <;> exact h.bytes _ (.inr (by dsimp only; omega))

/-- A store of `n` words at the output cursor under the capacity test keeps every word at or above the capacity. -/
theorem readWord_above_capacity {ws : List Reg} {n a : Nat} {s t : State} (hf : Frame ws (s.outCur.toNat, n) s t)
    (hc : capOk s n = true ∨ t.mem = s.mem) (hb : s.outBase.toNat ≤ s.outCur.toNat)
    (ha : s.outBase.toNat + s.outCap.toNat ≤ a) : Memory.readWord t.mem a = Memory.readWord s.mem a := by
  obtain hc | hmem := hc
  · have hroom := capOk_iff.1 hc
    exact readWord_eq_of_frame hf (by omega)
  · rw [hmem]

/-- Settles O38: each of the four is a store at the output cursor under the capacity test. -/
theorem encoderStaysInCapacity : Obligations.EncoderStaysInCapacity := by
  rintro i s t (rfl | rfl | rfl | rfl) hb h a ha
  all_goals exact readWord_above_capacity (exec_frame h) (capOk_or_mem_eq h) hb ha

end Sys2Proof.Proofs.EncoderCapacity

/-! Proof of `Obligations.RunningStateHasOneMicroOperation`. The micro-operations are the operations whose encoding is a state code and
a guard (R105): one whose code or guard is not the engine's is refused, and the invariant gives every running state a guard under
which its code is read as a micro-operation. -/

namespace Sys2Proof.Proofs.Fetching

open Sys2Proof.Machine Sys2Proof.Safety Sys2Proof.Proofs.Invariant Sys2Proof.Proofs.StreamWords Sys2Proof.Proofs.MiniblockScheduler

/-! ### At most one micro-operation -/

/-- A micro-operation is refused unless the engine is in the state of its code and under its guard (log 14). -/
theorem uop_refused {j : Instr} {g : Bool} {w : Word} (hj : encode j = some (.uop g, w)) {s : State}
    (h : ¬ (uopGuard s = some g ∧ (fsmCode s.fsm).setWidth 32 = w)) : exec j s = .refused .notEnabled := by
  have hdis : ∀ st, (fsmCode st).setWidth 32 = w → ¬ enabledAt st g s = true := by
    rintro st hw he
    obtain ⟨rfl, hg⟩ := enabledAt_iff.1 he
    exact h ⟨hg, hw⟩
  cases j
  case eCheckLen | ePrefix | ePad | ePadDone | eWidth | eHdr | ePack | eBlockEnd | dPrefix | dPad | dPadDone | dHdr | dHdrCheck
      | dUnpack | dBlockEnd =>
    cases hj
    exact fire_disabled (hdis _ rfl)
  all_goals cases hj

/-- A micro-operation is read back from its code and guard: every one is well formed. -/
theorem decode_of_encode_uop {j : Instr} {g : Bool} {w : Word} (hj : encode j = some (.uop g, w)) : decode (.uop g) w = .ok j := by
  refine Codec.decodeOfEncodeIsInstruction j _ w ?_ hj
  cases j
  case pack | unpack | hdr => cases hj
  all_goals rfl

/-- What is fetched is read from the state code under the engine's guard (R105). -/
theorem decode_of_fetch {s : State} {i : Instr} (h : fetch s = some i) :
    ∃ g, uopGuard s = some g ∧ decode (.uop g) ((fsmCode s.fsm).setWidth 32) = .ok i := by
  unfold fetch at h
  split at h
  · cases h
  next g hg =>
    split at h
    next hi => cases h; exact ⟨g, hg, hi⟩
    · cases h

/-- A micro-operation other than the one fetched is not enabled. -/
theorem uop_refused_of_fetch {s : State} {i j : Instr} {g : Bool} {w : Word} (hi : fetch s = some i)
    (hj : encode j = some (.uop g, w)) (hne : j ≠ i) : exec j s = .refused .notEnabled := by
  obtain ⟨g', hg', hdec⟩ := decode_of_fetch hi
  refine uop_refused hj ?_
  rintro ⟨hg, rfl⟩
  obtain rfl : g' = g := Option.some.inj (hg'.symm.trans hg)
  exact hne (Except.ok.inj ((decode_of_encode_uop hj).symm.trans hdec))

/-! ### At least one micro-operation -/

/-- Where the guard of a state holds, the micro-operation of its code is fetched. -/
theorem fetch_of_enabled {s : State} {st : FsmState} {g : Bool} {i : Instr} (he : enabledAt st g s = true)
    (hi : decode (.uop g) ((fsmCode st).setWidth 32) = .ok i) : fetch s = some i := by
  obtain ⟨rfl, hg⟩ := enabledAt_iff.1 he
  exact Stepping.fetch_eq_some hg hi

/-- What the invariant says in a known state. -/
theorem runningInv_of_fsm {s : State} {st : FsmState} (hs : EngineInv s) (hf : s.fsm = st) : RunningInv { s with fsm := st } := by
  subst hf
  exact (engineInv_iff.1 hs).2

theorem enabledAt_eCheckingLength {s : State} (hf : s.fsm = .eCheckingLength) : enabledAt .eCheckingLength true s = true :=
  enabledAt_iff.2 ⟨hf, by simp only [uopGuard, hf]⟩

theorem enabledAt_eWritingPadding_done {s : State} (hf : s.fsm = .eWritingPadding) (hal : s.outCur.toNat % 4 = 0) :
    enabledAt .eWritingPadding false s = true :=
  enabledAt_iff.2 ⟨hf, by simp only [uopGuard, hf, needsPadAt_eq_false.2 hal]⟩

theorem enabledAt_eComputingWidths {s : State} (hf : s.fsm = .eComputingWidths) (hg : loopGuard s = some true) :
    enabledAt .eComputingWidths true s = true :=
  enabledAt_iff.2 ⟨hf, by simp only [uopGuard, hf, if_pos hg]⟩

theorem enabledAt_dSkippingPadding_done {s : State} (hf : s.fsm = .dSkippingPadding) (hal : s.inCur.toNat % 4 = 0) :
    enabledAt .dSkippingPadding false s = true :=
  enabledAt_iff.2 ⟨hf, by simp only [uopGuard, hf, needsPadAt_eq_false.2 hal]⟩

theorem enabledAt_dReadingHeader_done {s : State} (hf : s.fsm = .dReadingHeader) (hk : s.hdrIdx.toNat = 4) :
    enabledAt .dReadingHeader false s = true :=
  enabledAt_iff.2 ⟨hf, by simp [uopGuard, hf, hk]⟩

/-- An index within its range leaves the loop over the miniblocks a guard. -/
theorem loopGuard_of_le {s : State} (hle : s.mbIdx.toNat ≤ s.mbCnt.toNat) (hcnt : s.mbCnt.toNat ≤ 16) :
    loopGuard s = some true ∨ loopGuard s = some false :=
  hle.lt_or_eq.imp (loopGuard_of_lt · hcnt) fun heq => loopGuard_of_eq (BitVec.eq_of_toNat_eq heq) hcnt

/-- The invariant leaves no running state without a micro-operation (R180, R210). -/
theorem exists_fetch {s : State} (hs : EngineInv s) (hb : busy s = true) : ∃ i, fetch s = some i := by
  obtain ⟨-, -, hhdr, -, hcnt⟩ := bounded_of_engineInv hs
  cases hf : s.fsm with
  | idle | done | error => simp [busy, fsmReady, hf] at hb
  | eCheckingLength => exact ⟨_, fetch_of_enabled (enabledAt_eCheckingLength hf) rfl⟩
  | eWritingPrefix => exact ⟨_, fetch_of_enabled (enabledAt_eWritingPrefix hf) rfl⟩
  | eWritingPadding =>
    by_cases hal : s.outCur.toNat % 4 = 0
    · exact ⟨_, fetch_of_enabled (enabledAt_eWritingPadding_done hf hal) rfl⟩
    · exact ⟨_, fetch_of_enabled (enabledAt_eWritingPadding hf hal) rfl⟩
  | eComputingWidths =>
    obtain ⟨-, -, -, hlt, -⟩ := runningInv_of_fsm hs hf
    exact ⟨_, fetch_of_enabled (enabledAt_eComputingWidths hf (loopGuard_of_lt hlt hcnt)) rfl⟩
  | eWritingHeader =>
    obtain ⟨-, -, -, hk, -⟩ := runningInv_of_fsm hs hf
    exact ⟨_, fetch_of_enabled (enabledAt_eWritingHeader hf hk) rfl⟩
  | ePackingPayload =>
    obtain ⟨-, -, -, hle, -⟩ := runningInv_of_fsm hs hf
    obtain hg | hg := loopGuard_of_le hle hcnt
    all_goals exact ⟨_, fetch_of_enabled (enabledAt_ePackingPayload hf hg) rfl⟩
  | dReadingPrefix => exact ⟨_, fetch_of_enabled (enabledAt_dReadingPrefix hf) rfl⟩
  | dSkippingPadding =>
    by_cases hal : s.inCur.toNat % 4 = 0
    · exact ⟨_, fetch_of_enabled (enabledAt_dSkippingPadding_done hf hal) rfl⟩
    · exact ⟨_, fetch_of_enabled (enabledAt_dSkippingPadding hf hal) rfl⟩
  | dReadingHeader =>
    obtain hk | hk := hhdr.lt_or_eq
    · exact ⟨_, fetch_of_enabled (enabledAt_dReadingHeader hf hk) rfl⟩
    · exact ⟨_, fetch_of_enabled (enabledAt_dReadingHeader_done hf hk) rfl⟩
  | dUnpackingPayload =>
    obtain ⟨-, -, -, hle, -⟩ := runningInv_of_fsm hs hf
    obtain hg | hg := loopGuard_of_le hle hcnt
    all_goals exact ⟨_, fetch_of_enabled (enabledAt_dUnpackingPayload hf hg) rfl⟩

/-- Settles O53: the invariant gives the micro-operation, the encodings its being the only one. -/
theorem runningStateHasOneMicroOperation : Obligations.RunningStateHasOneMicroOperation := by
  intro s hs hb
  obtain ⟨i, hi⟩ := exists_fetch hs hb
  exact ⟨i, hi, fun _ _ _ hj hne => uop_refused_of_fetch hi hj hne⟩

end Sys2Proof.Proofs.Fetching

/-! Proofs of the statements about the encoder: `Obligations.EncodeStarts`, `Obligations.ECheckLenResult`, `Obligations.EPrefixResult`,
`Obligations.EPadResult`, `Obligations.EPadDoneResult`, `Obligations.EWidthResult`, `Obligations.EHdrResult`, `Obligations.EPackResult`
and `Obligations.EBlockEndResult`. Each micro-operation is its body where it is enabled; what is left is the branch the body takes: of
the capacity test, of block selection, or of the end of a loop. -/

namespace Sys2Proof.Proofs.EncoderFsm

open Sys2Proof.Machine Sys2Proof.Safety Sys2Proof.Proofs.StreamWords Sys2Proof.Proofs.MiniblockScheduler
open Sys2Proof.Proofs.EncoderCapacity Sys2Proof.Proofs.Fetching

/-! ### The start of an `ENCODE` (R181, R301) -/

theorem badLength_iff {l : Nat} : badLength l = true ↔ l = 0 ∨ l % 128 ≠ 0 := by
  simp [badLength]

/-- An `ENCODE` that keeps P1, P2, P4 and P5, or whose length is bad, breaks no precondition. -/
theorem encodePrecondition_of_admitted {s : State} (h : EncodeAdmitted s) : encodePrecondition s = none := by
  obtain ⟨hin, hout, hreg⟩ := h
  rw [encodePrecondition, needsPadAt_eq_false.2 hin, needsPadAt_eq_false.2 hout, if_neg Bool.false_ne_true, if_neg Bool.false_ne_true]
  obtain hbad | ⟨⟨hspaceIn, hspaceOut⟩, hap⟩ := hreg
  · exact if_pos (badLength_iff.2 hbad)
  · rw [overlaps_of_apart hap, if_neg Bool.false_ne_true, if_neg (not_or.2 ⟨hspaceIn.not_gt, hspaceOut.not_gt⟩), ite_self]

theorem startEncode_ok {s : State} (h : EncodeAdmitted s) :
    startEncode s = .next { s with
      inCur := BitVec.ofNat 33 s.inBase.toNat
      outCur := BitVec.ofNat 33 s.outBase.toNat
      len := s.inLen
      err := .none
      lastOp := 0#1
      fsm := .eCheckingLength } := by
  rw [BitVec.ofNat_toNat, BitVec.ofNat_toNat]
  exact startEncode_eq_next.2 ⟨encodePrecondition_of_admitted h, rfl⟩

/-! ### The capacity test (R191) -/

/-- Without room the body does not run. -/
theorem withCapacity_full {s : State} {n : Nat} {body : Out} (h : s.outCap.toNat < s.outCur.toNat - s.outBase.toNat + n) :
    withCapacity s n body = .next { s with err := .bufferTooSmall, fsm := .error } :=
  if_neg fun hc => (capOk_iff.1 hc).not_gt h

/-- With room the body runs. -/
theorem withCapacity_room {s : State} {n : Nat} {body : Out} (h : s.outCur.toNat - s.outBase.toNat + n ≤ s.outCap.toNat) :
    withCapacity s n body = body :=
  if_pos (capOk_iff.2 h)

theorem emitWord_ok {s : State} {w : Word} (h : MayWrite s s.outCur.toNat 1) :
    emitWord s w = .next { s with
      mem := Memory.storeWords s.mem s.outCur.toNat [w]
      outCur := BitVec.ofNat 33 (s.outCur.toNat + 1) } :=
  emitWord_eq_next.2 ⟨h.1, h.2, rfl⟩

/-- With room and the word writable, a header word is emitted and the header goes on (R188). -/
theorem emitHdr_ok {s : State} {w : Word} (hcap : s.outCur.toNat - s.outBase.toNat + 1 ≤ s.outCap.toNat)
    (hw : MayWrite s s.outCur.toNat 1) :
    emitHdr s w = .next (nextHeader { s with
      mem := Memory.storeWords s.mem s.outCur.toNat [w]
      outCur := BitVec.ofNat 33 (s.outCur.toNat + 1) }) := by
  rw [emitHdr, withCapacity_room hcap, emitWord_ok hw, andThen_next]

/-! ### The ends of the loops over header words and widths -/

theorem nextHeader_of_lt {s : State} (h : s.hdrIdx.toNat < 3) :
    nextHeader s = { s with hdrIdx := BitVec.ofNat 3 (s.hdrIdx.toNat + 1) } := by
  rw [nextHeader, if_neg (by simp only [Config.headerWords]; omega), BitVec.ofNat_add, BitVec.ofNat_toNat, BitVec.setWidth_eq]

theorem nextHeader_last {s : State} (h : s.hdrIdx.toNat = 3) :
    nextHeader s = { s with hdrIdx := 4#3, mbIdx := 0#5, fsm := .ePackingPayload } := by
  have hidx : s.hdrIdx = 3#3 := BitVec.eq_of_toNat_eq h
  rw [nextHeader, if_pos (by rw [h]), hidx]
  rfl

theorem nextWidthState_of_lt {s : State} (h : s.mbIdx.toNat + 1 < s.mbCnt.toNat) :
    nextWidthState s = { s with mbIdx := BitVec.ofNat 5 (s.mbIdx.toNat + 1) } := by
  rw [nextWidthState, if_neg h.ne, ofNat_mbIdx_succ]

theorem nextWidthState_last {s : State} (h : s.mbIdx.toNat + 1 = s.mbCnt.toNat) :
    nextWidthState s = { s with
      mbIdx := BitVec.ofNat 5 (s.mbIdx.toNat + 1)
      hdrIdx := 0#3
      fsm := .eWritingHeader } := by
  rw [nextWidthState, if_pos h, ofNat_mbIdx_succ]

/-! ### The width of one miniblock (R187) -/

/-- The width vector after the computation for the next miniblock. -/
def withWidth (s : State) : Vector Byte 16 :=
  s.widths.setIfInBounds s.mbIdx.toNat (BitVec.ofNat 8 (maxbitsOf (Memory.readWords s.mem (blkIn s) 128)))

/-- The new entry holds the width itself, which is at most 32 (R130). -/
theorem widthAt_withWidth_self {s : State} (h : s.mbIdx.toNat < 16) :
    (widthAt (withWidth s) s.mbIdx.toNat).toNat = maxbitsOf (Memory.readWords s.mem (blkIn s) 128) := by
  have hmax := maxbitsOf_le (Memory.readWords s.mem (blkIn s) 128)
  rw [withWidth, widthAt_setIfInBounds _ _ _ _ h, if_pos rfl, BitVec.toNat_ofNat, Nat.mod_eq_of_lt (by omega)]

theorem eWidth_records {s : State} (he : enabledAt .eComputingWidths true s = true) (hr : MayRead s (blkIn s) 128) :
    exec .eWidth s = .next (nextWidthState { s with widths := withWidth s }) :=
  (fire_enabled he).trans (readMem_ok hr.1 hr.2)

/-! ### Block selection by the input words remaining (R186) -/

theorem inRemaining_eq {s : State} {rem : Nat} (h : s.inCur.toNat + rem = s.inBase.toNat + s.len.toNat) : inRemaining s = rem := by
  unfold inRemaining; omega

theorem encSelect_full {s : State} {rem : Nat} (h : inRemaining s = rem) (hfull : 2048 ≤ rem) :
    encSelect s = { s with mbCnt := 16#5, mbIdx := 0#5, fsm := .eComputingWidths } := by
  subst h
  exact if_pos hfull

theorem encSelect_partial {s : State} {rem : Nat} (h : inRemaining s = rem) (hpos : 0 < rem) (hlt : rem < 2048) :
    encSelect s = { s with
      mbCnt := BitVec.ofNat 5 (rem / 128)
      widths := Vector.replicate 16 0#8
      mbIdx := 0#5
      fsm := .eComputingWidths } := by
  subst h
  exact (if_neg hlt.not_ge).trans (if_pos hpos)

theorem encSelect_none {s : State} (h : inRemaining s = 0) :
    encSelect s = { s with nvalue := BitVec.ofNat 32 (s.outCur.toNat - s.outBase.toNat), fsm := .done } := by
  rw [encSelect, h]
  rfl

/-! ### The end of a block (R190) -/

/-- The state in which the next block is selected: the input cursor has passed the block (R163). -/
def passBlock (s : State) : State := { s with inCur := BitVec.ofNat 33 (s.inCur.toNat + 128 * s.mbCnt.toNat) }

theorem inRemaining_passBlock {s : State} {rem : Nat} (hend : s.inCur.toNat + 128 * s.mbCnt.toNat ≤ Config.memWords)
    (hrem : s.inCur.toNat + 128 * s.mbCnt.toNat + rem = s.inBase.toNat + s.len.toNat) : inRemaining (passBlock s) = rem :=
  inRemaining_eq (by rw [passBlock, cursor_toNat hend]; exact hrem)

theorem eBlockEnd_passes {s : State} (he : enabledAt .ePackingPayload false s = true)
    (hend : s.inCur.toNat + 128 * s.mbCnt.toNat ≤ Config.memWords) :
    exec .eBlockEnd s =
      .next (if s.mbCnt = 16#5 then encSelect (passBlock s) else finish (outUsed (passBlock s)) (passBlock s)) :=
  (fire_enabled he).trans (andThen_eq_next.2 ⟨_, advanceIn_ok hend, rfl⟩)

/-! ### The statements -/

/-- Settles O25. -/
theorem encodeStarts : Obligations.EncodeStarts := by
  rintro s hready hadm i (rfl | rfl)
  all_goals exact (if_pos hready).trans (startEncode_ok hadm)

/-- Settles O30. -/
theorem eCheckLenResult : Obligations.ECheckLenResult := by
  intro s hf
  have he := enabledAt_eCheckingLength hf
  refine ⟨fun hbad => (fire_enabled he).trans ?_, fun hpos hmul => (fire_enabled he).trans ?_⟩
  · exact congrArg Host.Outcome.next (if_pos (badLength_iff.2 hbad))
  · exact congrArg Host.Outcome.next (if_neg fun hbad => (badLength_iff.1 hbad).elim hpos.ne' (absurd hmul))

/-- Settles O31. -/
theorem ePrefixResult : Obligations.EPrefixResult := by
  intro s hf
  have hbody : exec .ePrefix s = emitLen s s.len := fire_enabled (enabledAt_eWritingPrefix hf)
  rw [hbody]
  refine ⟨withCapacity_full, fun hcap hw => ?_⟩
  rw [emitLen, withCapacity_room hcap, emitWord_ok hw, andThen_next]

/-- Settles O32. -/
theorem ePadResult : Obligations.EPadResult := by
  intro s hf hp
  have he := enabledAt_eWritingPadding hf hp
  exact ⟨fun hfull => (fire_enabled he).trans (withCapacity_full hfull), Padding.ePad_emits he⟩

/-- Settles O33. -/
theorem ePadDoneResult : Obligations.EPadDoneResult := by
  intro s rem hf hal hrem
  have hbody : exec .ePadDone s = .next (encSelect s) := fire_enabled (enabledAt_eWritingPadding_done hf hal)
  have hleft := inRemaining_eq hrem
  rw [hbody]
  refine ⟨fun hfull => ?_, fun hpos hlt => ?_, fun hzero => ?_⟩
  · rw [encSelect_full hleft hfull]
  · rw [encSelect_partial hleft hpos hlt]
  · rw [encSelect_none (hleft.trans hzero)]

/-- Settles O34: the entry is the width just computed, and the index tells whether the header follows. -/
theorem eWidthResult : Obligations.EWidthResult := by
  intro s hf hlt hcnt hr
  have hbody := eWidth_records (enabledAt_eComputingWidths hf (loopGuard_of_lt hlt hcnt)) hr
  have hidx : s.mbIdx.toNat < 16 := hlt.trans_le hcnt
  refine ⟨withWidth s, ?_, fun i hi => ?_, fun hmore => hbody.trans ?_, fun hlast => hbody.trans ?_⟩
  · exact widthAt_withWidth_self hidx
  · exact (widthAt_setIfInBounds _ _ _ _ hidx).trans (if_neg hi)
  · exact congrArg Host.Outcome.next (nextWidthState_of_lt hmore)
  · exact congrArg Host.Outcome.next (nextWidthState_last hlast)

/-- Settles O35. -/
theorem eHdrResult : Obligations.EHdrResult := by
  intro s hf hk
  have hbody : exec .eHdr s = emitHdr s (hdrWordOf s.widths s.hdrIdx.toNat) := fire_enabled (enabledAt_eWritingHeader hf hk)
  rw [hbody]
  refine ⟨withCapacity_full, fun hcap hw => ?_⟩
  rw [emitHdr_ok hcap hw]
  refine ⟨fun hmore => ?_, fun hlast => ?_⟩
  · exact congrArg Host.Outcome.next (nextHeader_of_lt hmore)
  · rw [hlast]
    exact congrArg Host.Outcome.next (nextHeader_last hlast)

/-- Settles O36. -/
theorem ePackResult : Obligations.EPackResult := by
  intro s hf hlt hcnt
  have hbody : exec .ePack s = withCapacity s (4 * nextWidth s) (schedPackBody s) :=
    fire_enabled (enabledAt_ePackingPayload hf (loopGuard_of_lt hlt hcnt))
  rw [hbody]
  exact ⟨withCapacity_full, fun hcap hr hcur => (withCapacity_room hcap).trans (schedPackBody_ok hr hcur)⟩

/-- Settles O37: block selection runs in the state behind the block; a partial block is not followed by one. -/
theorem eBlockEndResult : Obligations.EBlockEndResult := by
  intro s rem hf heq hcnt hend hrem
  have hbody := eBlockEnd_passes (enabledAt_ePackingPayload hf (loopGuard_of_eq heq hcnt)) hend
  have hleft := inRemaining_passBlock hend hrem
  have hfull_iff : s.mbCnt = 16#5 ↔ s.mbCnt.toNat = 16 := BitVec.toNat_inj.symm
  rw [hbody]
  refine ⟨fun hlast => ?_, fun hfull hmore => ?_, fun hfull hpos hlt => ?_⟩
  · split
    case isTrue hc =>
      have hzero : rem = 0 := hlast.resolve_left (hfull_iff.1 hc).not_lt
      rw [encSelect_none (hleft.trans hzero)]
      rfl
    case isFalse => rfl
  · have hc := hfull_iff.2 hfull
    rw [if_pos hc, encSelect_full hleft hmore, ← hc, passBlock, hfull]
  · have hc := hfull_iff.2 hfull
    rw [if_pos hc, encSelect_partial hleft hpos hlt, passBlock, hfull]

end Sys2Proof.Proofs.EncoderFsm

/-! Proofs of the statements about the decoder: `Obligations.DecodeStarts`, `Obligations.DPrefixResult`, `Obligations.DPadResult`,
`Obligations.DPadDoneResult`, `Obligations.DHdrResult`, `Obligations.DHdrCheckResult`, `Obligations.DUnpackResult` and
`Obligations.DBlockEndResult`. Each micro-operation is its body where it is enabled; what is left is the branch the body takes: of the
checks on the length word, of the judgement of the widths, or of block selection. -/

namespace Sys2Proof.Proofs.DecoderFsm

open Sys2Proof.Machine Sys2Proof.Safety Sys2Proof.Proofs.StreamWords Sys2Proof.Proofs.MiniblockScheduler Sys2Proof.Proofs.Fetching

/-! ### The start of a `DECODE` (R211, R301) -/

theorem startDecode_ok {s : State} (hal : s.inBase.toNat % 4 = 0) :
    startDecode s = .next { s with
      inCur := BitVec.ofNat 33 s.inBase.toNat
      outCur := BitVec.ofNat 33 s.outBase.toNat
      err := .none
      lastOp := 1#1
      fsm := .dReadingPrefix } := by
  have hpre : decodePrecondition s = none := by
    rw [decodePrecondition, needsPadAt_eq_false.2 hal, if_neg Bool.false_ne_true]
  rw [BitVec.ofNat_toNat, BitVec.ofNat_toNat]
  exact startDecode_eq_next.2 ⟨hpre, rfl⟩

/-! ### The checks on the length word (R212) -/

/-- The state in which the length word is judged: `len` and `IN_CUR` are written (R212). -/
def withLength (s : State) (l : Word) : State := { s with len := l, inCur := BitVec.ofNat 33 (s.inCur.toNat + 1) }

theorem consumeLen_eq_checkLen {s : State} {l : Word} (hin : s.inCur.toNat + 1 ≤ Config.memWords) :
    consumeLen s l = checkLen (withLength s l) :=
  congrArg (andThen · checkLen) (advanceIn_ok (s := { s with len := l }) hin)

theorem decodeRegionsMeet_withLength {s : State} {l : Word} (hap : StreamApart s l.toNat) :
    decodeRegionsMeet (withLength s l) = false :=
  overlaps_of_apart hap

theorem checkLen_misaligned {s : State} (hmeet : decodeRegionsMeet s = false) (hal : s.outCur.toNat % 4 ≠ 0) :
    checkLen s = .next (raise .badOutputAlignment s) :=
  checkLen_eq_next.2 ⟨hmeet, .inl ⟨needsPadAt_eq_true.2 hal, rfl⟩⟩

theorem checkLen_tooSmall {s : State} (hmeet : decodeRegionsMeet s = false) (hal : s.outCur.toNat % 4 = 0)
    (hcap : s.outCap.toNat < s.len.toNat) : checkLen s = .next (raise .bufferTooSmall s) :=
  checkLen_eq_next.2 ⟨hmeet, .inr ⟨needsPadAt_eq_false.2 hal, .inl ⟨hcap, rfl⟩⟩⟩

/-! ### The judgement of the present widths (R217) -/

theorem checkWidths_of_ok {s : State} (h : widthOk s.widths s.mbCnt.toNat = true) :
    checkWidths s = { s with mbIdx := 0#5, fsm := .dUnpackingPayload } :=
  if_pos h

theorem checkWidths_of_not_ok {s : State} (h : ¬ widthOk s.widths s.mbCnt.toNat = true) :
    checkWidths s = raise .streamCorrupt s :=
  if_neg h

/-! ### Block selection by the output words written (R215) -/

theorem outUsed_eq {s : State} {written : Nat} (h : s.outCur.toNat = s.outBase.toNat + written) : outUsed s = written := by
  rw [outUsed, h, Nat.add_sub_cancel_left]

/-- The command ends with the whole length (R25, R215). -/
theorem finish_len_eq (s : State) : finish s.len.toNat s = { s with nvalue := s.len, fsm := .done } := by
  rw [finish, BitVec.ofNat_toNat, BitVec.setWidth_eq]

theorem decSelect_full {s : State} {written : Nat} (h : outUsed s = written) (hfull : written + 2048 ≤ s.len.toNat) :
    decSelect s = { s with mbCnt := 16#5, hdrIdx := 0#3, fsm := .dReadingHeader } := by
  subst h
  exact if_pos hfull

theorem decSelect_partial {s : State} {written : Nat} (h : outUsed s = written) (hlt : written < s.len.toNat)
    (hpart : s.len.toNat < written + 2048) :
    decSelect s = { s with
      mbCnt := BitVec.ofNat 5 ((s.len.toNat - written) / 128)
      hdrIdx := 0#3
      fsm := .dReadingHeader } := by
  subst h
  exact (if_neg hpart.not_ge).trans (if_pos hlt)

theorem decSelect_done {s : State} {written : Nat} (h : outUsed s = written) (hall : s.len.toNat ≤ written) :
    decSelect s = { s with nvalue := s.len, fsm := .done } := by
  subst h
  have hnotFull : ¬ outUsed s + Config.blockWords ≤ s.len.toNat := by simp only [Config.blockWords]; omega
  rw [decSelect, if_neg hnotFull, if_neg hall.not_gt, finish_len_eq]

/-! ### The blocks (R218, R219) -/

/-- The micro-operation and the scheduler's step that is its body have the same effect (R218). -/
theorem dUnpack_eq_schedUnpack (s : State) : exec .dUnpack s = exec .schedUnpack s := rfl

/-- The state in which the next block is selected: the output cursor has passed the block (R164). -/
def passOutputBlock (s : State) : State := { s with outCur := BitVec.ofNat 33 (s.outCur.toNat + 128 * s.mbCnt.toNat) }

theorem outUsed_passOutputBlock {s : State} {written : Nat} (hend : s.outCur.toNat + 128 * s.mbCnt.toNat ≤ Config.memWords)
    (hw : s.outCur.toNat + 128 * s.mbCnt.toNat = s.outBase.toNat + written) : outUsed (passOutputBlock s) = written :=
  outUsed_eq (by rw [passOutputBlock, cursor_toNat hend]; exact hw)

theorem dBlockEnd_passes {s : State} (he : enabledAt .dUnpackingPayload false s = true)
    (hend : s.outCur.toNat + 128 * s.mbCnt.toNat ≤ Config.memWords) :
    exec .dBlockEnd s =
      .next (if s.mbCnt = 16#5 then decSelect (passOutputBlock s) else finish s.len.toNat (passOutputBlock s)) :=
  (fire_enabled he).trans (andThen_eq_next.2 ⟨_, advanceOut_ok hend, rfl⟩)

/-! ### The statements -/

/-- Settles O26. -/
theorem decodeStarts : Obligations.DecodeStarts := by
  rintro s hready hal i (rfl | rfl)
  all_goals exact (if_pos hready).trans (startDecode_ok hal)

/-- Settles O39: the length word is consumed, and the checks are made behind it. -/
theorem dPrefixResult : Obligations.DPrefixResult := by
  rintro s l hf hr rfl hap
  have hmeet := decodeRegionsMeet_withLength hap
  rw [dPrefix_consumes (enabledAt_dReadingPrefix hf) hr]
  refine ⟨fun hbad => ?_, fun hal => ⟨fun hfull => ?_, fun hcap hmul hout => ?_⟩⟩
  · exact (consumeLen_eq_checkLen hr.1).trans (checkLen_misaligned hmeet hbad)
  · exact (consumeLen_eq_checkLen hr.1).trans (checkLen_tooSmall hmeet hal hfull)
  · exact consumeLen_ok hr.1 hal hap hcap hmul hout

/-- Settles O40: `D_PAD` is `PAD_SKIP` on a cursor that needs padding. -/
theorem dPadResult : Obligations.DPadResult := by
  intro s hf hp hr
  rw [← Padding.padSkip_eq_dPad]
  exact (Padding.padSkipResult s hf).2 hp hr

/-- Settles O41. -/
theorem dPadDoneResult : Obligations.DPadDoneResult := by
  intro s written hf hal hcur
  have hbody : exec .dPadDone s = .next (decSelect s) := fire_enabled (enabledAt_dSkippingPadding_done hf hal)
  have hused := outUsed_eq hcur
  rw [hbody]
  refine ⟨fun hfull => ?_, fun hlt hpart => ?_, fun hall => ?_⟩
  · rw [decSelect_full hused hfull]
  · rw [decSelect_partial hused hlt hpart]
  · rw [decSelect_done hused hall]

/-- Settles O42: the fields of the word are its four bytes. -/
theorem dHdrResult : Obligations.DHdrResult := by
  intro s hf hk hr
  have hnext : BitVec.ofNat 3 (s.hdrIdx.toNat + 1) = s.hdrIdx + 1#3 := by
    rw [BitVec.ofNat_add, BitVec.ofNat_toNat, BitVec.setWidth_eq]
  rw [dHdr_consumes (enabledAt_dReadingHeader hf hk) hr rfl, consumeHdr_ok hr.1, hnext]
  simp only [WidthHeader.byteField_eq_hdrField]

/-- Settles O43: an index below `mb_cnt` is below 16, so the judgement examines it. -/
theorem dHdrCheckResult : Obligations.DHdrCheckResult := by
  intro s hf hk hcnt
  have hbody : exec .dHdrCheck s = .next (checkWidths s) := fire_enabled (enabledAt_dReadingHeader_done hf hk)
  rw [hbody]
  refine ⟨fun h => ?_, fun i hi hwide => ?_⟩
  · rw [checkWidths_of_ok ((widthOk_iff _ _).2 fun i _ => h i)]
  · rw [checkWidths_of_not_ok fun hok => hwide.not_ge ((widthOk_iff _ _).1 hok i (hi.trans_le hcnt) hi), raise]

/-- Settles O44: `D_UNPACK` is `SCHED_UNPACK`. -/
theorem dUnpackResult : Obligations.DUnpackResult :=
  fun s hf hlt hcnt hr => (dUnpack_eq_schedUnpack s).trans (schedUnpackResult s hf hlt hcnt hr)

/-- Settles O45: block selection runs in the state behind the block; a partial block is not followed by one. -/
theorem dBlockEndResult : Obligations.DBlockEndResult := by
  intro s written hf heq hcnt hend hw
  have hbody := dBlockEnd_passes (enabledAt_dUnpackingPayload hf (loopGuard_of_eq heq hcnt)) hend
  have hused := outUsed_passOutputBlock hend hw
  have hfull_iff : s.mbCnt = 16#5 ↔ s.mbCnt.toNat = 16 := BitVec.toNat_inj.symm
  rw [hbody]
  refine ⟨fun hlast => ?_, fun hfull hmore => ?_, fun hfull hlt hpart => ?_⟩
  · split
    case isTrue hc =>
      have hall := hlast.resolve_left (hfull_iff.1 hc).not_lt
      rw [decSelect_done hused hall, passOutputBlock]
    case isFalse => exact congrArg Host.Outcome.next (finish_len_eq (passOutputBlock s))
  · have hc := hfull_iff.2 hfull
    rw [if_pos hc, decSelect_full hused hmore, ← hc, passOutputBlock, hfull]
  · have hc := hfull_iff.2 hfull
    rw [if_pos hc, decSelect_partial hused hlt hpart, passOutputBlock, hfull]

end Sys2Proof.Proofs.DecoderFsm

/-! Proofs of the statements about the host's writes to the engine: `Obligations.BusyWritesIgnored` and `Obligations.CommandWrites`.
A write to `CMD` is `ENCODE`, `DECODE` or a reserved value, and a busy engine ignores each of the three, as it ignores a write of an
argument register. -/

namespace Sys2Proof.Proofs.HostCommands

open Sys2Proof.Machine Sys2Proof.Proofs.HostSteps

/-! ### The value written (R102, R243) -/

theorem decode_command_reserved {v : Word} (h1 : v ≠ 1#32) (h2 : v ≠ 2#32) :
    decode .command v = .error .reservedCommand :=
  (if_neg h1).trans (if_neg h2)

theorem hostExec_wr_reserved (s : State) {v : Word} (h1 : v ≠ 1#32) (h2 : v ≠ 2#32) : hostExec (.wr 0 v) s = .next s := by
  rw [hostExec, writeReg, writeCmd, decode_command_reserved h1 h2]

/-! ### A busy engine (R242) -/

theorem not_fsmReady_of_busy {s : State} (hb : busy s = true) : ¬ fsmReady s.fsm = true := by
  simpa [busy] using hb

theorem encode_of_busy {s : State} (hb : busy s = true) : exec .encode s = .next s := if_neg (not_fsmReady_of_busy hb)

theorem decode_of_busy {s : State} (hb : busy s = true) : exec .decode s = .next s := if_neg (not_fsmReady_of_busy hb)

theorem writeArg_of_busy {s : State} (hb : busy s = true) (r : Nat) (v : Word) : writeArg s r v = s := if_pos hb

theorem hostExec_wr_command_of_busy {s : State} (hb : busy s = true) (v : Word) : hostExec (.wr 0 v) s = .next s := by
  by_cases h1 : v = 1#32
  · rw [h1, hostExec_wr_encode, encode_of_busy hb]
  by_cases h2 : v = 2#32
  · rw [h2, hostExec_wr_decode, decode_of_busy hb]
  · exact hostExec_wr_reserved s h1 h2

/-! ### The statements -/

/-- Settles O27: register 0 is `CMD`; any other number is at most an argument register. -/
theorem busyWritesIgnored : Obligations.BusyWritesIgnored := by
  intro s hb r v
  cases r with
  | zero => exact hostExec_wr_command_of_busy hb v
  | succ r => exact congrArg Host.Outcome.next (writeArg_of_busy hb (r + 1) v)

/-- Settles O28. -/
theorem commandWrites : Obligations.CommandWrites :=
  fun s => ⟨hostExec_wr_encode s, hostExec_wr_decode s, fun _ => hostExec_wr_reserved s⟩

end Sys2Proof.Proofs.HostCommands

/-! Proofs of `Obligations.CommandsAfterReset` and `Obligations.BrokenPreconditionsRefused`. Each refusal is one branch of the judgement
that makes it: of the start of a command, of the checks on the length word, of a read past the top of the address space, or of a host
write against the buffers of the running command (R301). -/

namespace Sys2Proof.Proofs.ResetAndHazards

open Sys2Proof.Machine Sys2Proof.Safety Sys2Proof.Proofs.StreamWords Sys2Proof.Proofs.MiniblockScheduler
open Sys2Proof.Proofs.EncoderFsm Sys2Proof.Proofs.DecoderFsm

theorem overlaps_iff_not_apart {a n b m : Nat} : overlaps a n b m = true ↔ ¬ Apart a n b m := by
  rw [← Bool.not_eq_false, overlaps_eq_false, or_comm (a := b + m ≤ a)]

/-! ### The start of a command (P1, P2, P4 and P5) -/

theorem encode_refused {s : State} {r : Refusal} (hready : fsmReady s.fsm = true) (h : encodePrecondition s = some r) :
    exec .encode s = .refused r :=
  (if_pos hready).trans (by rw [startEncode, h])

theorem encodePrecondition_inputMisaligned {s : State} (hin : s.inBase.toNat % 4 ≠ 0) :
    encodePrecondition s = some .inputMisaligned :=
  if_pos (needsPadAt_eq_true.2 hin)

theorem encodePrecondition_outputMisaligned {s : State} (hin : s.inBase.toNat % 4 = 0) (hout : s.outBase.toNat % 4 ≠ 0) :
    encodePrecondition s = some .outputMisaligned := by
  rw [encodePrecondition, needsPadAt_eq_false.2 hin, if_neg Bool.false_ne_true, if_pos (needsPadAt_eq_true.2 hout)]

/-- On aligned bases and a good length the regions of the `ENCODE` are judged (log 7). -/
theorem encodePrecondition_regions {s : State} (hin : s.inBase.toNat % 4 = 0) (hout : s.outBase.toNat % 4 = 0)
    (hpos : 0 < s.inLen.toNat) (hmul : s.inLen.toNat % 128 = 0) :
    encodePrecondition s =
      if ¬ EncodeInSpace s then some .addressWrap else if ¬ EncodeApart s then some .regionsOverlap else none := by
  have hgood : ¬ badLength s.inLen.toNat = true := fun hbad => (badLength_iff.1 hbad).elim hpos.ne' (absurd hmul)
  rw [encodePrecondition, needsPadAt_eq_false.2 hin, needsPadAt_eq_false.2 hout, if_neg Bool.false_ne_true, if_neg Bool.false_ne_true,
    if_neg hgood]
  simp only [overlaps_iff_not_apart, EncodeInSpace, Classical.not_and_iff_not_or_not, Nat.not_le]

theorem decode_refused {s : State} (hready : fsmReady s.fsm = true) (hin : s.inBase.toNat % 4 ≠ 0) :
    exec .decode s = .refused .inputMisaligned := by
  have hpre : decodePrecondition s = some .inputMisaligned := if_pos (needsPadAt_eq_true.2 hin)
  exact (if_pos hready).trans (by rw [startDecode, hpre])

/-! ### The length word of a `DECODE` (P3, P4 and P5) -/

/-- `D_PREFIX` judges the word at the input cursor. -/
theorem dPrefix_judges {s : State} (hf : s.fsm = .dReadingPrefix) (hr : MayRead s s.inCur.toNat 1) :
    exec .dPrefix s = checkLen (withLength s (Memory.readWord s.mem s.inCur.toNat)) :=
  (dPrefix_consumes (enabledAt_dReadingPrefix hf) hr).trans (consumeLen_eq_checkLen hr.1)

/-- P4 is judged before the errors (R292). -/
theorem checkLen_regionsOverlap {s : State} {l : Word} (h : ¬ StreamApart s l.toNat) :
    checkLen (withLength s l) = .refused .regionsOverlap :=
  if_pos (overlaps_iff_not_apart.2 h)

/-- Where neither error holds, P3 and then P5 are judged (R212). -/
theorem checkLen_of_no_error {s : State} (hmeet : decodeRegionsMeet s = false) (hal : s.outCur.toNat % 4 = 0)
    (hcap : s.len.toNat ≤ s.outCap.toNat) :
    checkLen s =
      if s.len.toNat % 128 ≠ 0 then .refused .prefixNotMultiple
      else if Config.memWords < s.outBase.toNat + s.len.toNat then .refused .addressWrap
      else .next { s with fsm := .dSkippingPadding } := by
  rw [checkLen, hmeet, needsPadAt_eq_false.2 hal, if_neg Bool.false_ne_true, if_neg Bool.false_ne_true, if_neg hcap.not_gt]

/-! ### A stream that passes the top of the address space (P5) -/

theorem readMem_past_top {s : State} {a n : Nat} {k : List Word → Out} (h : Config.memWords < a + n) :
    readMem s a n k = .refused .addressWrap :=
  if_pos h

/-- A dispatch that breaks nothing else is refused where its payload passes the top. -/
theorem dispatchUnpack_past_top {s : State} {src dst b : Nat} (hb : b ≤ 32) (hsrc : src % 4 = 0) (hdst : dst % 4 = 0)
    (hap : Apart src (4 * b) dst 128) (htop : Config.memWords < src + 4 * b) :
    dispatchUnpack s src dst b = .refused .addressWrap := by
  rw [dispatchUnpack, if_neg hb.not_gt, needsPadAt_eq_false.2 hsrc, needsPadAt_eq_false.2 hdst, Bool.and_false, Bool.or_false,
    if_neg Bool.false_ne_true, overlaps_of_apart hap, if_neg Bool.false_ne_true, readMem_past_top htop]

theorem blkOut_aligned {s : State} (hout : s.outCur.toNat % 4 = 0) : blkOut s % 4 = 0 := by
  rw [blkOut]
  omega

theorem dUnpack_past_top {s : State} (he : enabledAt .dUnpackingPayload true s = true) (hb : nextWidth s ≤ 32)
    (hin : s.inCur.toNat % 4 = 0) (hout : s.outCur.toNat % 4 = 0) (hap : Apart s.inCur.toNat (4 * nextWidth s) (blkOut s) 128)
    (htop : Config.memWords < s.inCur.toNat + 4 * nextWidth s) : exec .dUnpack s = .refused .addressWrap := by
  refine (fire_enabled he).trans ?_
  rw [schedUnpackBody, dispatchUnpack_past_top hb hin (blkOut_aligned hout) hap htop, andThen]

/-! ### Host writes while a command runs (P6) -/

/-- While a command runs, a write is refused or carried out by its buffers, given as a condition `P` of lying outside them. -/
theorem mem_judged {s : State} {a : Word} {ws : List Word} {P : Prop} [Decidable P] (hb : busy s = true)
    (hend : a.toNat + ws.length ≤ Config.memWords) (hP : touchesRunning s a.toNat ws.length = true ↔ ¬ P) :
    if P then hostExec (.mem a ws) s = .next { s with mem := Memory.storeWords s.mem a.toNat ws }
    else hostExec (.mem a ws) s = .refused .bufferWritten := by
  have hmem : hostExec (.mem a ws) s =
      if ¬ P then .refused .bufferWritten else .next { s with mem := Memory.storeWords s.mem a.toNat ws } := by
    rw [hostExec, hostWriteMem, if_neg hend.not_gt, hb, Bool.true_and]
    simp only [hP]
  split
  case isTrue h => rw [hmem, if_neg (not_not.2 h)]
  case isFalse h => rw [hmem, if_pos h]

theorem touchesRunning_encode {s : State} {a n : Nat} (he : encoding s = true) :
    touchesRunning s a n = true ↔ ¬ OutsideEncode s a n := by
  rw [touchesRunning, if_pos he, Bool.and_eq_true, Bool.or_eq_true, overlaps_iff_not_apart, overlaps_iff_not_apart,
    Bool.not_eq_true', ← Bool.not_eq_true, badLength_iff, not_or (q := _ ∧ _), Classical.not_and_iff_not_or_not]

/-- A command that will end in `BufferTooSmall` has no output buffer (R66). -/
theorem overlaps_decodeOutput {s : State} {a n : Nat} :
    overlaps a n s.outBase.toNat (decodeOutputWords s) = true ↔
      ¬ (decodeLength s ≤ s.outCap.toNat → Apart a n s.outBase.toNat (decodeLength s)) := by
  rw [overlaps_iff_not_apart, decodeOutputWords]
  split
  case isTrue hcap => rw [forall_prop_of_true hcap]
  case isFalse hcap => simp only [Apart, true_or, or_true, not_true_eq_false, hcap, false_implies]

theorem touchesRunning_decode {s : State} {a n : Nat} (he : encoding s = false) :
    touchesRunning s a n = true ↔ ¬ OutsideDecode s (decodeLength s) a n := by
  rw [touchesRunning, he, if_neg Bool.false_ne_true, Bool.or_eq_true, overlaps_iff_not_apart, overlaps_decodeOutput,
    Classical.not_and_iff_not_or_not]

theorem busy_of_encoding {s : State} (he : encoding s = true) : busy s = true := by
  obtain hf | hf | hf | hf | hf | hf := decide_eq_true_iff.1 he
  all_goals rw [busy, hf, fsmReady, Bool.not_false]

/-- A `DECODE` runs: its length is the word it is about to read, or the `len` it has read (log 9). -/
theorem decode_running {s : State} {l : Nat}
    (h : (s.fsm = .dReadingPrefix ∧ l = (Memory.readWord s.mem s.inBase.toNat).toNat)
      ∨ ((s.fsm = .dSkippingPadding ∨ s.fsm = .dReadingHeader ∨ s.fsm = .dUnpackingPayload) ∧ l = s.len.toNat)) :
    busy s = true ∧ encoding s = false ∧ decodeLength s = l := by
  obtain ⟨hf, rfl⟩ | ⟨hf | hf | hf, rfl⟩ := h
  all_goals simp [busy, fsmReady, encoding, decodeLength, hf]

/-! ### The first steps after reset (R292) -/

/-- The engine behind a `DECODE` straight after reset: all bases and cursors are 0. -/
def decodingAfterReset (m : List Host.Cell) : State :=
  { State.reset with mem := m, lastOp := 1#1, fsm := .dReadingPrefix }

theorem decode_afterReset (m : List Host.Cell) :
    exec .decode { State.reset with mem := m } = .next (decodingAfterReset m) :=
  decodeStarts _ rfl rfl _ (.inl rfl)

/-- The allocation after reset is all of memory (log 4). -/
theorem mayRead_afterReset (m : List Host.Cell) : MayRead (decodingAfterReset m) 0 1 := 
  ⟨by decide, (by decide : covered State.reset.readable 0 1 = true)⟩

/-- The stream and the output region of a nonzero length both begin at word 0. -/
theorem not_streamApart_afterReset (m : List Host.Cell) {l : Word} (hl : l ≠ 0#32) :
    ¬ StreamApart (decodingAfterReset m) l.toNat := by
  have hpos := streamWords_pos m 0 l.toNat
  have hl' : l.toNat ≠ 0 := fun h => hl (BitVec.eq_of_toNat_eq h)
  change ¬ Apart 0 (streamWords m 0 l.toNat) 0 l.toNat
  omega

/-! ### The statements -/

/-- Settles O6: the length after reset is 0, which `E_CHECKLEN` does not take; the length word of a `DECODE` is word 0. -/
theorem commandsAfterReset : Obligations.CommandsAfterReset := by
  refine ⟨rfl, ?_, fun m => ?_⟩
  · have hstart := encodeStarts State.reset rfl ⟨rfl, rfl, .inl (.inl rfl)⟩ .encode (.inl rfl)
    exact ⟨_, _, hstart, (eCheckLenResult _ rfl).1 (.inl rfl), rfl, rfl⟩
  · have hr := mayRead_afterReset m
    refine ⟨_, decode_afterReset m, fun hne => ?_, fun h0 => ?_⟩
    · exact (dPrefix_judges rfl hr).trans (checkLen_regionsOverlap (not_streamApart_afterReset m hne))
    · have hgo := ((dPrefixResult (decodingAfterReset m) 0#32 rfl hr h0 (.inr (.inl rfl))).2 rfl).2
      exact ⟨_, hgo (Nat.zero_le _) rfl (Nat.zero_le _), rfl⟩

/-- Settles O29. -/
theorem brokenPreconditionsRefused : Obligations.BrokenPreconditionsRefused := by
  intro s
  refine ⟨fun hready hin => ?_, fun hready hin hout => ?_, fun hready hin hout hpos hmul => ?_, fun l hf hr hl => ?_,
    fun htop => ?_, fun hf hlt hcnt hb hin hout hap htop => ?_, fun a ws hend => ⟨fun hf => ?_, fun l hl => ?_⟩, fun a w n => rfl⟩
  · exact ⟨encode_refused hready (encodePrecondition_inputMisaligned hin), decode_refused hready hin⟩
  · exact encode_refused hready (encodePrecondition_outputMisaligned hin hout)
  · have hpre := encodePrecondition_regions hin hout hpos hmul
    refine ⟨fun hspace => encode_refused hready ?_, fun hspace hap => encode_refused hready ?_⟩
    · rw [hpre, if_pos hspace]
    · rw [hpre, if_neg (not_not.2 hspace), if_pos hap]
  · rw [dPrefix_judges hf hr, hl]
    refine ⟨checkLen_regionsOverlap, fun hap hal hcap => ?_⟩
    rw [checkLen_of_no_error (decodeRegionsMeet_withLength hap) hal hcap]
    exact ⟨fun hmul => if_pos hmul, fun hmul htop => (if_neg (not_not.2 hmul)).trans (if_pos htop)⟩
  · exact ⟨fun hf hp => (fire_enabled (enabledAt_dSkippingPadding hf hp)).trans (readMem_past_top htop),
      fun hf hk => (fire_enabled (enabledAt_dReadingHeader hf hk)).trans (readMem_past_top htop)⟩
  · exact dUnpack_past_top (enabledAt_dUnpackingPayload hf (loopGuard_of_lt hlt hcnt)) hb hin hout hap htop
  · have he : encoding s = true := decide_eq_true hf
    exact mem_judged (busy_of_encoding he) hend (touchesRunning_encode he)
  · obtain ⟨hb, he, rfl⟩ := decode_running hl
    exact mem_judged hb hend (touchesRunning_decode he)

end Sys2Proof.Proofs.ResetAndHazards
